-- ==== Sys2Proof/Word.lean ====
section
/-! DEFINITION. Bytes, strings and field values: the data every other file speaks of (00_scope.md R7, 10_state.md R14). -/

namespace Sys2Proof

/-- A byte is an unsigned 8-bit value (00_scope.md R7). -/
abbrev Byte := BitVec 8

/-- A string is a finite sequence of character codes, each 0 to 255 (00_scope.md R7). -/
abbrev Str := List Byte

/-- A field value that is present (10_state.md R14). `ABSENT` is `none` of `Option Val`. -/
inductive Val where
  | txt (s : Str)
  | num (n : Nat)
deriving DecidableEq, Repr, Inhabited

/-- A map from field name to field value: a request section (10_state.md R13) or a status document (R15). -/
abbrev Doc := List (Str × Val)

end Sys2Proof
end

