-- ==== Sys2Proof/Config.lean ====
section
/-! DEFINITION. The read-only configuration of a block (00_scope.md R6, 10_state.md R17): the three field tables with
their row kinds (43_fieldmap.md R115 to R125), the other OPEN parameters, the spec's two free choices, and the two results
the spec does not state. -/

namespace Sys2Proof

/-- What a mode name of the `MODE` table sets (43_fieldmap.md R118). -/
inductive ModeEnc where
  | bit (off : Nat) (mask : Byte)
  | byte (off : Nat) (value : Byte)
deriving DecidableEq, Repr

/-- A row of `ENC_FULL` (43_fieldmap.md R117 to R120). -/
inductive EncRow where
  | bool (name : Str) (off : Nat) (mask : Byte)
  | mode (regions : List (Nat × Nat)) (table : List (Str × ModeEnc))
  | heat (halfOff : Nat) (halfMask : Byte) (wholeOff : Nat) (wholeMask : Byte)
  | numf (name : Str) (off : Nat) (fallback clearsMode : Bool)
deriving DecidableEq, Repr

/-- Where a byte written by an `ENC_PART` entry comes from (43_fieldmap.md R121). -/
inductive PartSrc where
  | const (b : Byte)
  | val
  | sel (bOn bOff : Byte)
deriving DecidableEq, Repr

/-- An entry of `ENC_PART` (43_fieldmap.md R121). -/
structure PartEntry where
  name : Str
  writes : List (Nat × PartSrc)
deriving DecidableEq, Repr

/-- A row of `DEC_STATUS` (43_fieldmap.md R122 to R125). `pat` is the rule's `match`. -/
inductive DecRow where
  | flag (name : Str) (off : Nat) (mask pat : Byte) (vSet vClr : Str) (modeName : Option Str)
  | enum (name : Str) (off : Nat) (mask : Byte) (patterns : List (Byte × Str)) (vFallback : Str)
  | num (name : Str) (off : Nat)
  | heatd
deriving DecidableEq, Repr

/-- The OPEN parameters of 00_scope.md R6. The parameters with a SOURCE or DECIDED value are the constants of
Machine/Params.lean (log 6). -/
structure Config where
  /-- `VERSION` -/
  version : Nat
  /-- `LIMITED_SUBTYPES` -/
  limitedSubtypes : List Val
  /-- `PART_HI` -/
  partHi : Nat
  /-- `FULL_HI` -/
  fullHi : Nat
  /-- `ENC_FULL` -/
  encFull : List EncRow
  /-- `ENC_PART` -/
  encPart : List PartEntry
  /-- `DEC_STATUS` -/
  decStatus : List DecRow
deriving DecidableEq, Repr

/-- DESIGN CHOICE, safe (log 10). The free choice of U7 (43_fieldmap.md R125): `true` stands for `"whole"`, `false`
for `"half"`. It may depend on all that PARSE may depend on, the configuration and the bytes of the input from offset 10
on (10_state.md R17, R18; 45_parser.md R180); it has no body, so nothing can be proved of its value. -/
opaque Config.freeHeat : Config → List Byte → Bool

/-- DESIGN CHOICE, safe (log 11). The free choice of U10 (45_parser.md R177) for one schedule slot: `true` stands for
`"1"`, `false` for `"0"`. It may depend on the same as `freeHeat`; no body, so nothing can be proved of its value. -/
opaque Config.freeEnable : Config → List Byte → Fin 3 → Bool

/-- DESIGN CHOICE, safe (log 13). The bytes HEX2BYTES gives on `A_STR = ABSENT`, where the spec states no result; no body,
so nothing can be proved of its value. -/
opaque Config.freeHexBytes : Config → List Byte

/-- DESIGN CHOICE, safe (log 13). The bytes RAW2BYTES gives on `A_STR = ABSENT`, where the spec states no result; no body,
so nothing can be proved of its value. -/
opaque Config.freeRawBytes : Config → List Byte

end Sys2Proof
end

