-- ==== Sys2Proof/Machine/Text.lean ====
section
/-! DEFINITION. Character codes, hex digits, decimal numerals and comma-separated text. -/

namespace Sys2Proof

/-- A string literal of the spec as its character codes (00_scope.md R7). PRESUMED, unsafe (log 25): ASCII, for the
characters whose codes the spec does not give (it gives those of the digits, the hex letters and the comma). -/
def ascii (s : String) : Str := s.toList.map fun c => BitVec.ofNat 8 c.toNat

/-- `HEXDIG(d)` for a nibble `d`: `'0'..'9'` then `'a'..'f'` (30_encoding.md R64). -/
def hexDig (d : Nat) : Byte := if d < 10 then BitVec.ofNat 8 (0x30 + d) else BitVec.ofNat 8 (0x61 + (d - 10))

/-- `HEXVAL(c)`: decimal digits, lower-case and upper-case hex digits (40_hex_byte.md R82); `none` is a character
the rule gives no value. -/
def hexVal (c : Byte) : Option Nat :=
  if 0x30 ≤ c.toNat ∧ c.toNat ≤ 0x39 then some (c.toNat - 0x30)
  else if 0x61 ≤ c.toNat ∧ c.toNat ≤ 0x66 then some (c.toNat - 0x61 + 10)
  else if 0x41 ≤ c.toNat ∧ c.toNat ≤ 0x46 then some (c.toNat - 0x41 + 10)
  else none

/-- The value of a decimal digit character (30_encoding.md R67). -/
def digitVal (c : Byte) : Option Nat :=
  if 0x30 ≤ c.toNat ∧ c.toNat ≤ 0x39 then some (c.toNat - 0x30) else none

/-- The digits of a numeral, most significant first, on top of the value read so far. -/
def numeralFrom (acc : Nat) : Str → Option Nat
  | [] => some acc
  | c :: rest =>
    match digitVal c with
    | some d => numeralFrom (10 * acc + d) rest
    | none => none

/-- The value of a decimal numeral: at least one digit, no sign, no space, no leading zero (30_encoding.md R67). -/
def numeral (s : Str) : Option Nat :=
  match s with
  | [] => none
  | [c] => digitVal c
  | c :: c' :: rest => if c = 0x30 then none else numeralFrom 0 (c :: c' :: rest)

/-- The character of a decimal digit. -/
def digitChar (d : Nat) : Byte := BitVec.ofNat 8 (0x30 + d)

/-- `DEC(b)`, the decimal numeral of a byte (45_parser.md R176, 30_encoding.md R67). -/
def decText (b : Byte) : Str :=
  let n := b.toNat
  if n < 10 then [digitChar n]
  else if n < 100 then [digitChar (n / 10), digitChar (n % 10)]
  else [digitChar (n / 100), digitChar (n / 10 % 10), digitChar (n % 10)]

/-- The comma, code `0x2C` (30_encoding.md R67). -/
def comma : Byte := 0x2C

/-- A string split at every comma; the result is never empty (44_assembler.md R155). -/
def splitComma : Str → List Str
  | [] => [[]]
  | c :: rest =>
    if c = comma then [] :: splitComma rest
    else
      match splitComma rest with
      | [] => [[c]]
      | f :: fs => (c :: f) :: fs

/-- Strict lexicographic order of strings: the order in which a status document lists its fields (log 20). -/
def strLt : Str → Str → Bool
  | _, [] => false
  | [], _ :: _ => true
  | a :: as, b :: bs => if a.toNat < b.toNat then true else if a = b then strLt as bs else false

end Sys2Proof
end

