-- ==== Sys2Proof/Machine/Params.lean ====
section
/-! DEFINITION. The parameters of 00_scope.md R6 whose value is SOURCE or DECIDED. They stand under Machine/ so that a
value a test shows wrong can be mended (log 6). -/

namespace Sys2Proof.Config

/-- `HDR[1..9]`, SOURCE (30_encoding.md R52). -/
def hdr : List Byte := [0xAA, 0x00, 0xE2, 0x00, 0x00, 0x00, 0x00, 0x00, 0x00]

/-- `CMD_CONTROL`, SOURCE. -/
def cmdControl : Byte := 0x02
/-- `CMD_QUERY`, SOURCE. -/
def cmdQuery : Byte := 0x03
/-- `CMD_ALT`, SOURCE (reports only). -/
def cmdAlt : Byte := 0x04
/-- `SUB_QUERY_STATUS`, SOURCE, placed by D7. -/
def subQueryStatus : Byte := 0x01
/-- `SUB_QUERY_APPT`, SOURCE, placed by D7. -/
def subQueryAppt : Byte := 0x02
/-- `QUERY_FLAG`, SOURCE, placed by D7. -/
def queryFlag : Byte := 0x01

/-- `SUB_APPT[i]`, SOURCE. -/
def subAppt (i : Fin 3) : Byte := BitVec.ofNat 8 (0x05 + i.val)

/-- PRESUMED by the spec, unsafe (log 6). `PWR_ON_BYTES`, DECIDED D8: bytes 11 and 12 of a power-on frame. -/
def pwrOnBytes : Byte × Byte := (0x01, 0x01)
/-- PRESUMED by the spec, unsafe (log 6). `PWR_OFF_BYTES`, DECIDED D8: bytes 11 and 12 of a power-off frame. -/
def pwrOffBytes : Byte × Byte := (0x02, 0x01)
/-- PRESUMED by the spec, unsafe (log 6). `SUB_FULL`, DECIDED D9. -/
def subFull : Byte := 0x04
/-- PRESUMED by the spec, unsafe (log 6). `SUB_PART`, DECIDED D9. -/
def subPart : Byte := 0x14

/-- `FB_MAX`, DECIDED D5. -/
def fbMax : Nat := 256

/-- `APPT_EN_OFF`, DECIDED D16. -/
def apptEnOff : Nat := 12
/-- `APPT_DATA_OFF`, SOURCE. -/
def apptDataOff : Nat := 13
/-- `APPT_MAX_FIELDS`, DECIDED D16. -/
def apptMaxFields : Nat := 8

/-- `DEC_APPT_EN[i]`, DECIDED D17. -/
def decApptEn (i : Fin 3) : Nat := 12 + 5 * i.val
/-- `DEC_APPT_DATA[i]`, DECIDED D17. -/
def decApptData (i : Fin 3) : Nat := 13 + 5 * i.val

/-- `MODE_DEFAULT`, DECIDED D21: absent, so the field `mode` is omitted when no mode flag is set (45_parser.md R174). -/
def modeDefault : Option Str := none

/-- `CLAMP_W`, DECIDED D25: the operand width of a hardware realisation of CLAMP. No rule of the operation reads it
(42_clamp.md R112; log 16). -/
def clampW : Nat := 16

end Sys2Proof.Config
end

