-- ==== Sys2Proof/Machine/ConfigRules.lean ====
section
/-! DEFINITION. The six conditions of a well-formed configuration (43_fieldmap.md R131), each a check of its own, the row
names that 44_assembler.md R144 and R147 exclude, and the spec's test configuration CFG_T (95_test_vectors.md section 0).
Readings of the conditions: log 18. -/

namespace Sys2Proof.Config

/-- `lo <= off <= hi`. -/
def within (lo hi off : Nat) : Bool := decide (lo ≤ off) && decide (off ≤ hi)

/-- No two elements are equal. -/
def distinct {α : Type} [DecidableEq α] (l : List α) : Bool := decide l.Nodup

/-- R131.1: the windows. -/
def windowsOk (c : Config) : Bool := within 14 255 c.fullHi && decide (12 ≤ c.partHi) && decide (c.partHi < c.fullHi)

/-- The offsets a `MODE` table entry names. -/
def modeEncOff : ModeEnc → Nat
  | .bit off _ => off
  | .byte off _ => off

/-- The offsets an `ENC_FULL` row names, both ends of every region among them. -/
def encOffsets : EncRow → List Nat
  | .bool _ off _ => [off]
  | .mode regions table => regions.flatMap (fun r => [r.1, r.2]) ++ table.map (fun e => modeEncOff e.2)
  | .heat halfOff _ wholeOff _ => [halfOff, wholeOff]
  | .numf _ off _ _ => [off]

/-- The offset a `DEC_STATUS` row names. -/
def decOffsets : DecRow → List Nat
  | .flag _ off _ _ _ _ _ => [off]
  | .enum _ off _ _ _ => [off]
  | .num _ off => [off]
  | .heatd => []

/-- R131.2: the offsets; R121: an `ENC_PART` entry writes something. -/
def offsetsOk (c : Config) : Bool :=
  c.encFull.all (fun r => (encOffsets r).all (within 12 c.fullHi))
    && c.encPart.all (fun e => !e.writes.isEmpty && e.writes.all (fun w => within 12 c.partHi w.1))
    && c.decStatus.all (fun r => (decOffsets r).all (within 12 255))

/-- `p` has no bit outside `mask`. -/
def insideMask (mask p : Byte) : Bool := p &&& ~~~mask == 0

/-- The masks an `ENC_FULL` row names. -/
def encMasks : EncRow → List Byte
  | .bool _ _ mask => [mask]
  | .mode _ table => table.filterMap fun e => match e.2 with | .bit _ mask => some mask | .byte _ _ => none
  | .heat _ halfMask _ wholeMask => [halfMask, wholeMask]
  | .numf _ _ _ _ => []

/-- A `DEC_STATUS` row's masks, matches and patterns (R131.3; R123 for distinct patterns). -/
def decMasksOk : DecRow → Bool
  | .flag _ _ mask pat _ _ _ => mask != 0 && insideMask mask pat
  | .enum _ _ mask patterns _ =>
    mask != 0 && patterns.all (fun p => insideMask mask p.1) && distinct (patterns.map (·.1))
  | .num _ _ => true
  | .heatd => true

/-- R131.3: the masks. -/
def masksOk (c : Config) : Bool :=
  c.encFull.all (fun r => (encMasks r).all (· != 0)) && c.decStatus.all decMasksOk

/-- `off` lies in one of the regions. -/
def inRegions (regions : List (Nat × Nat)) (off : Nat) : Bool := regions.any fun r => within r.1 r.2 off

/-- A row of kind `MODE`. -/
def isMode : EncRow → Bool
  | .mode _ _ => true
  | _ => false

/-- A row of kind `HEAT`. -/
def isHeat : EncRow → Bool
  | .heat _ _ _ _ => true
  | _ => false

/-- The `MODE` row of KE2 and KE3 (R127). -/
def knownMode : EncRow → Bool
  | .mode regions table =>
    inRegions regions 13 && inRegions regions 14 && table.lookup (ascii "summer") == some (.bit 13 0x04)
  | _ => false

/-- A `BOOL` row of the given name. -/
def isBool (name : Str) : EncRow → Bool
  | .bool n _ _ => n == name
  | _ => false

/-- A `NUMF` row of the given name and `clears_mode`. -/
def isNumf (name : Str) (clears : Bool) : EncRow → Bool
  | .numf n _ _ c => n == name && c == clears
  | _ => false

/-- The masks of one bit. -/
def singleBits : List Byte := [0x01, 0x02, 0x04, 0x08, 0x10, 0x20, 0x40, 0x80]

/-- The masks of three adjacent bits. -/
def threeBits : List Byte := [0x07, 0x0E, 0x1C, 0x38, 0x70, 0xE0]

/-- A `FLAG` row of the given name. DEDUCED, unsafe (log 18): for `half_heat` and `whole_heat` R130 asks for no mask, match
or texts. -/
def isFlag (name : Str) : DecRow → Bool
  | .flag n _ _ _ _ _ _ => n == name
  | _ => false

/-- A mode flag of KD2 (R129): a single-bit mask, the default match and texts of R122, its own name as `mode_name`. -/
def isModeFlag (name : Str) : DecRow → Bool
  | .flag n _ mask pat vSet vClr modeName =>
    n == name && singleBits.contains mask && pat == mask && vSet == ascii "on" && vClr == ascii "off"
      && modeName == some name
  | _ => false

/-- An `ENUM` row over three adjacent bits (R130). -/
def isBathPerson : DecRow → Bool
  | .enum _ _ mask _ _ => threeBits.contains mask
  | _ => false

/-- The twelve mode flags of R129 in the order the source lists them. -/
def modeFlagNames : List Str :=
  [ascii "eplus", ascii "fast_wash", ascii "summer", ascii "winter", ascii "efficient", ascii "night",
   ascii "sterilization", ascii "cloud", ascii "wash", ascii "shower", ascii "bath", ascii "memory"]

/-- The `NUMF` rows of R130 other than `temperature`. -/
def plainNumNames : List Str :=
  [ascii "wash_temperature", ascii "scene_id", ascii "grea", ascii "screen_light", ascii "morning_night_bash"]

/-- The `FLAG` rows `half_heat` and `whole_heat` stand before the one `HEATD` row (R125, R130; log 18). -/
def heatdOk (rows : List DecRow) : Bool :=
  rows.count .heatd == 1
    && (rows.takeWhile (· != .heatd)).any (isFlag (ascii "half_heat"))
    && (rows.takeWhile (· != .heatd)).any (isFlag (ascii "whole_heat"))

/-- R131.4: the rows of R126 to R130 are present. -/
def knownRowsOk (c : Config) : Bool :=
  c.encFull.contains (.bool (ascii "eplus") 13 0x01)
    && c.encFull.any knownMode
    && c.decStatus.contains (.flag (ascii "power") 13 0x01 0x01 (ascii "on") (ascii "off") none)
    && modeFlagNames.all (fun n => c.decStatus.any (isModeFlag n))
    && heatdOk c.decStatus
    && c.decStatus.any isBathPerson
    && c.encFull.any (isBool (ascii "half_heat")) && c.encFull.any (isBool (ascii "whole_heat"))
    && c.encFull.any isHeat
    && c.encFull.any (isNumf (ascii "temperature") true)
    && plainNumNames.all (fun n => c.encFull.any (isNumf n false))

/-- May `later` stand after `row`? A `BOOL` row in a `MODE` region may not stand after the `MODE` row, nor one of
`half_heat` and `whole_heat` after `HEAT` (R131.5). -/
def mayFollow (row later : EncRow) : Bool :=
  match row, later with
  | .mode regions _, .bool _ off _ => !inRegions regions off
  | .heat _ _ _ _, .bool name _ _ => name != ascii "half_heat" && name != ascii "whole_heat"
  | _, _ => true

/-- R131.5: the order of `ENC_FULL`. -/
def orderOk : List EncRow → Bool
  | [] => true
  | row :: rest => rest.all (mayFollow row) && orderOk rest

/-- The names of the `BOOL` rows. -/
def boolNames (rows : List EncRow) : List Str :=
  rows.filterMap fun r => match r with | .bool n _ _ => some n | _ => none

/-- The names of the `NUMF` rows. -/
def numfNames (rows : List EncRow) : List Str :=
  rows.filterMap fun r => match r with | .numf n _ _ _ => some n | _ => none

/-- The field names the `DEC_STATUS` rows write as their own. -/
def decNames (rows : List DecRow) : List Str :=
  rows.filterMap fun r =>
    match r with
    | .flag n _ _ _ _ _ _ => some n
    | .enum n _ _ _ _ => some n
    | .num n _ => some n
    | .heatd => none

/-- No mode name stands twice in a `MODE` table, which R118 calls a map (DEDUCED, log 18). -/
def modeNamesOk : EncRow → Bool
  | .mode _ table => distinct (table.map (·.1))
  | _ => true

/-- R131.6: names; at most one `MODE` and one `HEAT` row, and the `MODE` table a map (R118, R119; log 18). -/
def namesOk (c : Config) : Bool :=
  distinct (c.encPart.map (·.name))
    && distinct (boolNames c.encFull) && distinct (numfNames c.encFull)
    && decide (c.encFull.countP isMode ≤ 1) && decide (c.encFull.countP isHeat ≤ 1)
    && distinct (decNames c.decStatus)
    && !(decNames c.decStatus).contains (ascii "mode") && !(decNames c.decStatus).contains (ascii "heat")
    && c.encFull.all modeNamesOk

/-- The control fields that select a branch or an overlay and are not entries of `ENC_PART` (44_assembler.md R147). -/
def commandNames : List Str :=
  [ascii "power", ascii "control_type", ascii "appoint0", ascii "appoint1", ascii "appoint2"]

/-- `power` is not a row of `ENC_FULL` or `ENC_PART` (44_assembler.md R144), and `control_type` and the appointment names are
not entries of `ENC_PART` (R147). -/
def commandNamesOk (c : Config) : Bool :=
  !(boolNames c.encFull).contains (ascii "power") && !(numfNames c.encFull).contains (ascii "power")
    && c.encPart.all (fun e => !commandNames.contains e.name)

/-- A one-bit `FLAG` row with the defaults of R122. -/
def flagRow (name : Str) (off : Nat) (mask : Byte) (modeName : Option Str) : DecRow :=
  .flag name off mask mask (ascii "on") (ascii "off") modeName

/-- A mode flag: its own name is its `mode_name`. -/
def modeFlagRow (name : Str) (off : Nat) (mask : Byte) : DecRow := flagRow name off mask (some name)

/-- CFG_T, the spec's test configuration, made up there for testing (95_test_vectors.md section 0). No meaning uses
it: it shows that well-formed configurations exist, and the tests run on it. -/
def cfgT : Config where
  version := 99
  limitedSubtypes := [.num 2]
  partHi := 14
  fullHi := 27
  encFull :=
    [.bool (ascii "eplus") 13 0x01, .bool (ascii "half_heat") 15 0x01, .bool (ascii "whole_heat") 15 0x02,
     .mode [(13, 14)] [(ascii "summer", .bit 13 0x04), (ascii "eplus", .bit 13 0x01)],
     .heat 15 0x01 15 0x02,
     .numf (ascii "temperature") 16 true true,
     .numf (ascii "wash_temperature") 17 true false, .numf (ascii "scene_id") 18 true false,
     .numf (ascii "grea") 19 true false, .numf (ascii "screen_light") 20 true false,
     .numf (ascii "morning_night_bash") 21 true false]
  encPart :=
    [⟨ascii "temperature", [(12, .const 0x07), (13, .val)]⟩,
     ⟨ascii "sterilization", [(12, .const 0x08), (13, .sel 0x01 0x00)]⟩]
  decStatus :=
    [flagRow (ascii "power") 13 0x01 none,
     modeFlagRow (ascii "eplus") 14 0x01, modeFlagRow (ascii "fast_wash") 14 0x02, modeFlagRow (ascii "summer") 14 0x04,
     modeFlagRow (ascii "winter") 14 0x08, modeFlagRow (ascii "efficient") 14 0x10, modeFlagRow (ascii "night") 14 0x20,
     modeFlagRow (ascii "sterilization") 14 0x40, modeFlagRow (ascii "cloud") 14 0x80,
     modeFlagRow (ascii "wash") 15 0x01, modeFlagRow (ascii "shower") 15 0x02, modeFlagRow (ascii "bath") 15 0x04,
     modeFlagRow (ascii "memory") 15 0x08,
     flagRow (ascii "half_heat") 16 0x01 none, flagRow (ascii "whole_heat") 16 0x02 none, .heatd,
     .enum (ascii "bath_person") 13 0x0E [(0x02, ascii "1"), (0x04, ascii "2"), (0x06, ascii "3")] (ascii "off"),
     .num (ascii "temperature") 17]

end Sys2Proof.Config
end

