-- ==== Sys2Proof/Syntax.lean ====
section
/-! DEFINITION. The instructions: one constructor per row of spec/opcode_table.json. No row has an operand field:
operands are latches (10_state.md R12). -/

namespace Sys2Proof

/-- The three formats of the opcode table (30_encoding.md, opening). -/
inductive Format where
  /-- `OP`: the 4-bit operation select latch. -/
  | op
  /-- `F0-TX`: `CMD * 256 + SUB` of a frame ASSEMBLE emits. -/
  | f0tx
  /-- `F0-RX`: `CMD * 256 + SUB` of a frame PARSE reads. -/
  | f0rx
deriving DecidableEq, Repr

/-- The rows of the opcode table: ten operations, six reserved codes (30_encoding.md R50, R69), nine frame shapes sent
(R55 to R59) and ten frame shapes accepted (R60, R61). What a frame-shape row does as an instruction: log 4. -/
inductive Instr where
  | hex2bytes | bytes2hex | bytes2raw | raw2bytes
  | cksum | clamp | assemble | parse | encode | decode
  | reservedA | reservedB | reservedC | reservedD | reservedE | reservedF
  | txQueryStatus | txQueryAppoint | txPowerOn | txPowerOff | txFull | txPart
  | txAppoint0 | txAppoint1 | txAppoint2
  | rxStatus0201 | rxStatus0202 | rxStatus0204 | rxStatus0214 | rxStatus0301 | rxStatus0401
  | rxAppt0205 | rxAppt0206 | rxAppt0207 | rxAppt0302
deriving DecidableEq, Repr

end Sys2Proof
end

