-- ==== Sys2Proof/WellFormed.lean ====
section
/-! DEFINITION. Well-formed instructions and well-formed configurations (43_fieldmap.md R131). -/

namespace Sys2Proof

/-- Every instruction is well formed: no row of the table has an operand field that could be out of range. -/
def Instr.wellFormed (_ : Instr) : Bool := true

/-- A configuration is well-formed when all six conditions of 43_fieldmap.md R131 hold and no row bears a name that
44_assembler.md R144 and R147 keep for the branches (DEDUCED, log 18). -/
def Config.wellFormed (c : Config) : Bool :=
  c.windowsOk && c.offsetsOk && c.masksOk && c.knownRowsOk && Config.orderOk c.encFull && c.namesOk
    && c.commandNamesOk

/-- A configuration with the proof that it is well-formed: what a block may be built with (70_reset_and_hazards.md
R231). The default values only show that there is one. -/
structure ConfiguredBlock where
  cfg : Config := Config.cfgT
  ok : cfg.wellFormed = true := by decide
deriving Inhabited

/-- DESIGN CHOICE, safe (log 5). The configuration a block was built with: some well-formed one. It has no body: the
OPEN parameters have no value that a proof could use. -/
opaque Config.configured : ConfiguredBlock

end Sys2Proof
end

