-- ==== Sys2Proof/Machine/State.lean ====
section
/-! DEFINITION. The state of a block (10_state.md): frame buffer, operand latches, result latches, configuration; why a
step can stop; and the state after reset (R23). -/

namespace Sys2Proof.Machine

/-- Memory as (address, byte) pairs with addresses strictly rising. An address that is not listed has NO value
(10_state.md R11). -/
abbrev Memory := List Host.Cell

/-- The canonical form: addresses strictly rising. -/
abbrev Memory.wf (m : Memory) : Prop := m.Pairwise fun a b => a.1 < b.1

/-- The frame buffer: `FB` and the number `LEN` of its valid bytes (10_state.md R11). -/
structure FrameBuffer where
  cells : Memory
  len : Nat
deriving DecidableEq, Repr

/-- `FB[i]` has a value exactly for `1 <= i <= LEN`, and `LEN <= FB_MAX` (10_state.md R11). The cells then stand in
canonical form, their addresses being 1, 2, ..., LEN. -/
abbrev FrameBuffer.wf (fb : FrameBuffer) : Prop :=
  fb.cells.map Prod.fst = List.range' 1 fb.len ∧ fb.len ≤ Config.fbMax

/-- The query section of a request (10_state.md R13). -/
structure Query where
  queryType : Option Val
deriving DecidableEq, Repr

/-- The request record `RQ` (10_state.md R13); a part that is not present is `none`. DESIGN CHOICE, unsafe (log 26): a
control or status section may hold names outside the sets R13 gives; no operation reads such a field. -/
structure Request where
  query : Option Query
  control : Option Doc
  status : Option Doc
  deviceSubType : Option Val
deriving DecidableEq, Repr

/-- `RES`, the only status a host can test (10_state.md R16, R20; 60_exceptions.md R205). -/
inductive Res where
  | ok
  | null
deriving DecidableEq, Repr

/-- The machine. An operand or result latch is `none` when it has no value, which is a state the spec gives it
(10_state.md R16, R23; log 1). -/
structure State where
  /-- The read-only configuration (10_state.md R17). -/
  cfg : Config
  /-- `FB[1..FB_MAX]` and `LEN` (R11). -/
  fb : FrameBuffer
  /-- `OP` (R12). -/
  op : Option (BitVec 4)
  /-- `A_SEQ` (R12). -/
  aSeq : Option (List Byte)
  /-- `A_STR` (R12): no value, written as `ABSENT`, or written as a string (46_entry_points.md R198). -/
  aStr : Option (Option Str)
  /-- `A_FROM` (R12). -/
  aFrom : Option Int
  /-- `A_TO` (R12). -/
  aTo : Option Int
  /-- `A_VAL` (R12). -/
  aVal : Option Int
  /-- `A_VALID` (R12), 1 bit. -/
  aValid : Option Bool
  /-- `A_MIN` (R12). -/
  aMin : Option Int
  /-- `A_MAX` (R12). -/
  aMax : Option Int
  /-- `A_OK` (R12), 1 bit. -/
  aOk : Option Bool
  /-- `RQ` (R13). -/
  rq : Option Request
  /-- `RES` (R16). -/
  res : Option Res
  /-- `R_BYTE` (R16). -/
  rByte : Option Byte
  /-- `R_NUM` (R16). -/
  rNum : Option Int
  /-- `R_SEQ` (R16). -/
  rSeq : Option (List Byte)
  /-- `R_STR` (R16). -/
  rStr : Option Str
  /-- `SD` (R15, R16), a map listed in rising order of its names (log 20). -/
  sd : Option Doc
deriving DecidableEq, Repr

/-- Why the machine stops with a fault. The spec has no fault; these two are the model's, for frame-buffer accesses at
addresses that do not exist or hold no value. A well-formed configuration reaches neither (log 17). -/
inductive Fault where
  /-- Raised by the frame-buffer accesses at offset 0: addresses start at 1 (20_memory.md R30). Safe. -/
  | noSuchOffset
  /-- Raised by a frame-buffer read at an offset that holds no value (10_state.md R11; the precondition of FBOr and
  FBAndNot in 20_memory.md R33). Safe. -/
  | noValue
deriving DecidableEq, Repr

/-- Why an operation has no meaning on its inputs (60_exceptions.md R207). Every one is safe: nothing is claimed of
such an input. -/
inductive Refusal where
  /-- Raised by exec for an instruction without a meaning; none is left. Safe. -/
  | notModelled (mnemonic : String)
  /-- `UNWRITTEN_OPERAND`: an operand latch the operation uses has no value (10_state.md R23). Raised by step for `OP`
  and by every operation. Safe. -/
  | unwrittenOperand
  /-- `GAP` (20_memory.md R33). Raised by FBSet; no well-formed configuration reaches it. Safe. -/
  | gap
  /-- `OVERFLOW` (20_memory.md R33). Raised by FBSet; no well-formed configuration reaches it. Safe. -/
  | overflow
  /-- `RESERVED_OP` (30_encoding.md R69). Raised by the six reserved codes. Safe. -/
  | reservedOp
  /-- `NON_HEX_CHAR` (40_hex_byte.md R82). Raised by HEX2BYTES and DECODE. Safe. -/
  | nonHexChar
  /-- `CKSUM_RANGE` (41_checksum.md R103). Raised by CKSUM. Safe. -/
  | cksumRange
  /-- `NUM_RANGE` (44_assembler.md R152). Raised by ASSEMBLE, ENCODE and the frame shapes they emit. Safe. -/
  | numRange
  /-- `APPT_VALUE` (44_assembler.md R155). Raised by the appointment overlay. Safe. -/
  | apptValue
  /-- `APPT_FIELD` (44_assembler.md R155, 30_encoding.md R67). Raised by the appointment overlay. Safe. -/
  | apptField
  /-- `APPT_LONG` (44_assembler.md R155). Raised by the appointment overlay. Safe. -/
  | apptLong
  /-- `SEQ_LONG` (46_entry_points.md R200, 10_state.md R12). Raised by every reader of a sequence longer than FB_MAX.
  Safe. -/
  | seqLong
  /-- `BAD_CONFIG` (43_fieldmap.md R131). Raised by ASSEMBLE, PARSE, what is built on them and the frame shapes. Safe. -/
  | badConfig
deriving DecidableEq, Repr

/-- A stop inside an operation. -/
inductive Stop where
  | fault (f : Fault)
  | refusal (r : Refusal)
deriving DecidableEq, Repr

/-- The outcome of a step of this machine. -/
abbrev Outcome := Host.Outcome State Fault Refusal

/-- The state after reset: `LEN = 0`, no byte of `FB` and no latch has a value, `SD` is empty, the configuration holds its
configured constants (10_state.md R23, 70_reset_and_hazards.md R230). -/
def State.reset : State where
  cfg := Config.configured.cfg
  fb := { cells := [], len := 0 }
  op := none
  aSeq := none
  aStr := none
  aFrom := none
  aTo := none
  aVal := none
  aValid := none
  aMin := none
  aMax := none
  aOk := none
  rq := none
  res := none
  rByte := none
  rNum := none
  rSeq := none
  rStr := none
  sd := some []

end Sys2Proof.Machine
end

