-- ==== Sys2Proof/Machine/Ops.lean ====
section
/-! DEFINITION. The shared operations: memory and frame-buffer access (20_memory.md), maps of named fields (10_state.md
R13, R15), the checksum function (41_checksum.md R100) and the ways an operation completes (10_state.md R16,
60_exceptions.md R205). -/

namespace Sys2Proof.Machine

/-! ### Stops -/

/-- What a stop inside an operation makes of the step. -/
def Stop.outcome : Stop → Outcome
  | .fault f => .fault f
  | .refusal r => .refused r

/-- The outcome of an operation that either stops or gives a state. -/
def runOp (r : Except Stop State) : Outcome :=
  match r with
  | .ok s => .next s
  | .error e => e.outcome

/-- `refuse(<reason>)` (00_scope.md R8). -/
def refuse {α : Type} (r : Refusal) : Except Stop α := .error (.refusal r)

/-- A step of an operation that is taken only on a condition. -/
def applyIf (c : Bool) (g : FrameBuffer → Except Stop FrameBuffer) (fb : FrameBuffer) : Except Stop FrameBuffer :=
  if c then g fb else .ok fb

/-! ### Sequences and memory -/

/-- `MemReadOpt(S, off)` (20_memory.md R34): 1-based, absent outside the sequence, never a fault. -/
def memReadOpt (S : List Byte) (off : Nat) : Option Byte := if off = 0 then none else S[off - 1]?

/-- The byte at an address, if it has a value. -/
def Memory.read (m : Memory) (a : Nat) : Option Byte :=
  match m with
  | [] => none
  | c :: rest => if c.1 = a then some c.2 else Memory.read rest a

/-- Write one byte, keeping the addresses strictly rising. -/
def Memory.write (m : Memory) (a : Nat) (v : Byte) : Memory :=
  match m with
  | [] => [(a, v)]
  | c :: rest =>
    if c.1 = a then (a, v) :: rest
    else if a < c.1 then (a, v) :: c :: rest
    else c :: Memory.write rest a v

/-! ### The frame buffer -/

/-- `FB[off]`: a byte has a value only for `1 <= off <= LEN` (10_state.md R11). -/
def FrameBuffer.get (fb : FrameBuffer) (off : Nat) : Except Stop Byte :=
  if off = 0 then .error (.fault .noSuchOffset)
  else if fb.len < off then .error (.fault .noValue)
  else
    match fb.cells.read off with
    | some b => .ok b
    | none => .error (.fault .noValue)

/-- `FBSet(off, v)`, the only write primitive (20_memory.md R33). -/
def FrameBuffer.set (fb : FrameBuffer) (off : Nat) (v : Byte) : Except Stop FrameBuffer :=
  if off = 0 then .error (.fault .noSuchOffset)
  else if fb.len + 1 < off then refuse .gap
  else if Config.fbMax < off then refuse .overflow
  else .ok { cells := fb.cells.write off v, len := if off = fb.len + 1 then fb.len + 1 else fb.len }

/-- `FBOr(off, m)` (20_memory.md R33). -/
def FrameBuffer.or (fb : FrameBuffer) (off : Nat) (m : Byte) : Except Stop FrameBuffer :=
  match fb.get off with
  | .ok b => fb.set off (b ||| m)
  | .error e => .error e

/-- `FBAndNot(off, m)` (20_memory.md R33). -/
def FrameBuffer.andNot (fb : FrameBuffer) (off : Nat) (m : Byte) : Except Stop FrameBuffer :=
  match fb.get off with
  | .ok b => fb.set off (b &&& ~~~m)
  | .error e => .error e

/-- `FBSet` of consecutive bytes from an offset on. -/
def FrameBuffer.setRun (fb : FrameBuffer) (off : Nat) : List Byte → Except Stop FrameBuffer
  | [] => .ok fb
  | v :: rest =>
    match fb.set off v with
    | .ok fb' => fb'.setRun (off + 1) rest
    | .error e => .error e

/-- `FBClear(lo, hi)` (20_memory.md R33): `FBSet(off, 0)` for `off` in `lo..hi`. -/
def FrameBuffer.clear (fb : FrameBuffer) (lo hi : Nat) : Except Stop FrameBuffer :=
  fb.setRun lo (List.replicate (hi + 1 - lo) 0x00)

/-- `FB[1..LEN]` as a sequence (44_assembler.md R160). -/
def FrameBuffer.seq (fb : FrameBuffer) : List Byte := (List.range' 1 fb.len).filterMap fb.cells.read

/-- The frame buffer that holds exactly the bytes `F` at offsets 1, 2, ... -/
def FrameBuffer.ofSeq (F : List Byte) : FrameBuffer := { cells := (List.range' 1 F.length).zip F, len := F.length }

/-! ### The checksum -/

/-- The sum of `S[a..b]`, an unbounded natural number (41_checksum.md R100). -/
def sumRange (S : List Byte) (a b : Nat) : Nat := (((S.drop (a - 1)).take (b + 1 - a)).map BitVec.toNat).sum

/-- `cksum(S, a, b)` for a range inside the sequence: `(0 - sum) mod 256` (41_checksum.md R100). -/
def cksum (S : List Byte) (a b : Nat) : Byte := BitVec.ofInt 8 (0 - (sumRange S a b : Int))

/-! ### Maps of named fields -/

/-- The value of a field; `none` is `ABSENT`. -/
def docGet (d : Doc) (name : Str) : Option Val :=
  match d with
  | [] => none
  | e :: rest => if e.1 = name then some e.2 else docGet rest name

/-- `SD[name] <- v`, keeping the names in rising order (log 20). -/
def docSet (d : Doc) (name : Str) (v : Val) : Doc :=
  match d with
  | [] => [(name, v)]
  | e :: rest =>
    if e.1 = name then (name, v) :: rest
    else if strLt name e.1 then (name, v) :: e :: rest
    else e :: docSet rest name v

/-- The canonical form of a status document: names strictly rising. -/
abbrev docWf (d : Doc) : Prop := d.Pairwise fun a b => strLt a.1 b.1 = true

/-- `RQ.control[name]`: absent when the section or the field is missing (43_fieldmap.md R117). -/
def Request.controlField (rq : Request) (name : Str) : Option Val := docGet (rq.control.getD []) name

/-- `RQ.status[name]`: an absent section is the same as an empty one (44_assembler.md R162). -/
def Request.statusField (rq : Request) (name : Str) : Option Val := docGet (rq.status.getD []) name

/-! ### Completion -/

/-- An operation that starts ends the validity of every result latch (10_state.md R16; log 8). -/
def State.clearResults (s : State) : State :=
  { s with res := none, rByte := none, rNum := none, rSeq := none, rStr := none, sd := none }

/-- The one abnormal completion, `RES = NULL`: no other result latch has a value and nothing else changes
(60_exceptions.md R205, R209). No state is saved and nothing is vectored, so there is no return from it (R210). -/
def State.completeNull (s : State) : State := { s.clearResults with res := some .null }

/-- `R_BYTE <- b; RES <- OK`. -/
def State.completeByte (s : State) (b : Byte) : State := { s.clearResults with res := some .ok, rByte := some b }

/-- `R_NUM <- n; RES <- OK`. -/
def State.completeNum (s : State) (n : Int) : State := { s.clearResults with res := some .ok, rNum := some n }

/-- `R_SEQ <- S; RES <- OK`. -/
def State.completeSeq (s : State) (S : List Byte) : State := { s.clearResults with res := some .ok, rSeq := some S }

/-- `R_STR <- T; RES <- OK`. -/
def State.completeStr (s : State) (T : Str) : State := { s.clearResults with res := some .ok, rStr := some T }

/-- `SD <- d; RES <- OK`. -/
def State.completeDoc (s : State) (d : Doc) : State := { s.clearResults with res := some .ok, sd := some d }

end Sys2Proof.Machine
end

