-- ==== Sys2Proof/Machine/Operands.lean ====
section
/-! DEFINITION. Reading the operand latches (10_state.md R12). A latch that has no value has no meaning as an operand:
`refuse(UNWRITTEN_OPERAND)` (R23). -/

namespace Sys2Proof.Machine

/-- The value of an operand latch; one that the host has not written since reset is `refuse(UNWRITTEN_OPERAND)` (10_state.md
R23, 60_exceptions.md R207). -/
def operand {α : Type} (latch : Option α) : Except Stop α :=
  match latch with
  | some v => .ok v
  | none => refuse .unwrittenOperand

/-- A sequence the block reads has at most `FB_MAX` bytes (10_state.md R12, 46_entry_points.md R200; log 14). -/
def checkLength (S : List Byte) : Except Stop (List Byte) :=
  if Config.fbMax < S.length then refuse .seqLong else .ok S

/-- `A_SEQ` as an operand. -/
def State.readSeq (s : State) : Except Stop (List Byte) :=
  match operand s.aSeq with
  | .ok S => checkLength S
  | .error e => .error e

/-- `BAD_CONFIG`: the rules of ASSEMBLE and PARSE are for well-formed configurations only (43_fieldmap.md R131). -/
def checkConfig (cfg : Config) : Except Stop Unit := if cfg.wellFormed then .ok () else refuse .badConfig

/-- A numeric value that is copied into a frame byte must be 0 to 255 (44_assembler.md R152). -/
def numByte (n : Nat) : Except Stop Byte := if n ≤ 255 then .ok (BitVec.ofNat 8 n) else refuse .numRange

/-- `"appoint" ++ i`, the field name of an appointment slot (44_assembler.md R154, 45_parser.md R176). -/
def slotName (i : Fin 3) : Str := ascii "appoint" ++ [digitChar i.val]

end Sys2Proof.Machine
end

