-- ==== Sys2Proof/Machine/Checksum.lean ====
section
/-! DEFINITION. CKSUM (41_checksum.md). -/

namespace Sys2Proof.Machine

/-- The checksum over integer index operands: the empty range before the range check (41_checksum.md R100, R103;
60_exceptions.md R208). -/
def cksumIndexed (S : List Byte) (a b : Int) : Except Stop Byte :=
  if b < a then .ok 0x00
  else if a < 1 ∨ (S.length : Int) < b then refuse .cksumRange
  else .ok (cksum S a.toNat b.toNat)

/-- CKSUM (41_checksum.md R100). All three operands are read whatever the range (DEDUCED, log 12). DESIGN CHOICE, safe (log
21): an operand without a value is refused before a sequence that is too long. -/
def execCksum (s : State) : Outcome := runOp do
  let S ← operand s.aSeq
  let a ← operand s.aFrom
  let b ← operand s.aTo
  let S ← checkLength S
  let c ← cksumIndexed S a b
  return s.completeByte c

end Sys2Proof.Machine
end

