-- ==== Sys2Proof/Machine/Clamp.lean ====
section
/-! DEFINITION. CLAMP (42_clamp.md). -/

namespace Sys2Proof.Machine

/-- The clamp of a value that is present: the lower bound is tested first (42_clamp.md R110, R112). -/
def clampInto (v lo hi : Int) : Int := if v < lo then lo else if hi < v then hi else v

/-- The value CLAMP works on: 0 when the input is missing or invalid, in which case `A_VAL` is not read (42_clamp.md
R110, R111; log 12). -/
def State.clampValue (s : State) (valid : Bool) : Except Stop Int := if valid then operand s.aVal else .ok 0

/-- CLAMP (42_clamp.md R110). -/
def execClamp (s : State) : Outcome := runOp do
  let valid ← operand s.aValid
  let v ← s.clampValue valid
  let lo ← operand s.aMin
  let hi ← operand s.aMax
  return s.completeNum (clampInto v lo hi)

end Sys2Proof.Machine
end

