-- ==== Sys2Proof/Machine/Flags.lean ====
section
/-! DEFINITION. The tests on field values and bits. The block has no condition codes (10_state.md R20): its only status is
RES, set by the completions of Ops.lean. -/

namespace Sys2Proof.Machine

/-- `isOn(v)`: `TXT("on")` or `NUM(1)` (10_state.md R14). -/
def isOn (v : Option Val) : Bool := v == some (.txt (ascii "on")) || v == some (.num 1)

/-- `isOff(v)`: `TXT("off")` or `NUM(0)` (10_state.md R14). -/
def isOff (v : Option Val) : Bool := v == some (.txt (ascii "off")) || v == some (.num 0)

/-- The condition of a `BOOL` row: the explicit value decides, else the last known status (43_fieldmap.md R117). -/
def boolIsSet (c s : Option Val) : Bool := (c.isSome && isOn c) || (c.isNone && isOn s)

/-- The test of a `FLAG` row: `(b AND mask) = match` (43_fieldmap.md R122, 30_encoding.md R65). -/
def flagMatches (b mask pat : Byte) : Bool := b &&& mask == pat

/-- A sub-type written as text that is a decimal numeral is the number it denotes (44_assembler.md R146). -/
def subTypeKey : Val → Val
  | .num n => .num n
  | .txt t =>
    match numeral t with
    | some n => .num n
    | none => .txt t

/-- `Limited(d)` (44_assembler.md R146). -/
def limited (cfg : Config) (d : Option Val) : Bool :=
  match d with
  | none => false
  | some v => cfg.limitedSubtypes.any fun w => subTypeKey w == subTypeKey v

end Sys2Proof.Machine
end

