-- ==== Sys2Proof/Machine/FieldRows.lean ====
section
/-! DEFINITION. The execution of the field-table rows (43_fieldmap.md R117 to R125, 30_encoding.md R65). -/

namespace Sys2Proof.Machine

/-! ### ENC_FULL -/

/-- `for (lo, hi) in regions: FBClear(lo, hi)` (43_fieldmap.md R118). -/
def clearRegions (fb : FrameBuffer) : List (Nat × Nat) → Except Stop FrameBuffer
  | [] => .ok fb
  | r :: rest => do
    let fb ← fb.clear r.1 r.2
    clearRegions fb rest

/-- Set what a mode name stands for (43_fieldmap.md R118). -/
def setModeEnc (fb : FrameBuffer) : ModeEnc → Except Stop FrameBuffer
  | .bit off mask => fb.or off mask
  | .byte off value => fb.set off value

/-- Clear what a mode name stands for (43_fieldmap.md R120). -/
def clearModeEnc (fb : FrameBuffer) : ModeEnc → Except Stop FrameBuffer
  | .bit off mask => fb.andNot off mask
  | .byte off _ => fb.set off 0x00

/-- Clear every entry of a mode table. -/
def clearModeTable (fb : FrameBuffer) : List (Str × ModeEnc) → Except Stop FrameBuffer
  | [] => .ok fb
  | e :: rest => do
    let fb ← clearModeEnc fb e.2
    clearModeTable fb rest

/-- The table of the `MODE` row, empty when there is none. -/
def modeTable : List EncRow → List (Str × ModeEnc)
  | [] => []
  | .mode _ table :: _ => table
  | _ :: rest => modeTable rest

/-- `ModeSelClear()` (43_fieldmap.md R120). -/
def modeSelClear (rows : List EncRow) (fb : FrameBuffer) : Except Stop FrameBuffer := clearModeTable fb (modeTable rows)

/-- Row kind `MODE` once `control.mode` is present with value `m` (43_fieldmap.md R118). The table is a map: a well-formed
one lists no name twice (log 18), so `lookup` finds the one entry of the name. -/
def execModeRow (regions : List (Nat × Nat)) (table : List (Str × ModeEnc)) (m : Val) (fb : FrameBuffer) :
    Except Stop FrameBuffer := do
  let fb ← clearRegions fb regions
  match m with
  | .num _ => .ok fb
  | .txt name =>
    match table.lookup name with
    | some enc => setModeEnc fb enc
    | none => .ok fb

/-- Row kind `HEAT` once `control.heat` is present with value `h` (43_fieldmap.md R119). -/
def execHeatRow (halfOff : Nat) (halfMask : Byte) (wholeOff : Nat) (wholeMask : Byte) (h : Val) (fb : FrameBuffer) :
    Except Stop FrameBuffer := do
  let fb ← fb.andNot halfOff halfMask
  let fb ← fb.andNot wholeOff wholeMask
  let fb ← applyIf (h == .txt (ascii "half")) (·.or halfOff halfMask) fb
  applyIf (h == .txt (ascii "whole")) (·.or wholeOff wholeMask) fb

/-- `FBSet(off, n)` of a numeric field (43_fieldmap.md R120, R121; 44_assembler.md R152). -/
def setNum (fb : FrameBuffer) (off n : Nat) : Except Stop FrameBuffer := do
  let b ← numByte n
  fb.set off b

/-- Row kind `NUMF` on the control value `c` and the status value `st` (43_fieldmap.md R120). -/
def execNumfRow (rows : List EncRow) (off : Nat) (fallback clearsMode : Bool) (c st : Option Val) (fb : FrameBuffer) :
    Except Stop FrameBuffer :=
  match c, st with
  | some (.num n), _ => do
    let fb ← applyIf clearsMode (modeSelClear rows) fb
    setNum fb off n
  | some (.txt _), _ => .ok fb
  | none, some (.num n) => applyIf fallback (setNum · off n) fb
  | none, _ => .ok fb

/-- One row of `ENC_FULL` (43_fieldmap.md R117 to R120). `rows` is the whole table. -/
def execEncRow (rows : List EncRow) (rq : Request) (row : EncRow) (fb : FrameBuffer) : Except Stop FrameBuffer :=
  match row with
  | .bool name off mask =>
    applyIf (boolIsSet (rq.controlField name) (rq.statusField name)) (·.or off mask) fb
  | .mode regions table =>
    match rq.controlField (ascii "mode") with
    | some m => execModeRow regions table m fb
    | none => .ok fb
  | .heat halfOff halfMask wholeOff wholeMask =>
    match rq.controlField (ascii "heat") with
    | some h => execHeatRow halfOff halfMask wholeOff wholeMask h fb
    | none => .ok fb
  | .numf name off fallback clearsMode =>
    execNumfRow rows off fallback clearsMode (rq.controlField name) (rq.statusField name) fb

/-- The rows of `todo`, first to last (43_fieldmap.md R116). -/
def execEncRows (rows : List EncRow) (rq : Request) (todo : List EncRow) (fb : FrameBuffer) : Except Stop FrameBuffer :=
  match todo with
  | [] => .ok fb
  | row :: rest => do
    let fb ← execEncRow rows rq row fb
    execEncRows rows rq rest fb

/-! ### ENC_PART -/

/-- One write of an `ENC_PART` entry whose field has the value `v` (43_fieldmap.md R121). -/
def execPartWrite (v : Val) (off : Nat) (src : PartSrc) (fb : FrameBuffer) : Except Stop FrameBuffer :=
  match src with
  | .const b => fb.set off b
  | .val =>
    match v with
    | .num n => setNum fb off n
    | .txt _ => .ok fb
  | .sel bOn bOff => fb.set off (if isOn (some v) then bOn else bOff)

/-- All writes of an `ENC_PART` entry (43_fieldmap.md R121). -/
def execPartWrites (v : Val) (writes : List (Nat × PartSrc)) (fb : FrameBuffer) : Except Stop FrameBuffer :=
  match writes with
  | [] => .ok fb
  | w :: rest => do
    let fb ← execPartWrite v w.1 w.2 fb
    execPartWrites v rest fb

/-- At most the first entry whose field is present in the control section (43_fieldmap.md R116, 44_assembler.md R147). -/
def execPart (rq : Request) (entries : List PartEntry) (fb : FrameBuffer) : Except Stop FrameBuffer :=
  match entries with
  | [] => .ok fb
  | e :: rest =>
    match rq.controlField e.name with
    | some v => execPartWrites v e.writes fb
    | none => execPart rq rest fb

/-! ### DEC_STATUS -/

/-- Row kind `FLAG` on a byte that is present (43_fieldmap.md R122). -/
def execFlagRow (name : Str) (mask pat : Byte) (vSet vClr : Str) (modeName : Option Str) (b : Byte) (d : Doc) : Doc :=
  if flagMatches b mask pat then
    match modeName with
    | some m => docSet (docSet d name (.txt vSet)) (ascii "mode") (.txt m)
    | none => docSet d name (.txt vSet)
  else docSet d name (.txt vClr)

/-- The text of an `ENUM` row for a byte (43_fieldmap.md R123). -/
def enumText (mask : Byte) (patterns : List (Byte × Str)) (vFallback : Str) (b : Byte) : Str :=
  (patterns.lookup (b &&& mask)).getD vFallback

/-- The value of `heat` when both raw fields are present (43_fieldmap.md R125). `bothOn` is the free choice of U7
(log 10). -/
def heatText (bothOn : Bool) (h w : Val) : Str :=
  let on := Val.txt (ascii "on")
  if w = on ∧ h ≠ on then ascii "whole"
  else if h = on ∧ w ≠ on then ascii "half"
  else if h ≠ on ∧ w ≠ on then ascii "none"
  else if bothOn then ascii "whole" else ascii "half"

/-- Row kind `HEATD` (43_fieldmap.md R125). -/
def execHeatdRow (bothOn : Bool) (d : Doc) : Doc :=
  match docGet d (ascii "half_heat"), docGet d (ascii "whole_heat") with
  | some h, some w => docSet d (ascii "heat") (.txt (heatText bothOn h w))
  | _, _ => d

/-- One row of `DEC_STATUS` on the input `S` (43_fieldmap.md R122 to R125). A row whose byte is absent writes nothing
(45_parser.md R175). -/
def execDecRow (bothOn : Bool) (S : List Byte) (row : DecRow) (d : Doc) : Doc :=
  match row with
  | .flag name off mask pat vSet vClr modeName =>
    match memReadOpt S off with
    | some b => execFlagRow name mask pat vSet vClr modeName b d
    | none => d
  | .enum name off mask patterns vFallback =>
    match memReadOpt S off with
    | some b => docSet d name (.txt (enumText mask patterns vFallback b))
    | none => d
  | .num name off =>
    match memReadOpt S off with
    | some b => docSet d name (.num b.toNat)
    | none => d
  | .heatd => execHeatdRow bothOn d

/-- The rows of `DEC_STATUS`, first to last (43_fieldmap.md R116, 45_parser.md R173). -/
def execDecRows (bothOn : Bool) (S : List Byte) (rows : List DecRow) (d : Doc) : Doc :=
  match rows with
  | [] => d
  | row :: rest => execDecRows bothOn S rest (execDecRow bothOn S row d)

end Sys2Proof.Machine
end

