-- ==== Sys2Proof/Machine/Assembler.lean ====
section
/-! DEFINITION. ASSEMBLE (44_assembler.md) and the frame shapes it emits (30_encoding.md R55 to R59). -/

namespace Sys2Proof.Machine

/-! ### Start and the final step -/

/-- `LEN <- 0`, then the nine header bytes (44_assembler.md R140). -/
def startFrame : Except Stop FrameBuffer := FrameBuffer.setRun { cells := [], len := 0 } 1 Config.hdr

/-- Length byte, then checksum (44_assembler.md R160, 30_encoding.md R53, R54). -/
def finalizeFrame (fb : FrameBuffer) : Except Stop FrameBuffer := do
  let fb' ← fb.set 2 (BitVec.ofNat 8 fb.len)
  fb'.set (fb.len + 1) (cksum fb'.seq 2 fb.len)

/-- A frame: start, one branch, final step. -/
def buildFrame (branch : FrameBuffer → Except Stop FrameBuffer) : Except Stop FrameBuffer := do
  let fb ← startFrame
  let fb ← branch fb
  finalizeFrame fb

/-! ### The branches -/

/-- The query branch with its subtype byte (44_assembler.md R142, 30_encoding.md R55). -/
def queryBody (sub : Byte) (fb : FrameBuffer) : Except Stop FrameBuffer :=
  fb.setRun 10 [Config.cmdQuery, sub, Config.queryFlag]

/-- The subtype byte of a query (44_assembler.md R142). -/
def querySub (q : Query) : Byte :=
  if q.queryType = some (.txt (ascii "appoint_query")) then Config.subQueryAppt else Config.subQueryStatus

/-- The power branch with its two bytes (44_assembler.md R144). -/
def powerBody (bytes : Byte × Byte) (fb : FrameBuffer) : Except Stop FrameBuffer := fb.setRun 11 [bytes.1, bytes.2]

/-- The part branch (44_assembler.md R147). -/
def partBody (cfg : Config) (rq : Request) (fb : FrameBuffer) : Except Stop FrameBuffer := do
  let fb ← fb.set 11 Config.subPart
  let fb ← fb.clear 12 cfg.partHi
  execPart rq cfg.encPart fb

/-- The full branch (44_assembler.md R148). -/
def fullBody (cfg : Config) (rq : Request) (fb : FrameBuffer) : Except Stop FrameBuffer := do
  let fb ← fb.set 11 Config.subFull
  let fb ← fb.clear 12 cfg.fullHi
  execEncRows cfg.encFull rq cfg.encFull fb

/-- Is the part branch taken, the power test having failed (44_assembler.md R143, R146)? -/
def takesPart (cfg : Config) (rq : Request) : Bool :=
  rq.controlField (ascii "control_type") == some (.txt (ascii "part")) || limited cfg rq.deviceSubType

/-- Exactly one of power, part, full (44_assembler.md R143). -/
def baseBody (cfg : Config) (rq : Request) (fb : FrameBuffer) : Except Stop FrameBuffer :=
  let p := rq.controlField (ascii "power")
  if isOn p then powerBody Config.pwrOnBytes fb
  else if isOff p then powerBody Config.pwrOffBytes fb
  else if takesPart cfg rq then partBody cfg rq fb
  else fullBody cfg rq fb

/-! ### The appointment overlay -/

/-- A field after the first: a decimal numeral of value 0 to 255 (30_encoding.md R67, 44_assembler.md R155). -/
def apptByte (f : Str) : Except Stop Byte :=
  match numeral f with
  | some n => if n ≤ 255 then .ok (BitVec.ofNat 8 n) else refuse .apptField
  | none => refuse .apptField

/-- The fields after the first. -/
def apptBytes : List Str → Except Stop (List Byte)
  | [] => .ok []
  | f :: rest => do
    let b ← apptByte f
    let bs ← apptBytes rest
    return b :: bs

/-- The enable byte of the first field (44_assembler.md R155, 30_encoding.md R66). -/
def apptEnable (f : Option Str) : Byte := if f = some (ascii "1") then 0xFF else 0x00

/-- The enable byte and the data bytes of an appointment value (44_assembler.md R155). -/
def apptParse (v : Option Val) : Except Stop (Byte × List Byte) :=
  match v with
  | some (.txt t) => do
    let fields := splitComma t
    let ds ← apptBytes fields.tail
    if Config.apptMaxFields < ds.length then refuse .apptLong else return (apptEnable fields.head?, ds)
  | _ => refuse .apptValue

/-- `ApptOverlay(i)` (44_assembler.md R154, R156). -/
def apptOverlay (rq : Request) (i : Fin 3) (fb : FrameBuffer) : Except Stop FrameBuffer := do
  let p ← apptParse (rq.controlField (slotName i))
  let fb ← fb.set 11 (Config.subAppt i)
  let fb ← fb.set Config.apptEnOff p.1
  fb.setRun Config.apptDataOff p.2

/-- The overlay of a slot whose field is present (44_assembler.md R143). -/
def apptIfPresent (rq : Request) (i : Fin 3) (fb : FrameBuffer) : Except Stop FrameBuffer :=
  applyIf (rq.controlField (slotName i)).isSome (apptOverlay rq i) fb

/-- `for i in 0, 1, 2` (44_assembler.md R143, R154). -/
def apptOverlays (rq : Request) (fb : FrameBuffer) : Except Stop FrameBuffer := do
  let fb ← apptIfPresent rq 0 fb
  let fb ← apptIfPresent rq 1 fb
  apptIfPresent rq 2 fb

/-! ### The operation -/

/-- The control branch (44_assembler.md R143). -/
def controlBody (cfg : Config) (rq : Request) (fb : FrameBuffer) : Except Stop FrameBuffer := do
  let fb ← fb.set 10 Config.cmdControl
  let fb ← baseBody cfg rq fb
  apptOverlays rq fb

/-- The frame of a request; `none` is no frame (44_assembler.md R141, R158). -/
def assembleFrame (cfg : Config) (rq : Request) : Except Stop (Option FrameBuffer) :=
  match rq.query, rq.control with
  | some q, _ => do
    let fb ← buildFrame (queryBody (querySub q))
    return some fb
  | none, some _ => do
    let fb ← buildFrame (controlBody cfg rq)
    return some fb
  | none, none => .ok none

/-- `R_SEQ <- FB[1..LEN]; RES <- OK` (44_assembler.md R160). -/
def State.completeFrame (s : State) (fb : FrameBuffer) : State := { s.completeSeq fb.seq with fb := fb }

/-- ASSEMBLE (44_assembler.md R140 to R162). A request with neither section gives `RES = NULL` (R158; log 7). -/
def execAssemble (s : State) : Outcome := runOp do
  let rq ← operand s.rq
  checkConfig s.cfg
  let frame ← assembleFrame s.cfg rq
  match frame with
  | some fb => return s.completeFrame fb
  | none => return s.completeNull

/-! ### The frame shapes emitted, as instructions (log 4) -/

/-- Emit the frame of one shape. -/
def emitFrame (s : State) (branch : FrameBuffer → Except Stop FrameBuffer) : Outcome := runOp do
  checkConfig s.cfg
  let fb ← buildFrame branch
  return s.completeFrame fb

/-- The start of every control frame: the command byte (44_assembler.md R143). -/
def controlThen (body : FrameBuffer → Except Stop FrameBuffer) (fb : FrameBuffer) : Except Stop FrameBuffer := do
  let fb ← fb.set 10 Config.cmdControl
  body fb

/-- Emit a control frame whose body reads the request. -/
def emitControl (s : State) (body : Config → Request → FrameBuffer → Except Stop FrameBuffer) : Outcome :=
  match operand s.rq with
  | .ok rq => emitFrame s (controlThen (body s.cfg rq))
  | .error e => e.outcome

/-- The body of an appointment frame of slot `i`: the underlying shape, the earlier overlays that are present, then the
overlay of the slot (44_assembler.md R143, R154 to R157). -/
def apptBody (i : Fin 3) (cfg : Config) (rq : Request) (fb : FrameBuffer) : Except Stop FrameBuffer := do
  let fb ← baseBody cfg rq fb
  let fb ← applyIf (decide (0 < i.val)) (apptIfPresent rq 0) fb
  let fb ← applyIf (decide (1 < i.val)) (apptIfPresent rq 1) fb
  apptOverlay rq i fb

/-- TX_QUERY_STATUS (44_assembler.md R142). -/
def execTxQueryStatus (s : State) : Outcome := emitFrame s (queryBody Config.subQueryStatus)

/-- TX_QUERY_APPOINT (44_assembler.md R142). -/
def execTxQueryAppoint (s : State) : Outcome := emitFrame s (queryBody Config.subQueryAppt)

/-- TX_POWER_ON (44_assembler.md R144). -/
def execTxPowerOn (s : State) : Outcome := emitFrame s (controlThen (powerBody Config.pwrOnBytes))

/-- TX_POWER_OFF (44_assembler.md R144). -/
def execTxPowerOff (s : State) : Outcome := emitFrame s (controlThen (powerBody Config.pwrOffBytes))

/-- TX_FULL (44_assembler.md R148). -/
def execTxFull (s : State) : Outcome := emitControl s fullBody

/-- TX_PART (44_assembler.md R147). -/
def execTxPart (s : State) : Outcome := emitControl s partBody

/-- TX_APPOINT0 (44_assembler.md R156). -/
def execTxAppoint0 (s : State) : Outcome := emitControl s (apptBody 0)

/-- TX_APPOINT1 (44_assembler.md R156). -/
def execTxAppoint1 (s : State) : Outcome := emitControl s (apptBody 1)

/-- TX_APPOINT2 (44_assembler.md R156). -/
def execTxAppoint2 (s : State) : Outcome := emitControl s (apptBody 2)

/-- The frame shape a request selects: query before control, the last present appointment slot before the underlying
shape (44_assembler.md R141, R143, R154); `none` when ASSEMBLE emits no frame (R158). -/
def shapeSelected (cfg : Config) (rq : Request) : Option Instr :=
  match rq.query, rq.control with
  | some q, _ => some (if q.queryType = some (.txt (ascii "appoint_query")) then .txQueryAppoint else .txQueryStatus)
  | none, none => none
  | none, some _ =>
    let p := rq.controlField (ascii "power")
    if (rq.controlField (slotName 2)).isSome then some .txAppoint2
    else if (rq.controlField (slotName 1)).isSome then some .txAppoint1
    else if (rq.controlField (slotName 0)).isSome then some .txAppoint0
    else if isOn p then some .txPowerOn
    else if isOff p then some .txPowerOff
    else if takesPart cfg rq then some .txPart
    else some .txFull

end Sys2Proof.Machine
end

