-- ==== Sys2Proof/Machine/HexByte.lean ====
section
/-! DEFINITION. HEX2BYTES, BYTES2HEX, BYTES2RAW and RAW2BYTES (40_hex_byte.md). -/

namespace Sys2Proof.Machine

/-- The bytes of a hex string (40_hex_byte.md R80). A last character without a partner is dropped unexamined (R81). -/
def hexToBytes : Str → Except Stop (List Byte)
  | hi :: lo :: rest =>
    match hexVal hi, hexVal lo with
    | some h, some l => do
      let tail ← hexToBytes rest
      return BitVec.ofNat 8 (16 * h + l) :: tail
    | _, _ => refuse .nonHexChar
  | _ => .ok []

/-- The two hex digits of a byte, high nibble first (40_hex_byte.md R84). -/
def byteToHex (b : Byte) : Str := [hexDig (b >>> 4).toNat, hexDig (b &&& 0x0F).toNat]

/-- The hex string of a byte sequence (40_hex_byte.md R84). -/
def bytesToHexString (S : List Byte) : Str := S.flatMap byteToHex

/-- A byte sequence as a raw string, one character per byte (40_hex_byte.md R87). -/
def bytesToRawString (S : List Byte) : Str := S

/-- A raw string as a byte sequence (40_hex_byte.md R88). -/
def rawStringToBytes (T : Str) : List Byte := T

/-- HEX2BYTES of a written `A_STR`. DESIGN CHOICE, unsafe (log 13): on `ABSENT`, for which the spec states no result, it
completes with a free value. -/
def hexOperandBytes (cfg : Config) (a : Option Str) : Except Stop (List Byte) :=
  match a with
  | some T => hexToBytes T
  | none => .ok cfg.freeHexBytes

/-- RAW2BYTES of a written `A_STR`. DESIGN CHOICE, unsafe (log 13): on `ABSENT`, for which the spec states no result, it
completes with a free value. -/
def rawOperandBytes (cfg : Config) (a : Option Str) : List Byte :=
  match a with
  | some T => rawStringToBytes T
  | none => cfg.freeRawBytes

/-- HEX2BYTES (40_hex_byte.md R80 to R83). -/
def execHex2bytes (s : State) : Outcome := runOp do
  let a ← operand s.aStr
  let S ← hexOperandBytes s.cfg a
  return s.completeSeq S

/-- BYTES2HEX (40_hex_byte.md R84). -/
def execBytes2hex (s : State) : Outcome := runOp do
  let S ← s.readSeq
  return s.completeStr (bytesToHexString S)

/-- BYTES2RAW (40_hex_byte.md R87). -/
def execBytes2raw (s : State) : Outcome := runOp do
  let S ← s.readSeq
  return s.completeStr (bytesToRawString S)

/-- RAW2BYTES (40_hex_byte.md R88). -/
def execRaw2bytes (s : State) : Outcome := runOp do
  let a ← operand s.aStr
  return s.completeSeq (rawOperandBytes s.cfg a)

end Sys2Proof.Machine
end

