-- ==== Sys2Proof/Machine/Parser.lean ====
section
/-! DEFINITION. PARSE (45_parser.md) and the frame shapes it accepts (30_encoding.md R60, R61). -/

namespace Sys2Proof.Machine

/-- The shapes PARSE tells apart (45_parser.md R171). -/
inductive ReportShape where
  | status
  | appointment
  | unknown
deriving DecidableEq, Repr

/-- `SD <- {version}` (45_parser.md R170). -/
def startDoc (cfg : Config) : Doc := docSet [] (ascii "version") (.num cfg.version)

/-- The pairs of the status-report shape (45_parser.md R171, 30_encoding.md R60). -/
def statusPairs : List (Byte × Byte) :=
  [(0x02, 0x01), (0x02, 0x02), (0x02, 0x04), (0x02, 0x14), (0x03, 0x01), (0x04, 0x01)]

/-- The pairs of the appointment-report shape (45_parser.md R171, 30_encoding.md R61). -/
def apptPairs : List (Byte × Byte) := [(0x02, 0x05), (0x02, 0x06), (0x02, 0x07), (0x03, 0x02)]

/-- The dispatch on (`S[10]`, `S[11]`) (45_parser.md R171, R172). -/
def reportShape (S : List Byte) : ReportShape :=
  match memReadOpt S 10, memReadOpt S 11 with
  | some c, some s =>
    if statusPairs.contains (c, s) then .status else if apptPairs.contains (c, s) then .appointment else .unknown
  | _, _ => .unknown

/-- `mode` keeps `MODE_DEFAULT` unless a mode flag is set (45_parser.md R174). -/
def withModeDefault (d : Doc) : Doc :=
  match Config.modeDefault with
  | some m => docSet d (ascii "mode") (.txt m)
  | none => d

/-- What PARSE reads of its input: the bytes from offset 10 on (45_parser.md R180). The free choices may depend on these
bytes only. -/
def readPart (S : List Byte) : List Byte := S.drop 9

/-- The status-report shape (45_parser.md R173). DEDUCED, unsafe (log 27): a row at offset 12 is decoded when the input has 12
bytes, as R175 says; R183 says that such an input gives `version` only. -/
def parseStatus (cfg : Config) (S : List Byte) : Doc :=
  execDecRows (cfg.freeHeat (readPart S)) S cfg.decStatus (withModeDefault (startDoc cfg))

/-- `EN(e)` (45_parser.md R177); `free` is the free choice of U10 (log 11). -/
def enableText (free : Bool) (e : Byte) : Str :=
  if e = 0xFF then ascii "1" else if e = 0x00 then ascii "0" else if free then ascii "1" else ascii "0"

/-- The text of a schedule record (45_parser.md R176). -/
def recordText (free : Bool) (e b1 b2 b3 b4 : Byte) : Str :=
  enableText free e ++ [comma] ++ decText b1 ++ [comma] ++ decText b2 ++ [comma] ++ decText b3 ++ [comma] ++ decText b4

/-- One schedule record: omitted whole when any of its five bytes is absent (45_parser.md R176, R178). -/
def parseRecord (cfg : Config) (S : List Byte) (i : Fin 3) (d : Doc) : Doc :=
  let at_ := Config.decApptData i
  match memReadOpt S (Config.decApptEn i), memReadOpt S at_, memReadOpt S (at_ + 1), memReadOpt S (at_ + 2),
    memReadOpt S (at_ + 3) with
  | some e, some b1, some b2, some b3, some b4 =>
    docSet d (slotName i) (.txt (recordText (cfg.freeEnable (readPart S) i) e b1 b2 b3 b4))
  | _, _, _, _, _ => d

/-- The appointment-report shape (45_parser.md R176). -/
def parseAppointments (cfg : Config) (S : List Byte) : Doc :=
  parseRecord cfg S 2 (parseRecord cfg S 1 (parseRecord cfg S 0 (startDoc cfg)))

/-- The status document of an input read in a shape (45_parser.md R170 to R178). -/
def parseAs (shape : ReportShape) (cfg : Config) (S : List Byte) : Doc :=
  match shape with
  | .status => parseStatus cfg S
  | .appointment => parseAppointments cfg S
  | .unknown => startDoc cfg

/-- The status document of an input (45_parser.md R171). -/
def parseFrame (cfg : Config) (S : List Byte) : Doc := parseAs (reportShape S) cfg S

/-- Read `A_SEQ` as a frame, with `SD` the document `parse` makes of it. -/
def extract (s : State) (parse : Config → List Byte → Doc) : Outcome := runOp do
  let S ← s.readSeq
  checkConfig s.cfg
  return s.completeDoc (parse s.cfg S)

/-- PARSE (45_parser.md R170 to R184). -/
def execParse (s : State) : Outcome := extract s parseFrame

/-! ### The frame shapes accepted, as instructions (log 4) -/

/-- RX_STATUS_0201 (45_parser.md R173). -/
def execRxStatus0201 (s : State) : Outcome := extract s (parseAs .status)

/-- RX_STATUS_0202 (45_parser.md R173). -/
def execRxStatus0202 (s : State) : Outcome := extract s (parseAs .status)

/-- RX_STATUS_0204 (45_parser.md R173). -/
def execRxStatus0204 (s : State) : Outcome := extract s (parseAs .status)

/-- RX_STATUS_0214 (45_parser.md R173). -/
def execRxStatus0214 (s : State) : Outcome := extract s (parseAs .status)

/-- RX_STATUS_0301 (45_parser.md R173). -/
def execRxStatus0301 (s : State) : Outcome := extract s (parseAs .status)

/-- RX_STATUS_0401 (45_parser.md R173). -/
def execRxStatus0401 (s : State) : Outcome := extract s (parseAs .status)

/-- RX_APPT_0205 (45_parser.md R176). -/
def execRxAppt0205 (s : State) : Outcome := extract s (parseAs .appointment)

/-- RX_APPT_0206 (45_parser.md R176). -/
def execRxAppt0206 (s : State) : Outcome := extract s (parseAs .appointment)

/-- RX_APPT_0207 (45_parser.md R176). -/
def execRxAppt0207 (s : State) : Outcome := extract s (parseAs .appointment)

/-- RX_APPT_0302 (45_parser.md R176). -/
def execRxAppt0302 (s : State) : Outcome := extract s (parseAs .appointment)

end Sys2Proof.Machine
end

