-- ==== Sys2Proof/Machine/EntryPoints.lean ====
section
/-! DEFINITION. ENCODE and DECODE (46_entry_points.md). -/

namespace Sys2Proof.Machine

/-- The hex string of a frame, through the raw staging string (46_entry_points.md R195, 30_encoding.md R71). -/
def transportText (F : List Byte) : Str := bytesToHexString (rawStringToBytes (bytesToRawString F))

/-- `R_STR` is the result of ENCODE; the frame buffer holds the frame (46_entry_points.md R195; log 8). -/
def State.completeEncoded (s : State) (fb : FrameBuffer) : State := { s.completeStr (transportText fb.seq) with fb := fb }

/-- ENCODE once `A_OK = 1`: ASSEMBLE, then the transport encoding (46_entry_points.md R195, R197). -/
def encodeRequest (s : State) : Except Stop State := do
  let rq ← operand s.rq
  checkConfig s.cfg
  let frame ← assembleFrame s.cfg rq
  match frame with
  | some fb => return s.completeEncoded fb
  | none => return s.completeNull

/-- ENCODE (46_entry_points.md R195, R196): `A_OK = 0` decides before `RQ` is looked at (60_exceptions.md R208). -/
def execEncode (s : State) : Outcome := runOp do
  let ok ← operand s.aOk
  if ok then encodeRequest s else return s.completeNull

/-- DECODE once `A_OK = 1`: an absent `msg.data` is `NULL`, else HEX2BYTES, then PARSE (46_entry_points.md R198 to R200). -/
def decodeReport (s : State) : Except Stop State := do
  let data ← operand s.aStr
  match data with
  | none => return s.completeNull
  | some T =>
    let S ← hexToBytes T
    let S ← checkLength S
    checkConfig s.cfg
    return s.completeDoc (parseFrame s.cfg S)

/-- DECODE (46_entry_points.md R198, R199). -/
def execDecode (s : State) : Outcome := runOp do
  let ok ← operand s.aOk
  if ok then decodeReport s else return s.completeNull

end Sys2Proof.Machine
end

