-- ==== Sys2Proof/Machine/Reserved.lean ====
section
/-! DEFINITION. The reserved OP codes select no operation: `refuse(RESERVED_OP)` (30_encoding.md R69). -/

namespace Sys2Proof.Machine

/-- `refuse(RESERVED_OP)` (30_encoding.md R69). -/
def reservedCode (_ : State) : Outcome := .refused .reservedOp

/-- RESERVED_A, code `0xA` (30_encoding.md R69). -/
def execReservedA (s : State) : Outcome := reservedCode s
/-- RESERVED_B, code `0xB` (30_encoding.md R69). -/
def execReservedB (s : State) : Outcome := reservedCode s
/-- RESERVED_C, code `0xC` (30_encoding.md R69). -/
def execReservedC (s : State) : Outcome := reservedCode s
/-- RESERVED_D, code `0xD` (30_encoding.md R69). -/
def execReservedD (s : State) : Outcome := reservedCode s
/-- RESERVED_E, code `0xE` (30_encoding.md R69). -/
def execReservedE (s : State) : Outcome := reservedCode s
/-- RESERVED_F, code `0xF` (30_encoding.md R69). -/
def execReservedF (s : State) : Outcome := reservedCode s

end Sys2Proof.Machine
end

