-- ==== Sys2Proof/Machine/Dispatch.lean ====
section
/-! DEFINITION. One arm per instruction, each one call of its meaning. -/

namespace Sys2Proof.Machine

def exec (i : Instr) (s : State) : Host.Outcome State Fault Refusal :=
  match i with
  | .hex2bytes => Sys2Proof.Machine.execHex2bytes s
  | .bytes2hex => Sys2Proof.Machine.execBytes2hex s
  | .bytes2raw => Sys2Proof.Machine.execBytes2raw s
  | .raw2bytes => Sys2Proof.Machine.execRaw2bytes s
  | .cksum => Sys2Proof.Machine.execCksum s
  | .clamp => Sys2Proof.Machine.execClamp s
  | .assemble => Sys2Proof.Machine.execAssemble s
  | .parse => Sys2Proof.Machine.execParse s
  | .encode => Sys2Proof.Machine.execEncode s
  | .decode => Sys2Proof.Machine.execDecode s
  | .reservedA => Sys2Proof.Machine.execReservedA s
  | .reservedB => Sys2Proof.Machine.execReservedB s
  | .reservedC => Sys2Proof.Machine.execReservedC s
  | .reservedD => Sys2Proof.Machine.execReservedD s
  | .reservedE => Sys2Proof.Machine.execReservedE s
  | .reservedF => Sys2Proof.Machine.execReservedF s
  | .txQueryStatus => Sys2Proof.Machine.execTxQueryStatus s
  | .txQueryAppoint => Sys2Proof.Machine.execTxQueryAppoint s
  | .txPowerOn => Sys2Proof.Machine.execTxPowerOn s
  | .txPowerOff => Sys2Proof.Machine.execTxPowerOff s
  | .txFull => Sys2Proof.Machine.execTxFull s
  | .txPart => Sys2Proof.Machine.execTxPart s
  | .txAppoint0 => Sys2Proof.Machine.execTxAppoint0 s
  | .txAppoint1 => Sys2Proof.Machine.execTxAppoint1 s
  | .txAppoint2 => Sys2Proof.Machine.execTxAppoint2 s
  | .rxStatus0201 => Sys2Proof.Machine.execRxStatus0201 s
  | .rxStatus0202 => Sys2Proof.Machine.execRxStatus0202 s
  | .rxStatus0204 => Sys2Proof.Machine.execRxStatus0204 s
  | .rxStatus0214 => Sys2Proof.Machine.execRxStatus0214 s
  | .rxStatus0301 => Sys2Proof.Machine.execRxStatus0301 s
  | .rxStatus0401 => Sys2Proof.Machine.execRxStatus0401 s
  | .rxAppt0205 => Sys2Proof.Machine.execRxAppt0205 s
  | .rxAppt0206 => Sys2Proof.Machine.execRxAppt0206 s
  | .rxAppt0207 => Sys2Proof.Machine.execRxAppt0207 s
  | .rxAppt0302 => Sys2Proof.Machine.execRxAppt0302 s

end Sys2Proof.Machine
end

