-- ==== Sys2Proof/Decode.lean ====
section
/-! DEFINITION. The decoder of the opcode table's three formats (30_encoding.md, opening; R50, R55 to R62, R69), and after
it the encoder. -/

namespace Sys2Proof

/-- Why a word decodes to no instruction. -/
inductive Reject where
  /-- An `F0-RX` word that is none of the ten pairs of R60 and R61 (30_encoding.md R62). -/
  | noShapeAccepted
  /-- An `F0-TX` word that ASSEMBLE emits in no shape (R55 to R59). -/
  | noShapeEmitted
deriving DecidableEq, Repr

/-- The operation or reserved row an `OP` code selects (30_encoding.md R50, R69): total on the 4 bits. -/
def decodeOp (op : BitVec 4) : Instr :=
  match op.toNat with
  | 0x0 => .hex2bytes
  | 0x1 => .bytes2hex
  | 0x2 => .bytes2raw
  | 0x3 => .raw2bytes
  | 0x4 => .cksum
  | 0x5 => .clamp
  | 0x6 => .assemble
  | 0x7 => .parse
  | 0x8 => .encode
  | 0x9 => .decode
  | 0xA => .reservedA
  | 0xB => .reservedB
  | 0xC => .reservedC
  | 0xD => .reservedD
  | 0xE => .reservedE
  | _ => .reservedF

/-- The accepted frame shape of a (command byte, subtype byte) pair (30_encoding.md R60, R61, R62). -/
def decodeRx (cmd sub : Byte) : Except Reject Instr :=
  match cmd.toNat, sub.toNat with
  | 0x02, 0x01 => .ok .rxStatus0201
  | 0x02, 0x02 => .ok .rxStatus0202
  | 0x02, 0x04 => .ok .rxStatus0204
  | 0x02, 0x14 => .ok .rxStatus0214
  | 0x03, 0x01 => .ok .rxStatus0301
  | 0x04, 0x01 => .ok .rxStatus0401
  | 0x02, 0x05 => .ok .rxAppt0205
  | 0x02, 0x06 => .ok .rxAppt0206
  | 0x02, 0x07 => .ok .rxAppt0207
  | 0x03, 0x02 => .ok .rxAppt0302
  | _, _ => .error .noShapeAccepted

/-- The emitted frame shape of a (command byte, subtype byte) pair (30_encoding.md R55 to R59). -/
def decodeTx (cmd sub : Byte) : Except Reject Instr :=
  match cmd.toNat, sub.toNat with
  | 0x03, 0x01 => .ok .txQueryStatus
  | 0x03, 0x02 => .ok .txQueryAppoint
  | 0x02, 0x01 => .ok .txPowerOn
  | 0x02, 0x02 => .ok .txPowerOff
  | 0x02, 0x04 => .ok .txFull
  | 0x02, 0x14 => .ok .txPart
  | 0x02, 0x05 => .ok .txAppoint0
  | 0x02, 0x06 => .ok .txAppoint1
  | 0x02, 0x07 => .ok .txAppoint2
  | _, _ => .error .noShapeEmitted

/-- The command byte of a frame word `CMD * 256 + SUB`. -/
def wordCmd (w : Nat) : Byte := BitVec.ofNat 8 (w / 256)

/-- The subtype byte of a frame word `CMD * 256 + SUB`. -/
def wordSub (w : Nat) : Byte := BitVec.ofNat 8 w

/-- The instruction a word of the given format stands for. Bits above the format's width are not part of the word: the
OP latch holds 4 bits, a frame word 16. -/
def decode (f : Format) (w : Nat) : Except Reject Instr :=
  match f with
  | .op => .ok (decodeOp (BitVec.ofNat 4 w))
  | .f0tx => decodeTx (wordCmd w) (wordSub w)
  | .f0rx => decodeRx (wordCmd w) (wordSub w)

/-- The instruction the decoder reads from `nbits` bits `w` of the opcode table. Up to a byte they are the OP latch;
more are a frame word, and a frame that reaches the decoder is a frame received, hence format `F0-RX`
(70_reset_and_hazards.md R242; log 3). -/
def decodeTableWord (nbits w : Nat) : Option Instr :=
  match decode (if nbits ≤ 8 then .op else .f0rx) w with
  | .ok i => some i
  | .error _ => none

/-- The format of an instruction's row. -/
def Instr.format : Instr → Format
  | .hex2bytes | .bytes2hex | .bytes2raw | .raw2bytes => .op
  | .cksum | .clamp | .assemble | .parse | .encode | .decode => .op
  | .reservedA | .reservedB | .reservedC | .reservedD | .reservedE | .reservedF => .op
  | .txQueryStatus | .txQueryAppoint | .txPowerOn | .txPowerOff | .txFull | .txPart => .f0tx
  | .txAppoint0 | .txAppoint1 | .txAppoint2 => .f0tx
  | .rxStatus0201 | .rxStatus0202 | .rxStatus0204 | .rxStatus0214 | .rxStatus0301 | .rxStatus0401 => .f0rx
  | .rxAppt0205 | .rxAppt0206 | .rxAppt0207 | .rxAppt0302 => .f0rx

/-- The width of a format's word in bits (30_encoding.md, opening). -/
def Format.width : Format → Nat
  | .op => 4
  | .f0tx => 16
  | .f0rx => 16

/-- The word of an instruction in its format: the table's `match` column. -/
def encode : Instr → Nat
  | .hex2bytes => 0x0
  | .bytes2hex => 0x1
  | .bytes2raw => 0x2
  | .raw2bytes => 0x3
  | .cksum => 0x4
  | .clamp => 0x5
  | .assemble => 0x6
  | .parse => 0x7
  | .encode => 0x8
  | .decode => 0x9
  | .reservedA => 0xA
  | .reservedB => 0xB
  | .reservedC => 0xC
  | .reservedD => 0xD
  | .reservedE => 0xE
  | .reservedF => 0xF
  | .txQueryStatus => 0x0301
  | .txQueryAppoint => 0x0302
  | .txPowerOn => 0x0201
  | .txPowerOff => 0x0202
  | .txFull => 0x0204
  | .txPart => 0x0214
  | .txAppoint0 => 0x0205
  | .txAppoint1 => 0x0206
  | .txAppoint2 => 0x0207
  | .rxStatus0201 => 0x0201
  | .rxStatus0202 => 0x0202
  | .rxStatus0204 => 0x0204
  | .rxStatus0214 => 0x0214
  | .rxStatus0301 => 0x0301
  | .rxStatus0401 => 0x0401
  | .rxAppt0205 => 0x0205
  | .rxAppt0206 => 0x0206
  | .rxAppt0207 => 0x0207
  | .rxAppt0302 => 0x0302

end Sys2Proof
end

