-- ==== Sys2Proof/Machine/Fetch.lean ====
section
/-! DEFINITION. Fetching a command: the latch OP selects the operation (30_encoding.md R50). Placing one: the host writes
OP and every operand latch the operation uses (70_reset_and_hazards.md R232; log 2). -/

namespace Sys2Proof.Machine

/-- The instruction the latch OP selects (30_encoding.md R50); an unwritten OP has no meaning (10_state.md R23). -/
def fetch (s : State) : Except Stop Instr :=
  match operand s.op with
  | .ok c => .ok (decodeOp c)
  | .error e => .error e

/-- The request with no section. -/
def emptyRequest : Request := { query := none, control := none, status := none, deviceSubType := none }

/-- The operand latches an operation uses (30_encoding.md R50, column operands), each at an empty operand where it holds
no value: the empty sequence or string, the empty range 1 to 0, zeros, the request with no section. DESIGN CHOICE, safe
(log 2). -/
def supplyOperands (i : Instr) (s : State) : State :=
  match i with
  | .hex2bytes | .raw2bytes => { s with aStr := s.aStr.or (some (some [])) }
  | .bytes2hex | .bytes2raw | .parse => { s with aSeq := s.aSeq.or (some []) }
  | .cksum => { s with aSeq := s.aSeq.or (some []), aFrom := s.aFrom.or (some 1), aTo := s.aTo.or (some 0) }
  | .clamp =>
    { s with aVal := s.aVal.or (some 0), aValid := s.aValid.or (some false),
             aMin := s.aMin.or (some 0), aMax := s.aMax.or (some 0) }
  | .assemble => { s with rq := s.rq.or (some emptyRequest) }
  | .encode => { s with aOk := s.aOk.or (some false), rq := s.rq.or (some emptyRequest) }
  | .decode => { s with aOk := s.aOk.or (some false), aStr := s.aStr.or (some (some [])) }
  | .reservedA | .reservedB | .reservedC | .reservedD | .reservedE | .reservedF => s
  | .txQueryStatus | .txQueryAppoint | .txPowerOn | .txPowerOff | .txFull | .txPart => s
  | .txAppoint0 | .txAppoint1 | .txAppoint2 => s
  | .rxStatus0201 | .rxStatus0202 | .rxStatus0204 | .rxStatus0214 | .rxStatus0301 | .rxStatus0401 => s
  | .rxAppt0205 | .rxAppt0206 | .rxAppt0207 | .rxAppt0302 => s

/-- A command placed in the latches: OP, and the operands it uses. -/
def placeCommand (s : State) (op : BitVec 4) : State := supplyOperands (decodeOp op) { s with op := some op }

/-- A frame with the given command and subtype byte and a zero at every other offset up to the last one a fixed shape
names, offset 26 (30_encoding.md R51, R61). -/
def frameWithPair (cmd sub : Byte) : List Byte := Config.hdr ++ [cmd, sub] ++ List.replicate 15 0x00

/-- A received frame placed for PARSE: the frame in `A_SEQ` and PARSE in OP (30_encoding.md R50, R60, R61). -/
def placeFrame (s : State) (w : Nat) : State :=
  { s with op := some 0x7, aSeq := some (frameWithPair (wordCmd w) (wordSub w)) }

/-- The instruction of the opcode table placed where the next step fetches it: up to a byte an OP code, else a frame word
(log 3). -/
def placeWord (s : State) (nbits w : Nat) : State :=
  if nbits ≤ 8 then placeCommand s (BitVec.ofNat 4 w) else placeFrame s w

end Sys2Proof.Machine
end

