-- ==== Sys2Proof/Machine/Step.lean ====
section
/-! DEFINITION. One step is one host command: the operation OP selects, on the operand latches as they stand
(00_scope.md R5, 10_state.md R19). -/

namespace Sys2Proof.Machine

/-- One host command, one atomic operation (00_scope.md R5, 20_memory.md R36). -/
def step (s : State) : Host.Outcome State Fault Refusal :=
  match fetch s with
  | .ok i => exec i s
  | .error e => e.outcome

/-- `s` with an instruction of the opcode table placed where `step` fetches its next one (log 2, log 3). -/
def State.withFetchWord (s : State) (nbits w : Nat) : State := placeWord s nbits w

end Sys2Proof.Machine
end

