-- ==== Sys2Proof/Machine/HostPort.lean ====
section
/-! DEFINITION. What the host does between operations: it writes operand latches (10_state.md R12) and resets the block
(70_reset_and_hazards.md R230). No step of the machine does either. -/

namespace Sys2Proof.Machine

/-- One write of an operand latch (10_state.md R12). -/
inductive HostWrite where
  | op (c : BitVec 4)
  | aSeq (S : List Byte)
  | aStr (T : Option Str)
  | aFrom (a : Int)
  | aTo (b : Int)
  | aVal (v : Int)
  | aValid (b : Bool)
  | aMin (lo : Int)
  | aMax (hi : Int)
  | aOk (b : Bool)
  | rq (r : Request)
deriving DecidableEq, Repr

/-- The latch a host write changes; nothing else changes, and the result latches stay valid until the next operation
starts (10_state.md R16). -/
def State.hostWrite (s : State) (w : HostWrite) : State :=
  match w with
  | .op c => { s with op := some c }
  | .aSeq S => { s with aSeq := some S }
  | .aStr T => { s with aStr := some T }
  | .aFrom a => { s with aFrom := some a }
  | .aTo b => { s with aTo := some b }
  | .aVal v => { s with aVal := some v }
  | .aValid b => { s with aValid := some b }
  | .aMin lo => { s with aMin := some lo }
  | .aMax hi => { s with aMax := some hi }
  | .aOk b => { s with aOk := some b }
  | .rq r => { s with rq := some r }

/-- A list of writes, first to last. -/
def State.hostWrites (s : State) (ws : List HostWrite) : State := ws.foldl State.hostWrite s

/-- Reset of a running block: every latch and the buffer as after reset, the configuration unaffected (10_state.md R23,
70_reset_and_hazards.md R230). -/
def State.hostReset (s : State) : State := { State.reset with cfg := s.cfg }

end Sys2Proof.Machine
end

