-- ==== Sys2Proof/Safety.lean ====
section
/-! DEFINITION. What counts as a good state, which requests ASSEMBLE has a meaning for, and which bits of the full window a
row of `ENC_FULL` leaves alone. -/

namespace Sys2Proof.Machine

/-- Which result latches other than RES have a value. -/
def State.resultValues (s : State) : List Bool :=
  [s.rByte.isSome, s.rNum.isSome, s.rSeq.isSome, s.rStr.isSome, s.sd.isSome]

/-- The result latches agree with RES: after `OK` exactly one other latch has a value, after `NULL` none has
(10_state.md R16, 60_exceptions.md R209), and before the first operation they are as after reset (R23). -/
def State.resultsOk (s : State) : Bool :=
  match s.res with
  | some .ok => s.resultValues.count true == 1
  | some .null => s.resultValues.count true == 0
  | none => s.resultValues == [false, false, false, false, true] && s.sd == some []

/-- The invariant every step keeps: the frame buffer holds a value exactly at offsets 1 to LEN, in canonical form
(10_state.md R11); the result latches agree with RES; a status document is in canonical form. -/
def State.Inv (s : State) : Prop := s.fb.wf ∧ s.resultsOk = true ∧ ∀ d, s.sd = some d → docWf d

/-- No step from `s` ends in a fault, nor in one of the two refusals that only an ill-formed configuration could cause
(20_memory.md R33, 60_exceptions.md R207). -/
def Safe (o : Outcome) : Prop :=
  (∀ f, o ≠ .fault f) ∧ o ≠ .refused .gap ∧ o ≠ .refused .overflow

/-! ### The requests ASSEMBLE has a meaning for (44_assembler.md R152, R155) -/

/-- A value that is copied as a number fits a byte. -/
def numFits (v : Option Val) : Bool :=
  match v with
  | some (.num n) => decide (n ≤ 255)
  | _ => true

/-- The number a `NUMF` row copies fits a byte; the other rows copy none (43_fieldmap.md R120, 44_assembler.md R152). -/
def rowFits (rq : Request) (row : EncRow) : Bool :=
  match row with
  | .numf name _ fallback _ =>
    match rq.controlField name with
    | some v => numFits (some v)
    | none => !fallback || numFits (rq.statusField name)
  | _ => true

/-- The full branch has a meaning. -/
def fullFits (cfg : Config) (rq : Request) : Bool := cfg.encFull.all (rowFits rq)

/-- The entry copies its field's value. -/
def copiesValue (e : PartEntry) : Bool := e.writes.any fun w => w.2 == .val

/-- The part branch has a meaning: the number the first present entry copies fits a byte. -/
def partFits (cfg : Config) (rq : Request) : Bool :=
  match cfg.encPart.find? (fun e => (rq.controlField e.name).isSome) with
  | some e => !copiesValue e || numFits (rq.controlField e.name)
  | none => true

/-- Whichever of power, part and full is taken has a meaning; a field that is not looked at cannot matter
(60_exceptions.md R208). -/
def baseFits (cfg : Config) (rq : Request) : Bool :=
  let p := rq.controlField (ascii "power")
  if isOn p then true else if isOff p then true
  else if takesPart cfg rq then partFits cfg rq else fullFits cfg rq

/-- The appointment field of a slot is absent or has a meaning (44_assembler.md R155). -/
def slotFits (rq : Request) (i : Fin 3) : Bool :=
  match rq.controlField (slotName i) with
  | none => true
  | some v => (apptParse (some v)).isOk

/-- ASSEMBLE has a meaning for the request (44_assembler.md R141, R143, R152, R155). -/
def encodable (cfg : Config) (rq : Request) : Bool :=
  match rq.query, rq.control with
  | none, some _ => baseFits cfg rq && slotFits rq 0 && slotFits rq 1 && slotFits rq 2
  | _, _ => true

/-! ### What the rows of ENC_FULL leave alone (43_fieldmap.md R117 to R120) -/

/-- The bits `m` at offset `o` are none of the bits `mask` at offset `off`. -/
def apart (o : Nat) (m : Byte) (off : Nat) (mask : Byte) : Bool := o != off || m &&& mask == 0

/-- Neither setting nor clearing what a mode name stands for changes the bits `mask` at offset `off`. -/
def encKeeps (off : Nat) (mask : Byte) : ModeEnc → Bool
  | .bit o m => apart o m off mask
  | .byte o _ => o != off

/-- A `MODE` row given the value `m` of `control.mode` leaves the bits `mask` at offset `off` alone (R118). -/
def modeRowKeeps (regions : List (Nat × Nat)) (table : List (Str × ModeEnc)) (m : Val) (off : Nat) (mask : Byte) : Bool :=
  !Config.inRegions regions off &&
    match m with
    | .num _ => true
    | .txt name => match table.lookup name with | some enc => encKeeps off mask enc | none => true

/-- A row of `ENC_FULL` leaves the bits `mask` at offset `off` alone on the request (R117 to R120). `rows` is the whole
table. -/
def rowKeeps (rows : List EncRow) (rq : Request) (off : Nat) (mask : Byte) (row : EncRow) : Bool :=
  match row with
  | .bool name o m => apart o m off mask || !boolIsSet (rq.controlField name) (rq.statusField name)
  | .mode regions table =>
    match rq.controlField (ascii "mode") with
    | some m => modeRowKeeps regions table m off mask
    | none => true
  | .heat ho hm wo wm => (rq.controlField (ascii "heat")).isNone || (apart ho hm off mask && apart wo wm off mask)
  | .numf name o fallback clearsMode =>
    match rq.controlField name, rq.statusField name with
    | some (.num _), _ => o != off && (!clearsMode || (modeTable rows).all fun e => encKeeps off mask e.2)
    | some (.txt _), _ => true
    | none, some (.num _) => !fallback || o != off
    | none, _ => true

/-- None of the rows `part` changes the bits `mask` at offset `off` (43_fieldmap.md R116). -/
def rowsKeep (rows part : List EncRow) (rq : Request) (off : Nat) (mask : Byte) : Bool :=
  part.all (rowKeeps rows rq off mask)

end Sys2Proof.Machine
end

