-- ==== Sys2Proof/Certificates/Slice0/Obligations.lean ====
section
/-! DEFINITION. The statements about the model, each `def Obligations.<Name> : Prop`, with the few words they share. -/

namespace Sys2Proof.Claims

open Sys2Proof.Machine

/-- `s` after an operation that completed with `RES = OK` and these values in the other result latches. Everything else
(configuration, frame buffer, operand latches) is as in `s`: this is the frame of every statement that uses it. -/
def okWith (s : State) (rByte : Option Byte) (rNum : Option Int) (rSeq : Option (List Byte)) (rStr : Option Str)
    (sd : Option Doc) : State :=
  { s with res := some .ok, rByte := rByte, rNum := rNum, rSeq := rSeq, rStr := rStr, sd := sd }

/-- `s` after an operation that completed with `RES = NULL`: no other result latch has a value, all else is as in `s`. -/
def nullOf (s : State) : State :=
  { s with res := some .null, rByte := none, rNum := none, rSeq := none, rStr := none, sd := none }

/-- `s` after an operation that completed with the frame `F`: the frame buffer holds `F` at offsets 1 to N and no value at
any other address, `R_SEQ` is `F`, all else is as in `s`. -/
def frameOf (s : State) (F : List Byte) : State :=
  { okWith s none none (some F) none none with fb := FrameBuffer.ofSeq F }

/-- `s` and `s'` hold the same configuration and the same operands. -/
def sameInputs (s s' : State) : Prop :=
  s'.cfg = s.cfg ∧ s'.op = s.op ∧ s'.aSeq = s.aSeq ∧ s'.aStr = s.aStr ∧ s'.aFrom = s.aFrom ∧ s'.aTo = s.aTo
    ∧ s'.aVal = s.aVal ∧ s'.aValid = s.aValid ∧ s'.aMin = s.aMin ∧ s'.aMax = s.aMax ∧ s'.aOk = s.aOk ∧ s'.rq = s.rq

/-- `s` and `s'` hold the same results. -/
def sameResults (s s' : State) : Prop :=
  s'.res = s.res ∧ s'.rByte = s.rByte ∧ s'.rNum = s.rNum ∧ s'.rSeq = s.rSeq ∧ s'.rStr = s.rStr ∧ s'.sd = s.sd

/-- The sum of the bytes `S[a]`, ..., `S[b]`, read one by one. -/
def byteSum (S : List Byte) (a b : Nat) : Nat :=
  ((List.range' a (b + 1 - a)).map fun i => ((memReadOpt S i).getD 0).toNat).sum

/-- A hex digit in lower case. -/
def lowerHex (c : Byte) : Byte := if 0x41 ≤ c.toNat ∧ c.toNat ≤ 0x46 then c + 0x20 else c

/-- The characters of a string that belong to a complete pair. -/
def paired (T : Str) : Str := T.take (2 * (T.length / 2))

/-- The mode name of a `DEC_STATUS` row that finds its flag set in `S`. -/
def raisedMode (S : List Byte) : DecRow → Option Str
  | .flag _ off mask pat _ _ modeName =>
    match memReadOpt S off with
    | some b => if b &&& mask = pat then modeName else none
    | none => none
  | _ => none

/-- The five texts of a schedule record joined by commas. -/
def joined (e : Str) (b1 b2 b3 b4 : Byte) : Str :=
  e ++ [0x2C] ++ decText b1 ++ [0x2C] ++ decText b2 ++ [0x2C] ++ decText b3 ++ [0x2C] ++ decText b4

/-- `F` has `n + 1` bytes, and its first nine are a finished frame's: `AA`, the length byte `n`, `E2`, six zeros. -/
def headerOf (F : List Byte) (n : Nat) : Prop :=
  F.length = n + 1 ∧ memReadOpt F 1 = some 0xAA ∧ memReadOpt F 2 = some (BitVec.ofNat 8 n) ∧ memReadOpt F 3 = some 0xE2
    ∧ (∀ a, 4 ≤ a → a ≤ 9 → memReadOpt F a = some 0x00)

/-- The rows TX_APPOINT0, TX_APPOINT1 and TX_APPOINT2, which emit an appointment frame. -/
def apptRow (i : Fin 3) : Instr :=
  match i with
  | 0 => .txAppoint0
  | 1 => .txAppoint1
  | 2 => .txAppoint2

/-- The value denotes the number: it is the number, or its decimal numeral as text, digits without a leading zero
(44_assembler.md R146, 30_encoding.md R67). -/
def denotes (v : Val) (n : Nat) : Prop :=
  match v with
  | .num m => m = n
  | .txt t =>
    t ≠ [] ∧ (∀ c ∈ t, 0x30 ≤ c.toNat ∧ c.toNat ≤ 0x39) ∧ (t.head? = some 0x30 → t.length = 1)
      ∧ n = t.foldl (fun acc c => 10 * acc + (c.toNat - 0x30)) 0

/-- The two values are the same sub-type (44_assembler.md R146; for an element of LIMITED_SUBTYPES written as text, log 23). -/
def sameSubType (v w : Val) : Prop := v = w ∨ ∃ n, denotes v n ∧ denotes w n

/-- The part branch is asked for: by `control_type`, or by a sub-type that is present and is one of LIMITED_SUBTYPES
(44_assembler.md R143, R146). -/
def partAsked (cfg : Config) (r : Request) : Prop :=
  r.controlField (ascii "control_type") = some (.txt (ascii "part"))
    ∨ ∃ d, r.deviceSubType = some d ∧ ∃ w ∈ cfg.limitedSubtypes, sameSubType w d

/-- `row` is the power, part or full shape that a control request selects (44_assembler.md R143, R144, R146). -/
def selectsBase (cfg : Config) (r : Request) (row : Instr) : Prop :=
  let p := r.controlField (ascii "power")
  (row = .txPowerOn ∧ isOn p = true) ∨ (row = .txPowerOff ∧ isOff p = true)
    ∨ (isOn p = false ∧ isOff p = false ∧ (row = .txPart ∧ partAsked cfg r ∨ row = .txFull ∧ ¬ partAsked cfg r))

/-- `row` is the shape that lies under the overlay of slot `i`: the last earlier slot that is present, or, where none is, the
power, part or full shape (44_assembler.md R143, R154, R157). -/
def liesUnder (cfg : Config) (r : Request) (i : Fin 3) (row : Instr) : Prop :=
  (∃ j, j < i ∧ (r.controlField (slotName j)).isSome ∧ (∀ k, j < k → k < i → r.controlField (slotName k) = none)
      ∧ row = apptRow j)
    ∨ ((∀ j, j < i → r.controlField (slotName j) = none) ∧ selectsBase cfg r row)

/-- The text of an appointment value: a first field and the others, each after a comma (30_encoding.md R67). -/
def apptText (first : Str) (fields : List Str) : Str := first ++ fields.flatMap fun f => 0x2C :: f

/-- The rows that read a status report. -/
def statusRows : List Instr :=
  [.rxStatus0201, .rxStatus0202, .rxStatus0204, .rxStatus0214, .rxStatus0301, .rxStatus0401]

/-- The rows that read an appointment report. -/
def appointmentRows : List Instr := [.rxAppt0205, .rxAppt0206, .rxAppt0207, .rxAppt0302]

/-- The instructions that may write the frame buffer. -/
def emitters : List Instr :=
  [.assemble, .encode, .txQueryStatus, .txQueryAppoint, .txPowerOn, .txPowerOff, .txFull, .txPart,
   .txAppoint0, .txAppoint1, .txAppoint2]

end Sys2Proof.Claims

open Sys2Proof Sys2Proof.Machine Sys2Proof.Claims

/-! ### Decoding and stepping -/

/-- Sanity: a few words written out from the tables of 30_encoding.md R50, R55 to R62 and R69. That `0x0214` is TX_PART rests
on SUB_PART = 0x14, which the spec has from general knowledge (PRESUMED, log 6). -/
def Obligations.WordsDecodeAsTabled : Prop :=
  decode .op 0x0 = .ok .hex2bytes ∧ decode .op 0x4 = .ok .cksum ∧ decode .op 0x6 = .ok .assemble
    ∧ decode .op 0xA = .ok .reservedA ∧ decode .f0tx 0x0301 = .ok .txQueryStatus ∧ decode .f0tx 0x0214 = .ok .txPart
    ∧ decode .f0rx 0x0401 = .ok .rxStatus0401 ∧ decode .f0rx 0x0205 = .ok .rxAppt0205
    ∧ decode .f0rx 0x0209 = .error .noShapeAccepted ∧ decode .f0tx 0x0401 = .error .noShapeEmitted

/-- The decoder of an instruction's format reads the instruction from its word, for every row of the table. The subtype bytes
of TX_POWER_ON, TX_POWER_OFF, TX_FULL and TX_PART are PRESUMED by the spec (log 6). -/
def Obligations.DecodeEncodeAgree : Prop :=
  ∀ i : Instr, i.wellFormed = true → encode i < 2 ^ i.format.width ∧ decode i.format (encode i) = .ok i

/-- A step runs the operation OP selects (30_encoding.md R50). -/
def Obligations.StepRunsTheSelectedOperation : Prop :=
  ∀ (s : State) (c : BitVec 4) (i : Instr),
    s.op = some c → decode .op c.toNat = .ok i → i.wellFormed = true → step s = exec i s

/-- A step with PARSE selected runs the row of the frame shape that the received frame decodes to (R60, R61, R171). -/
def Obligations.StepRunsTheReceivedFrameShape : Prop :=
  ∀ (s : State) (S : List Byte) (c d : Byte) (i : Instr),
    s.op = some 0x7 → s.aSeq = some S → memReadOpt S 10 = some c → memReadOpt S 11 = some d →
    decode .f0rx (c.toNat * 256 + d.toNat) = .ok i → step s = exec i s

/-- A step with ASSEMBLE selected runs the row of the frame shape that the request selects (44_assembler.md R141, R143, R146,
R154), said of the model's `shapeSelected` and then shape by shape: a query by its type; else the last appointment slot that
is present; else power on or off; else the part shape exactly when `control_type` is "part" or the sub-type, compared as a
number where it is a numeral, is one of LIMITED_SUBTYPES. -/
def Obligations.StepRunsTheRequestedFrameShape : Prop :=
  ∀ (s : State) (r : Request), s.op = some 0x6 → s.rq = some r →
    (∀ i, shapeSelected s.cfg r = some i → step s = exec i s)
    ∧ (∀ q, r.query = some q → step s = exec
        (if q.queryType = some (.txt (ascii "appoint_query")) then .txQueryAppoint else .txQueryStatus) s)
    ∧ (r.query = none → r.control.isSome →
      (∀ i : Fin 3, (r.controlField (slotName i)).isSome → (∀ j, i < j → r.controlField (slotName j) = none) →
        step s = exec (apptRow i) s)
      ∧ ((∀ i, r.controlField (slotName i) = none) → ∀ row, selectsBase s.cfg r row → step s = exec row s))

/-- The model's choice, logs 2 and 3: a word of the opcode table, placed where a step fetches, is what the step runs. -/
def Obligations.PlacedWordRuns : Prop :=
  ∀ (s : State) (nbits w : Nat) (i : Instr),
    decodeTableWord nbits w = some i → step (s.withFetchWord nbits w) = exec i (s.withFetchWord nbits w)

/-- A reserved OP code stops the step with `RESERVED_OP` (30_encoding.md R69). -/
def Obligations.ReservedCodesAreRefused : Prop :=
  ∀ s : State,
    (∀ i ∈ [Instr.reservedA, .reservedB, .reservedC, .reservedD, .reservedE, .reservedF],
      exec i s = .refused .reservedOp)
    ∧ (∀ c : BitVec 4, 0xA ≤ c.toNat → s.op = some c → step s = .refused .reservedOp)

/-- An operation that uses an operand latch without a value is refused, and so is a step without an OP (10_state.md R23).
Which latches an operation uses is log 12, that the refusal comes before every other one log 21, what `none` stands for
log 1. -/
def Obligations.UnwrittenOperandsAreRefused : Prop :=
  ∀ s : State,
    (s.op = none → step s = .refused .unwrittenOperand)
    ∧ (s.aStr = none → exec .hex2bytes s = .refused .unwrittenOperand ∧ exec .raw2bytes s = .refused .unwrittenOperand)
    ∧ (s.aSeq = none → ∀ i ∈ [Instr.bytes2hex, .bytes2raw, .cksum, .parse] ++ statusRows ++ appointmentRows,
        exec i s = .refused .unwrittenOperand)
    ∧ (s.aSeq = none ∨ s.aFrom = none ∨ s.aTo = none → exec .cksum s = .refused .unwrittenOperand)
    ∧ (s.aValid = none ∨ s.aMin = none ∨ s.aMax = none ∨ (s.aValid = some true ∧ s.aVal = none) →
        exec .clamp s = .refused .unwrittenOperand)
    ∧ (s.rq = none → ∀ i ∈ [Instr.assemble, .txFull, .txPart, .txAppoint0, .txAppoint1, .txAppoint2],
        exec i s = .refused .unwrittenOperand)
    ∧ (s.aOk = none → exec .encode s = .refused .unwrittenOperand ∧ exec .decode s = .refused .unwrittenOperand)
    ∧ (s.aOk = some true → s.rq = none → exec .encode s = .refused .unwrittenOperand)
    ∧ (s.aOk = some true → s.aStr = none → exec .decode s = .refused .unwrittenOperand)

/-- ASSEMBLE, PARSE, the frame shapes, and ENCODE and DECODE where they come to them, are refused on a configuration that is
not well-formed, each as soon as the operands it reads have a value (43_fieldmap.md R131). Which row names are excluded beside
its six conditions is log 18, what the frame shapes read and do as instructions log 4, that an unwritten operand, a sequence
that is too long and, in DECODE, the conversion of the string come first log 21, and that 513 characters are not too long,
though R200 speaks of more than 512, log 14. -/
def Obligations.IllFormedConfigurationIsRefused : Prop :=
  ∀ s : State, s.cfg.wellFormed = false →
    (∀ i ∈ [Instr.txQueryStatus, .txQueryAppoint, .txPowerOn, .txPowerOff], exec i s = .refused .badConfig)
    ∧ (∀ r, s.rq = some r →
      ∀ i ∈ [Instr.assemble, .txFull, .txPart, .txAppoint0, .txAppoint1, .txAppoint2], exec i s = .refused .badConfig)
    ∧ (∀ S, s.aSeq = some S → S.length ≤ 256 →
      ∀ i ∈ [Instr.parse] ++ statusRows ++ appointmentRows, exec i s = .refused .badConfig)
    ∧ (∀ r, s.aOk = some true → s.rq = some r → exec .encode s = .refused .badConfig)
    ∧ (∀ T, s.aOk = some true → s.aStr = some (some T) → T.length ≤ 513 → (∀ c ∈ paired T, (hexVal c).isSome) →
      exec .decode s = .refused .badConfig)

/-! ### Hex and raw strings -/

/-- HEX2BYTES on a string whose complete pairs are hex digits (40_hex_byte.md R80). -/
def Obligations.Hex2BytesResult : Prop :=
  decode .op 0x0 = .ok .hex2bytes ∧
  ∀ (s : State) (T : Str), s.aStr = some (some T) → (∀ c ∈ paired T, (hexVal c).isSome) →
    ∃ R : List Byte, exec .hex2bytes s = .next (okWith s none none (some R) none none) ∧ R.length = T.length / 2
      ∧ ∀ i, 1 ≤ i → i ≤ T.length / 2 → ∃ hi lo : Nat, (memReadOpt T (2 * i - 1)).bind hexVal = some hi
        ∧ (memReadOpt T (2 * i)).bind hexVal = some lo
        ∧ (memReadOpt R i).map BitVec.toNat = some (16 * hi + lo)

/-- HEX2BYTES drops the last character of a string of odd length without examining it (40_hex_byte.md R81). -/
def Obligations.OddHexCharacterIsDropped : Prop :=
  ∀ (s : State) (T : Str) (c : Byte), T.length % 2 = 0 → s.aStr = some (some T) →
    (∀ t, exec .hex2bytes s = .next t →
      exec .hex2bytes { s with aStr := some (some (T ++ [c])) } = .next { t with aStr := some (some (T ++ [c])) }
        ∧ t.res = some .ok ∧ ∃ R, t.rSeq = some R ∧ R.length = ((T ++ [c]).length - 1) / 2)
    ∧ (∀ r, exec .hex2bytes s = .refused r →
      exec .hex2bytes { s with aStr := some (some (T ++ [c])) } = .refused r)

/-- The values of the hex characters of both cases, and the refusal of any other character of a complete pair
(40_hex_byte.md R82). -/
def Obligations.HexCharacterValues : Prop :=
  (∀ k, k < 10 → hexVal (BitVec.ofNat 8 (0x30 + k)) = some k)
  ∧ (∀ k, k < 6 → hexVal (BitVec.ofNat 8 (0x61 + k)) = some (10 + k) ∧ hexVal (BitVec.ofNat 8 (0x41 + k)) = some (10 + k))
  ∧ (∀ c : Byte, ¬ (0x30 ≤ c.toNat ∧ c.toNat ≤ 0x39) → ¬ (0x61 ≤ c.toNat ∧ c.toNat ≤ 0x66) →
      ¬ (0x41 ≤ c.toNat ∧ c.toNat ≤ 0x46) → hexVal c = none)
  ∧ (∀ (s : State) (T : Str), s.aStr = some (some T) → (∃ c ∈ paired T, hexVal c = none) →
      exec .hex2bytes s = .refused .nonHexChar)

/-- BYTES2HEX writes two lower-case digits per byte, high nibble first (40_hex_byte.md R84). -/
def Obligations.Bytes2HexResult : Prop :=
  decode .op 0x1 = .ok .bytes2hex ∧
  ∀ (s : State) (S : List Byte), s.aSeq = some S → S.length ≤ 256 →
    ∃ R : Str, exec .bytes2hex s = .next (okWith s none none none (some R) none) ∧ R.length = 2 * S.length
      ∧ ∀ i b, memReadOpt S i = some b →
        memReadOpt R (2 * i - 1) = some (hexDig (b.toNat / 16)) ∧ memReadOpt R (2 * i) = some (hexDig (b.toNat % 16))

/-- The round trips of HEX2BYTES and BYTES2HEX (40_hex_byte.md R85), on sequences an operand latch can hold. -/
def Obligations.HexRoundTrips : Prop :=
  (∀ (s : State) (S : List Byte), S.length ≤ 256 →
    ∃ t T u, exec .bytes2hex { s with aSeq := some S } = .next t ∧ t.rStr = some T
      ∧ exec .hex2bytes { s with aStr := some (some T) } = .next u ∧ u.rSeq = some S)
  ∧ (∀ (s : State) (T : Str), T.length ≤ 512 → (∀ c ∈ paired T, (hexVal c).isSome) →
    ∃ t S u, exec .hex2bytes { s with aStr := some (some T) } = .next t ∧ t.rSeq = some S
      ∧ exec .bytes2hex { s with aSeq := some S } = .next u ∧ u.rStr = some ((paired T).map lowerHex))

/-- BYTES2RAW and RAW2BYTES copy character for byte (40_hex_byte.md R87, R88). -/
def Obligations.RawStringOperations : Prop :=
  decode .op 0x2 = .ok .bytes2raw ∧ decode .op 0x3 = .ok .raw2bytes ∧
  (∀ (s : State) (S : List Byte), s.aSeq = some S → S.length ≤ 256 →
    ∃ R : Str, exec .bytes2raw s = .next (okWith s none none none (some R) none) ∧ R.length = S.length
      ∧ ∀ i, memReadOpt R i = memReadOpt S i)
  ∧ (∀ (s : State) (T : Str), s.aStr = some (some T) →
    ∃ R : List Byte, exec .raw2bytes s = .next (okWith s none none (some R) none none) ∧ R.length = T.length
      ∧ ∀ i, memReadOpt R i = memReadOpt T i)

/-! ### Checksum -/

/-- CKSUM on a range inside the sequence, the empty ranges among them (41_checksum.md R100). -/
def Obligations.CksumResult : Prop :=
  decode .op 0x4 = .ok .cksum ∧
  ∀ (s : State) (S : List Byte) (a b : Int), s.aSeq = some S → s.aFrom = some a → s.aTo = some b → S.length ≤ 256 →
    1 ≤ a → b ≤ S.length →
    ∃ c : Byte, exec .cksum s = .next (okWith s (some c) none none none none)
      ∧ (c.toNat : Int) = (0 - (byteSum S a.toNat b.toNat : Int)) % 256

/-- CKSUM on an empty range gives 0, before the range check; a range that leaves the sequence is refused (41_checksum.md
R103, 60_exceptions.md R208). -/
def Obligations.CksumIndexOperands : Prop :=
  ∀ (s : State) (S : List Byte) (a b : Int), s.aSeq = some S → s.aFrom = some a → s.aTo = some b → S.length ≤ 256 →
    (b < a → exec .cksum s = .next (okWith s (some 0x00) none none none none))
    ∧ (a ≤ b → a < 1 ∨ (S.length : Int) < b → exec .cksum s = .refused .cksumRange)

/-- The range is inclusive at both ends (41_checksum.md R104). -/
def Obligations.CksumRangeIsInclusive : Prop :=
  (∀ (s : State) (S : List Byte) (a : Nat) (x : Byte), s.aSeq = some S → s.aFrom = some (a : Int) →
    s.aTo = some (a : Int) → S.length ≤ 256 → memReadOpt S a = some x →
    exec .cksum s = .next (okWith s (some (0 - x)) none none none none))
  ∧ cksum [0x01] 1 1 = 0xFF ∧ cksum [0xFF] 1 1 = 0x01

/-- The checksum is the one byte that brings the sum to 0 modulo 256, so a frame verifies in either of two ways
(41_checksum.md R105). -/
def Obligations.CksumVerificationIdentity : Prop :=
  (∀ (S : List Byte) (a b : Nat) (c : Byte), 1 ≤ a → a ≤ b → b ≤ S.length →
    ((byteSum S a b + c.toNat) % 256 = 0 ↔ c = cksum S a b))
  ∧ (∀ (F : List Byte) (x : Byte), 2 ≤ F.length → memReadOpt F F.length = some x →
    (cksum F 2 (F.length - 1) = x ↔ cksum F 2 F.length = 0x00))

/-- An 8-bit wrapping adder and an 8-bit two's-complement negate compute the checksum, and a range that sums to a multiple of
256 gives 0, the empty range among them (41_checksum.md R101, R102). -/
def Obligations.CksumByEightBitAdder : Prop :=
  ∀ (S : List Byte) (a b : Nat), 1 ≤ a →
    cksum S a b = ~~~(((S.drop (a - 1)).take (b + 1 - a)).foldl (· + ·) 0) + 1
    ∧ (b ≤ S.length → byteSum S a b % 256 = 0 → cksum S a b = 0x00)
    ∧ (b < a → cksum S a b = 0x00)

/-! ### Clamp -/

/-- CLAMP of a valid value and of a missing one (42_clamp.md R110). That a missing value completes even when A_VAL was never
written, which R50's operand column lists, is the model's reading, log 12. -/
def Obligations.ClampResult : Prop :=
  decode .op 0x5 = .ok .clamp ∧
  ∀ (s : State) (lo hi : Int), s.aMin = some lo → s.aMax = some hi →
    (∀ v, s.aValid = some true → s.aVal = some v →
      exec .clamp s = .next (okWith s none (some (if v < lo then lo else if v > hi then hi else v)) none none none))
    ∧ (s.aValid = some false →
      exec .clamp s = .next (okWith s none (some (if 0 < lo then lo else if 0 > hi then hi else 0)) none none none))

/-! ### The machine -/

/-- The state after reset, and a reset of a running block, which leaves the configuration unaffected
(70_reset_and_hazards.md R230). -/
def Obligations.ResetValues : Prop :=
  (∀ s : State, s.hostReset = { State.reset with cfg := s.cfg })
  ∧ State.reset.fb.len = 0 ∧ (∀ a, State.reset.fb.cells.read a = none)
  ∧ State.reset.op = none ∧ State.reset.aSeq = none ∧ State.reset.aStr = none ∧ State.reset.aFrom = none
  ∧ State.reset.aTo = none ∧ State.reset.aVal = none ∧ State.reset.aValid = none ∧ State.reset.aMin = none
  ∧ State.reset.aMax = none ∧ State.reset.aOk = none ∧ State.reset.rq = none ∧ State.reset.res = none
  ∧ State.reset.rByte = none ∧ State.reset.rNum = none ∧ State.reset.rSeq = none ∧ State.reset.rStr = none
  ∧ State.reset.sd = some []

/-- The state after reset meets the invariant. That its configuration is well-formed is the model's choice (log 5). -/
def Obligations.ResetStateIsGood : Prop := State.reset.Inv ∧ State.reset.cfg.wellFormed = true

/-- Every step keeps the invariant: the frame buffer holds a value exactly at offsets 1 to LEN in canonical form, the result
latches agree with RES, a status document is in canonical form. -/
def Obligations.StepKeepsTheInvariant : Prop :=
  ∀ s t : State, s.Inv → step s = .next t → t.Inv

/-- No instruction writes the configuration or an operand latch (10_state.md R12, R17). -/
def Obligations.InputsAreNotWritten : Prop :=
  ∀ (i : Instr) (s t : State), exec i s = .next t → sameInputs s t

/-- Only ASSEMBLE, ENCODE through it and the frame shapes they emit write the frame buffer (10_state.md R11, 20_memory.md
R30): after any other instruction every address reads as before. -/
def Obligations.OnlyEmittersWriteTheBuffer : Prop :=
  ∀ (i : Instr) (s t : State), i ∉ emitters → exec i s = .next t →
    t.fb.len = s.fb.len ∧ ∀ a, t.fb.cells.read a = s.fb.cells.read a

/-- No instruction ends in a fault, in `GAP` or in `OVERFLOW`, whatever the state and the configuration (20_memory.md R33,
60_exceptions.md R207). -/
def Obligations.NoInstructionFaults : Prop :=
  (∀ (i : Instr) (s : State), Safe (exec i s)) ∧ ∀ s : State, Safe (step s)

/-- No value written by one operation is read by a later one: results depend on the configuration and the operand latches
alone (10_state.md R18). -/
def Obligations.NoCrossCallState : Prop :=
  ∀ s s' : State, sameInputs s s' →
    (∀ t, step s = .next t → ∃ t', step s' = .next t' ∧ sameResults t t')
    ∧ (∀ r, step s = .refused r → step s' = .refused r)

/-- `FBSet` (20_memory.md R33) on a buffer that holds values exactly at offsets 1 to LEN. That GAP is tested before OVERFLOW,
and that offset 0 is a fault, is the model's choice (log 17). -/
def Obligations.FrameBufferWrite : Prop :=
  ∀ (fb : FrameBuffer) (off : Nat) (v : Byte), fb.wf →
    (1 ≤ off → off ≤ fb.len + 1 → off ≤ 256 →
      ∃ fb', fb.set off v = .ok fb' ∧ fb'.wf ∧ fb'.len = (if off = fb.len + 1 then fb.len + 1 else fb.len)
        ∧ ∀ a, fb'.cells.read a = if a = off then some v else fb.cells.read a)
    ∧ (fb.len + 1 < off → fb.set off v = refuse .gap)
    ∧ (256 < off → off ≤ fb.len + 1 → fb.set off v = refuse .overflow)
    ∧ (off = 0 → fb.set off v = .error (.fault .noSuchOffset))

/-! ### ASSEMBLE -/

/-- The query frame, byte for byte, whatever else the request holds (44_assembler.md R142, 30_encoding.md R55), and the two
rows that emit it, which do so whatever the request selects (log 4). -/
def Obligations.QueryFrame : Prop :=
  ∀ s : State, s.cfg.wellFormed = true →
    (∀ (r : Request) (q : Query), s.rq = some r → r.query = some q →
      exec .assemble s = .next (frameOf s
        (if q.queryType = some (.txt (ascii "appoint_query"))
          then [0xAA, 0x0C, 0xE2, 0x00, 0x00, 0x00, 0x00, 0x00, 0x00, 0x03, 0x02, 0x01, 0x0C]
          else [0xAA, 0x0C, 0xE2, 0x00, 0x00, 0x00, 0x00, 0x00, 0x00, 0x03, 0x01, 0x01, 0x0D])))
    ∧ exec .txQueryStatus s
      = .next (frameOf s [0xAA, 0x0C, 0xE2, 0x00, 0x00, 0x00, 0x00, 0x00, 0x00, 0x03, 0x01, 0x01, 0x0D])
    ∧ exec .txQueryAppoint s
      = .next (frameOf s [0xAA, 0x0C, 0xE2, 0x00, 0x00, 0x00, 0x00, 0x00, 0x00, 0x03, 0x02, 0x01, 0x0C])

/-- The power frame, byte for byte (44_assembler.md R144, 30_encoding.md R56), when no appointment field is present, and the
two rows that emit it, which do so whatever the request selects (log 4). The bytes at offsets 11 and 12 are the spec's own
(PRESUMED, log 6). On and off are R14's two predicates. -/
def Obligations.PowerFrame : Prop :=
  (∀ v, isOn v = true ↔ v = some (.txt (ascii "on")) ∨ v = some (.num 1))
  ∧ (∀ v, isOff v = true ↔ v = some (.txt (ascii "off")) ∨ v = some (.num 0))
  ∧ ∀ s : State, s.cfg.wellFormed = true →
    (∀ r : Request, s.rq = some r → r.query = none → r.control.isSome →
      (∀ i, r.controlField (slotName i) = none) →
      (isOn (r.controlField (ascii "power")) = true → exec .assemble s
        = .next (frameOf s [0xAA, 0x0C, 0xE2, 0x00, 0x00, 0x00, 0x00, 0x00, 0x00, 0x02, 0x01, 0x01, 0x0E]))
      ∧ (isOff (r.controlField (ascii "power")) = true → exec .assemble s
        = .next (frameOf s [0xAA, 0x0C, 0xE2, 0x00, 0x00, 0x00, 0x00, 0x00, 0x00, 0x02, 0x02, 0x01, 0x0D])))
    ∧ exec .txPowerOn s
      = .next (frameOf s [0xAA, 0x0C, 0xE2, 0x00, 0x00, 0x00, 0x00, 0x00, 0x00, 0x02, 0x01, 0x01, 0x0E])
    ∧ exec .txPowerOff s
      = .next (frameOf s [0xAA, 0x0C, 0xE2, 0x00, 0x00, 0x00, 0x00, 0x00, 0x00, 0x02, 0x02, 0x01, 0x0D])

/-- With power on or off, no control field but the appointment fields matters, nor the status section, nor the device
sub-type (44_assembler.md R145). -/
def Obligations.PowerExcludesOtherFields : Prop :=
  ∀ (s : State) (r r' : Request), r.query = none → r'.query = none → r.control.isSome → r'.control.isSome →
    (isOn (r.controlField (ascii "power")) = true ∧ isOn (r'.controlField (ascii "power")) = true
      ∨ isOff (r.controlField (ascii "power")) = true ∧ isOff (r'.controlField (ascii "power")) = true) →
    (∀ i, r'.controlField (slotName i) = r.controlField (slotName i)) →
    (∀ t, exec .assemble { s with rq := some r } = .next t →
      exec .assemble { s with rq := some r' } = .next { t with rq := some r' })
    ∧ (∀ e, exec .assemble { s with rq := some r } = .refused e → exec .assemble { s with rq := some r' } = .refused e)

/-- A request with neither section gives `RES = NULL` and no sequence (44_assembler.md R158). -/
def Obligations.NoFrameGivesNull : Prop :=
  ∀ (s : State) (r : Request), s.cfg.wellFormed = true → s.rq = some r → r.query = none → r.control = none →
    ∃ fb, exec .assemble s = .next (nullOf { s with fb := fb })

/-- The model's reading, log 7: `NULL` leaves the frame buffer as it was too, for each of the three operations that can end
so (60_exceptions.md R209). -/
def Obligations.NullChangesNothingElse : Prop :=
  ∀ s t : State, ∀ i ∈ [Instr.assemble, .encode, .decode],
    exec i s = .next t → t.res = some .null → t = nullOf s

/-- The part frame: its layout when the copied number fits, and a zero window when no entry's field is present
(44_assembler.md R147). Byte 11 is PRESUMED by the spec (log 6), and TX_PART emits it whatever the request selects (log 4). -/
def Obligations.PartFrame : Prop :=
  ∀ (s : State) (r : Request), s.cfg.wellFormed = true → s.rq = some r → partFits s.cfg r = true →
    ∃ F, exec .txPart s = .next (frameOf s F) ∧ headerOf F s.cfg.partHi
      ∧ memReadOpt F 10 = some 0x02 ∧ memReadOpt F 11 = some 0x14
      ∧ ((∀ e ∈ s.cfg.encPart, r.controlField e.name = none) →
        ∀ a, 12 ≤ a → a ≤ s.cfg.partHi → memReadOpt F a = some 0x00)

/-- The bytes the first present entry of `ENC_PART` writes, for each of the three sources (43_fieldmap.md R121,
44_assembler.md R147), where no later write of the entry goes to the same offset; every other byte of the window is zero.
TX_PART does so whatever the request selects (log 4). -/
def Obligations.PartEntryBytes : Prop :=
  ∀ (s : State) (r : Request) (pre post : List PartEntry) (e : PartEntry) (v : Val) (before after : List (Nat × PartSrc))
    (off : Nat) (src : PartSrc),
    s.cfg.wellFormed = true → s.rq = some r → partFits s.cfg r = true → s.cfg.encPart = pre ++ e :: post →
    (∀ p ∈ pre, r.controlField p.name = none) → r.controlField e.name = some v →
    e.writes = before ++ (off, src) :: after → (∀ w ∈ after, w.1 ≠ off) →
    ∃ F, exec .txPart s = .next (frameOf s F) ∧
      (match src, v with
      | .const b, _ => memReadOpt F off = some b
      | .sel bOn bOff, v => memReadOpt F off = some (if isOn (some v) then bOn else bOff)
      | .val, .num n => (memReadOpt F off).map BitVec.toNat = some n
      | .val, .txt _ => (∀ w ∈ before, w.1 ≠ off) → memReadOpt F off = some 0x00)
      ∧ ∀ a, 12 ≤ a → a ≤ s.cfg.partHi → (∀ w ∈ e.writes, w.1 ≠ a) → memReadOpt F a = some 0x00

/-- At most one entry of `ENC_PART` is executed: the fields of the entries after the first present one do not matter
(44_assembler.md R147, 43_fieldmap.md R116), to a frame nor to a refusal. Said of TX_PART whatever the request selects
(log 4). -/
def Obligations.PartFrameIgnoresLaterFields : Prop :=
  ∀ (s : State) (r r' : Request) (pre post : List PartEntry) (e : PartEntry),
    s.cfg.encPart = pre ++ e :: post →
    (∀ p ∈ pre, r.controlField p.name = none ∧ r'.controlField p.name = none) →
    (r.controlField e.name).isSome → r'.controlField e.name = r.controlField e.name →
    (∀ t, exec .txPart { s with rq := some r } = .next t →
      exec .txPart { s with rq := some r' } = .next { t with rq := some r' })
    ∧ (∀ x, exec .txPart { s with rq := some r } = .refused x → exec .txPart { s with rq := some r' } = .refused x)

/-- The full frame: its layout when every number it copies fits, a zero byte wherever no row writes, and a zero window when no
field is present in either section (44_assembler.md R148, R162). Byte 11 is PRESUMED by the spec (log 6), and TX_FULL emits
it whatever the request selects (log 4). -/
def Obligations.FullFrame : Prop :=
  ∀ (s : State) (r : Request), s.cfg.wellFormed = true → s.rq = some r → fullFits s.cfg r = true →
    ∃ F, exec .txFull s = .next (frameOf s F) ∧ headerOf F s.cfg.fullHi
      ∧ memReadOpt F 10 = some 0x02 ∧ memReadOpt F 11 = some 0x04
      ∧ (∀ a, 12 ≤ a → a ≤ s.cfg.fullHi → rowsKeep s.cfg.encFull s.cfg.encFull r a 0xFF = true → memReadOpt F a = some 0x00)
      ∧ ((∀ name, r.controlField name = none ∧ r.statusField name = none) →
        ∀ a, 12 ≤ a → a ≤ s.cfg.fullHi → memReadOpt F a = some 0x00)

/-- Every `BOOL` row: the control value decides its bits when it is present, else the last known status (43_fieldmap.md R117,
44_assembler.md R149). They are set where that value is on and no later row changes them, and clear where it is not on and no
other row sets them. `eplus` is such a row, with bit `0x01` of offset 13 (R126). Said of TX_FULL whatever the request selects
(log 4). -/
def Obligations.BoolRowsFollowControlThenStatus : Prop :=
  ∀ (s : State) (r : Request), s.cfg.wellFormed = true → s.rq = some r → fullFits s.cfg r = true →
    .bool (ascii "eplus") 13 0x01 ∈ s.cfg.encFull
    ∧ ∀ (pre post : List EncRow) (name : Str) (off : Nat) (mask : Byte),
      s.cfg.encFull = pre ++ .bool name off mask :: post → rowsKeep s.cfg.encFull post r off mask = true →
      ∃ F b, exec .txFull s = .next (frameOf s F) ∧ memReadOpt F off = some b
        ∧ (∀ v, r.controlField name = some v → isOn (some v) = true → b &&& mask = mask)
        ∧ (r.controlField name = none → isOn (r.statusField name) = true → b &&& mask = mask)
        ∧ (rowsKeep s.cfg.encFull pre r off mask = true →
          (∀ v, r.controlField name = some v → isOn (some v) = false → b &&& mask = 0x00)
          ∧ (r.controlField name = none → isOn (r.statusField name) = false → b &&& mask = 0x00))

/-- Mode precedence: a `control.mode` that is present clears the mode regions and sets what its name stands for, whatever
the status section and the rows before hold (43_fieldmap.md R118, 44_assembler.md R149), at every offset that no row after
the `MODE` row changes: a `BIT` entry, a `BYTE` entry, and nothing for a number or a name that is not in the table. "summer"
leaves `0x04` at offset 13 and `0x00` at offset 14 (R127). Said of TX_FULL whatever the request selects (log 4). -/
def Obligations.ModePrecedence : Prop :=
  ∀ (s : State) (r : Request) (pre post : List EncRow) (regions : List (Nat × Nat)) (table : List (Str × ModeEnc)) (m : Val),
    s.cfg.wellFormed = true → s.rq = some r → fullFits s.cfg r = true → r.controlField (ascii "mode") = some m →
    s.cfg.encFull = pre ++ .mode regions table :: post →
    ∃ F, exec .txFull s = .next (frameOf s F)
      ∧ (∀ name o mask, m = .txt name → (name, .bit o mask) ∈ table →
        (rowsKeep s.cfg.encFull post r o mask = true → ∃ b, memReadOpt F o = some b ∧ b &&& mask = mask)
        ∧ ∀ a, Config.inRegions regions a = true → rowsKeep s.cfg.encFull post r a 0xFF = true →
          memReadOpt F a = some (if a = o then mask else 0x00))
      ∧ (∀ name o v, m = .txt name → (name, .byte o v) ∈ table →
        (rowsKeep s.cfg.encFull post r o 0xFF = true → memReadOpt F o = some v)
        ∧ ∀ a, Config.inRegions regions a = true → a ≠ o → rowsKeep s.cfg.encFull post r a 0xFF = true →
          memReadOpt F a = some 0x00)
      ∧ ((∀ e ∈ table, m ≠ .txt e.1) →
        ∀ a, Config.inRegions regions a = true → rowsKeep s.cfg.encFull post r a 0xFF = true → memReadOpt F a = some 0x00)
      ∧ (m = .txt (ascii "summer") → rowsKeep s.cfg.encFull post r 13 0xFF = true →
        rowsKeep s.cfg.encFull post r 14 0xFF = true → memReadOpt F 13 = some 0x04 ∧ memReadOpt F 14 = some 0x00)

/-- A numeric field is copied verbatim into its byte: the control value, or, where the row falls back and there is no control
value, the status value; and a numeric control value of a row with `clears_mode` clears what every entry of the `MODE` table
stands for (43_fieldmap.md R120). Both at the offsets that no later row changes. Said of TX_FULL whatever the request selects
(log 4). -/
def Obligations.NumericFieldIsCopied : Prop :=
  ∀ (s : State) (r : Request) (pre post : List EncRow) (name : Str) (off : Nat) (fallback clearsMode : Bool),
    s.cfg.wellFormed = true → s.rq = some r → fullFits s.cfg r = true →
    s.cfg.encFull = pre ++ .numf name off fallback clearsMode :: post →
    ∃ F, exec .txFull s = .next (frameOf s F)
      ∧ (rowsKeep s.cfg.encFull post r off 0xFF = true →
        (∀ n, r.controlField name = some (.num n) → (memReadOpt F off).map BitVec.toNat = some n)
        ∧ (∀ n, r.controlField name = none → fallback = true → r.statusField name = some (.num n) →
          (memReadOpt F off).map BitVec.toNat = some n))
      ∧ (∀ n regions table, r.controlField name = some (.num n) → clearsMode = true → .mode regions table ∈ s.cfg.encFull →
        ∀ modeName,
          (∀ o mask, (modeName, .bit o mask) ∈ table → o ≠ off → rowsKeep s.cfg.encFull post r o mask = true →
            ∃ b, memReadOpt F o = some b ∧ b &&& mask = 0x00)
          ∧ (∀ o v, (modeName, .byte o v) ∈ table → o ≠ off → rowsKeep s.cfg.encFull post r o 0xFF = true →
            memReadOpt F o = some 0x00))

/-- `control.heat` sets the bits it names and clears the others (43_fieldmap.md R119), where no later row changes them: at two
offsets, each on its own; at one offset, the bits of both masks together, which may overlap. Said of TX_FULL whatever the
request selects (log 4). -/
def Obligations.HeatControlSetsTheNamedBits : Prop :=
  ∀ (s : State) (r : Request) (pre post : List EncRow) (halfOff wholeOff : Nat) (halfMask wholeMask : Byte) (h : Val),
    s.cfg.wellFormed = true → s.rq = some r → fullFits s.cfg r = true →
    s.cfg.encFull = pre ++ .heat halfOff halfMask wholeOff wholeMask :: post → r.controlField (ascii "heat") = some h →
    rowsKeep s.cfg.encFull post r halfOff halfMask = true → rowsKeep s.cfg.encFull post r wholeOff wholeMask = true →
    ∃ F b c, exec .txFull s = .next (frameOf s F) ∧ memReadOpt F halfOff = some b ∧ memReadOpt F wholeOff = some c
      ∧ (halfOff ≠ wholeOff →
        b &&& halfMask = (if h = .txt (ascii "half") then halfMask else 0x00)
        ∧ c &&& wholeMask = (if h = .txt (ascii "whole") then wholeMask else 0x00))
      ∧ (halfOff = wholeOff → b &&& (halfMask ||| wholeMask)
        = if h = .txt (ascii "half") then halfMask else if h = .txt (ascii "whole") then wholeMask else 0x00)

/-- The appointment frame of slot `i`, for TX_APPOINT0, TX_APPOINT1 and TX_APPOINT2 (44_assembler.md R155, R156): over the
frame `G` of the shape that lies under it, the subtype, the enable byte, which is `FF` exactly for the first field "1", and
the other fields as bytes from offset 13; `L` grows to `12 + k` and never shrinks, and the bytes above `12 + k` stay those of
`G` (R59). An overlay whose value is no text, has a field that is no numeral of a byte, or has more than eight such fields
is refused by name (an absent value is no text: log 4; the order of the last two: log 19). That the enable
byte stands at offset 12, and at most eight fields follow, is the spec's own choice D16 (log 6). TX_APPOINT<i> does this
whatever later slots or a query the request holds (log 4). -/
def Obligations.AppointmentFrame : Prop :=
  ∀ (s : State) (r : Request) (i : Fin 3),
    s.cfg.wellFormed = true → s.rq = some r → baseFits s.cfg r = true → (∀ j, j < i → slotFits r j = true) →
    (∀ (row : Instr) (first : Str) (ds : List Byte),
      r.controlField (slotName i) = some (.txt (apptText first (ds.map decText))) → 0x2C ∉ first → ds.length ≤ 8 →
      liesUnder s.cfg r i row →
      ∃ G F, exec row s = .next (frameOf s G) ∧ exec (apptRow i) s = .next (frameOf s F)
        ∧ headerOf F (max (G.length - 1) (12 + ds.length))
        ∧ memReadOpt F 10 = some 0x02 ∧ memReadOpt F 11 = some (BitVec.ofNat 8 (5 + i.val))
        ∧ memReadOpt F 12 = some (if first = ascii "1" then 0xFF else 0x00)
        ∧ (∀ j d, ds[j]? = some d → memReadOpt F (13 + j) = some d)
        ∧ ∀ a, 12 + ds.length < a → a < F.length → memReadOpt F a = memReadOpt G a)
    ∧ ((∀ t, r.controlField (slotName i) ≠ some (.txt t)) → exec (apptRow i) s = .refused .apptValue)
    ∧ (∀ (first : Str) (fields : List Str), r.controlField (slotName i) = some (.txt (apptText first fields)) →
      0x2C ∉ first → (∀ f ∈ fields, 0x2C ∉ f) →
      ((∃ f ∈ fields, ∀ d, f ≠ decText d) → exec (apptRow i) s = .refused .apptField)
      ∧ (8 < fields.length → (∀ f ∈ fields, ∃ d, f = decText d) → exec (apptRow i) s = .refused .apptLong))

/-- The postconditions of every ASSEMBLE that completes with a frame (44_assembler.md R161). -/
def Obligations.AssembledFramePostconditions : Prop :=
  ∀ s t : State, exec .assemble s = .next t → t.res = some .ok →
    ∃ F, t.rSeq = some F ∧ 13 ≤ F.length ∧ F.length ≤ 256 ∧ headerOf F (F.length - 1)
      ∧ (memReadOpt F 10 = some 0x02 ∨ memReadOpt F 10 = some 0x03)
      ∧ memReadOpt F F.length = some (cksum F 2 (F.length - 1))
      ∧ byteSum F 2 F.length % 256 = 0

/-- ASSEMBLE has a result exactly on the requests whose values fit: a frame when a query or control section is present and
every value that is looked at fits (44_assembler.md R141, R143, R152, R155, R162; 60_exceptions.md R208); otherwise a refusal
with one of four reasons, `NUM_RANGE` where it is a number that does not fit. -/
def Obligations.AssembleCompletesExactlyWhenValuesFit : Prop :=
  ∀ (s : State) (r : Request), s.cfg.wellFormed = true → s.rq = some r →
    (encodable s.cfg r = true → r.query.isSome ∨ r.control.isSome → ∃ F, exec .assemble s = .next (frameOf s F))
    ∧ (encodable s.cfg r = false →
      ∃ e ∈ [Refusal.numRange, .apptValue, .apptField, .apptLong], exec .assemble s = .refused e)
    ∧ (r.query = none → r.control.isSome → baseFits s.cfg r = false → exec .assemble s = .refused .numRange)

/-! ### PARSE -/

/-- PARSE always completes with `RES = OK` (45_parser.md R184). -/
def Obligations.ParseAlwaysCompletes : Prop :=
  ∀ (s : State) (S : List Byte), s.cfg.wellFormed = true → s.aSeq = some S → S.length ≤ 256 →
    ∃ d, exec .parse s = .next (okWith s none none none none (some d))

/-- The ten frame shapes accepted (RX_STATUS_0201, 0202, 0204, 0214, 0301, 0401, RX_APPT_0205, 0206, 0207, 0302) complete
with the document of their shape, whatever bytes 10 and 11 hold (log 4). It holds `version` (45_parser.md R170, R173, R176),
in a status report unless a row of `DEC_STATUS` is named so, which log 18 allows. -/
def Obligations.ReceivedShapesComplete : Prop :=
  ∀ (s : State) (S : List Byte), s.cfg.wellFormed = true → s.aSeq = some S → S.length ≤ 256 →
    (∀ i ∈ statusRows, exec i s = .next (okWith s none none none none (some (parseStatus s.cfg S))))
    ∧ (∀ i ∈ appointmentRows, exec i s = .next (okWith s none none none none (some (parseAppointments s.cfg S))))
    ∧ docGet (parseAppointments s.cfg S) (ascii "version") = some (.num s.cfg.version)
    ∧ (ascii "version" ∉ Config.decNames s.cfg.decStatus →
      docGet (parseStatus s.cfg S) (ascii "version") = some (.num s.cfg.version))

/-- An input of fewer than 11 bytes, or of none of the ten pairs, gives `version` only (45_parser.md R172). -/
def Obligations.UnknownPairGivesVersionOnly : Prop :=
  ∀ (s : State) (S : List Byte), s.cfg.wellFormed = true → s.aSeq = some S → S.length ≤ 256 →
    (S.length < 11 ∨ ∀ c d, memReadOpt S 10 = some c → memReadOpt S 11 = some d →
      (c.toNat, d.toNat) ∉ [(0x02, 0x01), (0x02, 0x02), (0x02, 0x04), (0x02, 0x14), (0x03, 0x01), (0x04, 0x01),
        (0x02, 0x05), (0x02, 0x06), (0x02, 0x07), (0x03, 0x02)]) →
    exec .parse s = .next (okWith s none none none none (some [(ascii "version", .num s.cfg.version)]))

/-- Every `FLAG`, `ENUM` and `NUM` row of `DEC_STATUS` whose byte is present writes its own field as its rule says
(43_fieldmap.md R122, R123, R124); `power` is bit `0x01` of offset 13 (R128). -/
def Obligations.StatusFieldsFollowTheirRows : Prop :=
  ∀ (cfg : Config) (S : List Byte), cfg.wellFormed = true →
    (∀ name off mask pat vSet vClr modeName b, .flag name off mask pat vSet vClr modeName ∈ cfg.decStatus →
      memReadOpt S off = some b →
      docGet (parseStatus cfg S) name = some (.txt (if b &&& mask = pat then vSet else vClr)))
    ∧ (∀ name off mask patterns vFallback b, .enum name off mask patterns vFallback ∈ cfg.decStatus →
      memReadOpt S off = some b →
      (∀ p text, (p, text) ∈ patterns → b &&& mask = p → docGet (parseStatus cfg S) name = some (.txt text))
      ∧ ((∀ p text, (p, text) ∈ patterns → b &&& mask ≠ p) → docGet (parseStatus cfg S) name = some (.txt vFallback)))
    ∧ (∀ name off b, .num name off ∈ cfg.decStatus → memReadOpt S off = some b →
      docGet (parseStatus cfg S) name = some (.num b.toNat))
    ∧ (∀ b, memReadOpt S 13 = some b →
      docGet (parseStatus cfg S) (ascii "power") = some (.txt (if b &&& 0x01 = 0x01 then ascii "on" else ascii "off")))

/-- `mode` is the mode name of the last row whose flag is set, and is omitted when none is (45_parser.md R174). -/
def Obligations.ModeNamesTheLastFlagSet : Prop :=
  ∀ (cfg : Config) (S : List Byte), cfg.wellFormed = true →
    docGet (parseStatus cfg S) (ascii "mode")
      = ((cfg.decStatus.filterMap (raisedMode S)).getLast?).map Val.txt

/-- A field whose byte lies beyond the input is omitted (45_parser.md R175, R173). -/
def Obligations.AbsentByteOmitsTheField : Prop :=
  ∀ (cfg : Config) (S : List Byte) (row : DecRow) (name : Str), cfg.wellFormed = true → row ∈ cfg.decStatus →
    Config.decNames [row] = [name] → (∀ off ∈ Config.decOffsets row, S.length < off) → name ≠ ascii "version" →
    docGet (parseStatus cfg S) name = none

/-- `heat` follows the two raw fields, is omitted when either is, and is one of two texts when both are on (43_fieldmap.md
R125, 45_parser.md R179; the free choice is log 10). -/
def Obligations.HeatFollowsTheRawBits : Prop :=
  ∀ (cfg : Config) (S : List Byte), cfg.wellFormed = true →
    match docGet (parseStatus cfg S) (ascii "half_heat"), docGet (parseStatus cfg S) (ascii "whole_heat"),
      docGet (parseStatus cfg S) (ascii "heat") with
    | some h, some w, heat =>
      (w = .txt (ascii "on") → h ≠ .txt (ascii "on") → heat = some (.txt (ascii "whole")))
      ∧ (h = .txt (ascii "on") → w ≠ .txt (ascii "on") → heat = some (.txt (ascii "half")))
      ∧ (h ≠ .txt (ascii "on") → w ≠ .txt (ascii "on") → heat = some (.txt (ascii "none")))
      ∧ (h = .txt (ascii "on") → w = .txt (ascii "on") →
        heat = some (.txt (ascii "whole")) ∨ heat = some (.txt (ascii "half")))
    | _, _, heat => heat = none

/-- The three schedule records: text `"<enabled>,<b1>,<b2>,<b3>,<b4>"` when all five bytes are there, omitted whole when one
is not (45_parser.md R176, R177, R178; the free choice is log 11). -/
def Obligations.ScheduleRecords : Prop :=
  ∀ (cfg : Config) (S : List Byte) (i : Fin 3),
    (∀ e b1 b2 b3 b4, memReadOpt S (12 + 5 * i.val) = some e → memReadOpt S (13 + 5 * i.val) = some b1 →
      memReadOpt S (14 + 5 * i.val) = some b2 → memReadOpt S (15 + 5 * i.val) = some b3 →
      memReadOpt S (16 + 5 * i.val) = some b4 →
      ∃ x, docGet (parseAppointments cfg S) (slotName i) = some (.txt (joined x b1 b2 b3 b4))
        ∧ (e = 0xFF → x = ascii "1") ∧ (e = 0x00 → x = ascii "0") ∧ (x = ascii "1" ∨ x = ascii "0"))
    ∧ (S.length < 16 + 5 * i.val → docGet (parseAppointments cfg S) (slotName i) = none)

/-- PARSE does not read the nine header bytes, the length byte among them (45_parser.md R180). -/
def Obligations.HeaderIsNotRead : Prop :=
  ∀ (s : State) (H H' P : List Byte), s.cfg.wellFormed = true → H.length = 9 → H'.length = 9 → P.length ≤ 247 →
    ∃ d, exec .parse { s with aSeq := some (H ++ P) } = .next (okWith { s with aSeq := some (H ++ P) } none none none none (some d))
      ∧ exec .parse { s with aSeq := some (H' ++ P) }
        = .next (okWith { s with aSeq := some (H' ++ P) } none none none none (some d))

/-- The appointment round trip the source demands (95_test_vectors.md V8): an appointment sent in slot 0 is read back from
the frame, over whatever shape lies underneath. With four data fields it is the text that was sent, with more its first four;
with fewer the missing bytes are those the frame holds, and the record is omitted when the frame ends before them. -/
def Obligations.AppointmentRoundTrip : Prop :=
  ∀ (s : State) (r : Request) (e : Str) (ds : List Byte),
    s.cfg.wellFormed = true → s.rq = some r → r.query = none → r.control.isSome → baseFits s.cfg r = true →
    e = ascii "1" ∨ e = ascii "0" → ds.length ≤ 8 →
    r.controlField (slotName 0) = some (.txt (apptText e (ds.map decText))) → r.controlField (slotName 1) = none →
    r.controlField (slotName 2) = none →
    ∃ F d, exec .assemble s = .next (frameOf s F)
      ∧ exec .parse { frameOf s F with aSeq := some F }
        = .next (okWith { frameOf s F with aSeq := some F } none none none none (some d))
      ∧ (∀ b1 b2 b3 b4 more, ds = b1 :: b2 :: b3 :: b4 :: more →
        docGet d (slotName 0) = some (.txt (joined e b1 b2 b3 b4)))
      ∧ (∀ b1 b2 b3 b4, memReadOpt F 13 = some b1 → memReadOpt F 14 = some b2 → memReadOpt F 15 = some b3 →
        memReadOpt F 16 = some b4 → docGet d (slotName 0) = some (.txt (joined e b1 b2 b3 b4)))
      ∧ (∀ j b, ds[j]? = some b → memReadOpt F (13 + j) = some b)
      ∧ (F.length < 16 → docGet d (slotName 0) = none)

/-! ### ENCODE and DECODE -/

/-- ENCODE is ASSEMBLE followed by the hex encoding, with `NULL` and refusals passed on (46_entry_points.md R195, R197). That
`R_SEQ` then has no value is log 8's reading, that the frame buffer holds the frame log 24's. -/
def Obligations.EncodeIsAssembleThenHex : Prop :=
  decode .op 0x8 = .ok .encode ∧
  ∀ s : State, s.aOk = some true →
    (∀ F, exec .assemble s = .next (frameOf s F) →
      exec .encode s = .next { okWith s none none none (some (bytesToHexString F)) none with fb := FrameBuffer.ofSeq F })
    ∧ (∀ t, exec .assemble s = .next t → t.res = some .null → exec .encode s = .next t)
    ∧ (∀ e, exec .assemble s = .refused e → exec .encode s = .refused e)

/-- ENCODE completes on every request ASSEMBLE has a frame for, with the hex string of that frame (46_entry_points.md R195).
That `R_SEQ` then has no value is log 8's reading, that the frame buffer holds the frame log 24's. -/
def Obligations.EncodeCompletes : Prop :=
  ∀ (s : State) (r : Request), s.cfg.wellFormed = true → s.aOk = some true → s.rq = some r →
    encodable s.cfg r = true → r.query.isSome ∨ r.control.isSome →
    ∃ F, exec .assemble s = .next (frameOf s F)
      ∧ exec .encode s = .next { okWith s none none none (some (bytesToHexString F)) none with fb := FrameBuffer.ofSeq F }

/-- `A_OK = 0` gives `NULL` before anything else is looked at, and so does a report without `msg.data` in DECODE
(46_entry_points.md R196, R199; what `NULL` leaves alone is log 7's reading, that it also holds when RQ or A_STR was never
written log 12's). HEX2BYTES and RAW2BYTES complete on that absent
string too, with a sequence the spec does not state: the model's choice, log 13. -/
def Obligations.AbsentInputCompletes : Prop :=
  ∀ s : State,
    (s.aOk = some false → exec .encode s = .next (nullOf s) ∧ exec .decode s = .next (nullOf s))
    ∧ (s.aOk = some true → s.aStr = some none → exec .decode s = .next (nullOf s))
    ∧ (s.aStr = some none → (∃ R, exec .hex2bytes s = .next (okWith s none none (some R) none none))
      ∧ ∃ R, exec .raw2bytes s = .next (okWith s none none (some R) none none))

/-- DECODE is HEX2BYTES followed by PARSE; a string of more than `FB_MAX` bytes is refused (46_entry_points.md R198, R200),
and so are a character that is no hex digit and, after both checks, an ill-formed configuration (43_fieldmap.md R131; the
order, log 21). That `R_SEQ` then has no value is log 8's reading, that the limit counts bytes log 14's. -/
def Obligations.DecodeIsHexThenParse : Prop :=
  decode .op 0x9 = .ok .decode ∧
  ∀ (s : State) (T : Str), s.aOk = some true → s.aStr = some (some T) →
    (∀ S, exec .hex2bytes s = .next (okWith s none none (some S) none none) →
      (∀ d, exec .parse { s with aSeq := some S } = .next (okWith { s with aSeq := some S } none none none none (some d)) →
        exec .decode s = .next (okWith s none none none none (some d)))
      ∧ (256 < S.length → exec .decode s = .refused .seqLong)
      ∧ (S.length ≤ 256 → s.cfg.wellFormed = false → exec .decode s = .refused .badConfig))
    ∧ (exec .hex2bytes s = .refused .nonHexChar → exec .decode s = .refused .nonHexChar)

/-- DECODE completes on every string of hex digits that is not too long (46_entry_points.md R198): 513 characters give 256
bytes, and the limit of R200 counts bytes (log 14). That `R_SEQ` then has no value is log 8's reading. -/
def Obligations.DecodeCompletes : Prop :=
  ∀ (s : State) (T : Str), s.cfg.wellFormed = true → s.aOk = some true → s.aStr = some (some T) → T.length ≤ 513 →
    (∀ c ∈ paired T, (hexVal c).isSome) →
    ∃ d, exec .decode s = .next (okWith s none none none none (some d))
end

