-- ==== Sys2Proof/Laws/Memory.lean ====
section
/-! SUPPORT. Memory: reading after a write, the canonical form, and memories that hold a run of bytes. -/

namespace Sys2Proof.Machine

/-- A byte reads as it was last written, and a write leaves every other address alone. -/
theorem Memory.read_write (m : Memory) (a b : Nat) (v : Byte) :
    (m.write a v).read b = if b = a then some v else m.read b := by
  induction m with
  | nil => simp only [Memory.write, Memory.read, @eq_comm _ a b]
  | cons c rest ih =>
    simp only [Memory.write]
    split
    · rename_i h; subst h; by_cases hb : b = c.1 <;> simp [Memory.read, hb, eq_comm]
    · split
      · simp only [Memory.read, @eq_comm _ a b]
      · by_cases hc : c.1 = b
        · have : b ≠ a := by omega
          simp [Memory.read, hc, this]
        · simp [Memory.read, hc, ih]

@[simp] theorem Memory.read_write_same (m : Memory) (a : Nat) (v : Byte) : (m.write a v).read a = some v := by
  simp [Memory.read_write]

theorem Memory.read_write_other (m : Memory) {a b : Nat} (v : Byte) (h : b ≠ a) : (m.write a v).read b = m.read b := by
  simp [Memory.read_write, h]

/-- The addresses after a write are those before and the one written. -/
theorem Memory.mem_write {m : Memory} {a : Nat} {v : Byte} {c : Host.Cell} (h : c ∈ m.write a v) :
    c = (a, v) ∨ c ∈ m := by
  induction m with
  | nil => simp_all [Memory.write]
  | cons d rest ih =>
    simp only [Memory.write] at h
    split at h
    · simp at h; rcases h with h | h <;> simp [h]
    · split at h
      · simp at h; rcases h with h | h | h <;> simp [h]
      · simp at h
        rcases h with h | h
        · simp [h]
        · rcases ih h with h | h <;> simp [h]

/-- A write keeps the canonical form. -/
theorem Memory.write_wf {m : Memory} (h : Memory.wf m) (a : Nat) (v : Byte) : Memory.wf (m.write a v) := by
  induction m with
  | nil => simp [Memory.write, Memory.wf]
  | cons c rest ih =>
    simp only [Memory.wf, List.pairwise_cons] at h
    simp only [Memory.write]
    split
    · rename_i hc; subst hc; exact List.pairwise_cons.mpr ⟨h.1, h.2⟩
    · split
      · rename_i _ hlt
        refine List.pairwise_cons.mpr ⟨?_, List.pairwise_cons.mpr ⟨h.1, h.2⟩⟩
        intro d hd
        simp at hd
        rcases hd with rfl | hd
        · exact hlt
        · exact Nat.lt_trans hlt (h.1 d hd)
      · refine List.pairwise_cons.mpr ⟨?_, ih h.2⟩
        intro d hd
        rcases Memory.mem_write hd with rfl | hd
        · simp; omega
        · exact h.1 d hd

/-- The memory after reset is in canonical form. -/
theorem reset_memory_wf : Memory.wf State.reset.fb.cells := List.Pairwise.nil

/-! ### Memories that hold a run of bytes -/

/-- Reading a run of bytes that starts at address `k`. -/
theorem Memory.read_run (F : List Byte) (k a : Nat) :
    Memory.read ((List.range' k F.length).zip F) a = if a < k then none else F[a - k]? := by
  induction F generalizing k with
  | nil => simp [Memory.read]
  | cons v rest ih =>
    simp only [List.length_cons, List.range'_succ, List.zip_cons_cons, Memory.read]
    by_cases h : k = a
    · subst h; simp
    · simp only [h, if_false, ih]
      by_cases hlt : a < k
      · have : a < k + 1 := by omega
        simp [hlt, this]
      · have h1 : ¬ a < k + 1 := by omega
        have h2 : a - k = (a - (k + 1)) + 1 := by omega
        simp [hlt, h1, h2]

/-- Writing inside a run of bytes replaces one byte. -/
theorem Memory.write_run_inside (F : List Byte) (k a : Nat) (v : Byte) (h : k ≤ a) (h' : a < k + F.length) :
    Memory.write ((List.range' k F.length).zip F) a v = (List.range' k F.length).zip (F.set (a - k) v) := by
  induction F generalizing k with
  | nil => simp at h'; omega
  | cons w rest ih =>
    simp only [List.length_cons, List.range'_succ, List.zip_cons_cons, Memory.write]
    by_cases hk : k = a
    · subst hk; simp
    · have h1 : ¬ a < k := by omega
      have h2 : a - k = (a - (k + 1)) + 1 := by omega
      simp only [hk, if_false, h1, h2, List.set_cons_succ, List.zip_cons_cons]
      rw [ih (k + 1) (by omega) (by simp at h'; omega)]

/-- Writing right after a run of bytes appends one byte. -/
theorem Memory.write_run_append (F : List Byte) (k : Nat) (v : Byte) :
    Memory.write ((List.range' k F.length).zip F) (k + F.length) v
      = (List.range' k (F.length + 1)).zip (F ++ [v]) := by
  induction F generalizing k with
  | nil => simp [Memory.write]
  | cons w rest ih =>
    simp only [List.length_cons, List.range'_succ, List.zip_cons_cons, Memory.write]
    have h1 : ¬ k = k + (rest.length + 1) := by omega
    have h2 : ¬ k + (rest.length + 1) < k := by omega
    have h3 := ih (k + 1)
    rw [show k + 1 + rest.length = k + (rest.length + 1) by omega] at h3
    simp only [h1, h2, if_false, h3, List.range'_succ, List.cons_append, List.zip_cons_cons]

end Sys2Proof.Machine
end

