-- ==== Sys2Proof/Laws/Stops.lean ====
section
/-! SUPPORT. Operations that may stop: sequencing, the outcome of an operation, and the reads of operand latches. -/

namespace Sys2Proof.Machine

variable {α β : Type}

@[simp] theorem bind_ok (a : α) (f : α → Except Stop β) : (Except.ok a >>= f) = f a := rfl

@[simp] theorem bind_error (e : Stop) (f : α → Except Stop β) : ((Except.error e : Except Stop α) >>= f) = .error e := rfl

@[simp] theorem pure_eq_ok (a : α) : (pure a : Except Stop α) = .ok a := rfl

@[simp] theorem bind_refuse (r : Refusal) (f : α → Except Stop β) : ((refuse r : Except Stop α) >>= f) = refuse r := rfl

@[simp] theorem refuse_ne_ok (r : Refusal) (a : α) : (refuse r : Except Stop α) ≠ .ok a := by simp [refuse]

@[simp] theorem refuse_inj (r r' : Refusal) : ((refuse r : Except Stop α) = refuse r') ↔ r = r' := by simp [refuse]

/-- A sequence answers exactly when its first part does and the rest does on that answer. -/
theorem bind_eq_ok {x : Except Stop α} {f : α → Except Stop β} {b : β} :
    (x >>= f) = .ok b ↔ ∃ a, x = .ok a ∧ f a = .ok b := by
  cases x <;> simp

/-- A sequence stops exactly when its first part does, or the rest does on its answer. -/
theorem bind_eq_error {x : Except Stop α} {f : α → Except Stop β} {e : Stop} :
    (x >>= f) = .error e ↔ x = .error e ∨ ∃ a, x = .ok a ∧ f a = .error e := by
  cases x <;> simp

@[simp] theorem runOp_ok (s : State) : runOp (.ok s) = .next s := rfl

@[simp] theorem runOp_refuse (r : Refusal) : runOp (refuse r) = .refused r := rfl

@[simp] theorem runOp_fault (f : Fault) : runOp (.error (.fault f)) = .fault f := rfl

theorem runOp_eq_next {x : Except Stop State} {s : State} : runOp x = .next s ↔ x = .ok s := by
  rcases x with e | a
  · cases e <;> simp [runOp, Stop.outcome]
  · simp [runOp]

theorem runOp_eq_refused {x : Except Stop State} {r : Refusal} : runOp x = .refused r ↔ x = refuse r := by
  rcases x with e | a
  · cases e <;> simp [runOp, Stop.outcome, refuse]
  · simp [runOp, refuse]

theorem runOp_eq_fault {x : Except Stop State} {f : Fault} : runOp x = .fault f ↔ x = .error (.fault f) := by
  rcases x with e | a
  · cases e <;> simp [runOp, Stop.outcome]
  · simp [runOp]

@[simp] theorem applyIf_true (g : FrameBuffer → Except Stop FrameBuffer) (fb : FrameBuffer) : applyIf true g fb = g fb := rfl

@[simp] theorem applyIf_false (g : FrameBuffer → Except Stop FrameBuffer) (fb : FrameBuffer) :
    applyIf false g fb = .ok fb := rfl

@[simp] theorem operand_some (a : α) : operand (some a) = .ok a := rfl

@[simp] theorem operand_none : operand (none : Option α) = refuse .unwrittenOperand := rfl

/-- An operand latch answers its value, or the operation is refused. -/
theorem operand_eq_ok {x : Option α} {a : α} : operand x = .ok a ↔ x = some a := by cases x <;> simp [operand]

theorem checkLength_of_le {S : List Byte} (h : S.length ≤ Config.fbMax) : checkLength S = .ok S := by
  simp [checkLength, Nat.not_lt.mpr h]

theorem checkLength_of_lt {S : List Byte} (h : Config.fbMax < S.length) : checkLength S = refuse .seqLong := by
  simp [checkLength, h]

/-- A length check answers the sequence itself, and only when it is no longer than `FB_MAX`. -/
theorem checkLength_eq_ok {S T : List Byte} : checkLength S = .ok T ↔ T = S ∧ S.length ≤ Config.fbMax := by
  unfold checkLength
  split
  · simp only [refuse, reduceCtorEq, false_iff]; omega
  · rename_i h; simp [eq_comm, Nat.not_lt.mp h]

/-- `A_SEQ` answers its value when it has one that is no longer than `FB_MAX`. -/
theorem readSeq_eq_ok {s : State} {S : List Byte} :
    s.readSeq = .ok S ↔ s.aSeq = some S ∧ S.length ≤ Config.fbMax := by
  unfold State.readSeq
  cases h : s.aSeq with
  | none => simp [refuse]
  | some T =>
    simp only [operand_some, checkLength_eq_ok, Option.some.injEq]
    constructor
    · rintro ⟨rfl, hl⟩; exact ⟨rfl, hl⟩
    · rintro ⟨rfl, hl⟩; exact ⟨rfl, hl⟩

@[simp] theorem checkConfig_of_wellFormed {cfg : Config} (h : cfg.wellFormed = true) : checkConfig cfg = .ok () := by
  simp [checkConfig, h]

theorem checkConfig_of_illFormed {cfg : Config} (h : cfg.wellFormed = false) : checkConfig cfg = refuse .badConfig := by
  simp [checkConfig, h]

theorem checkConfig_eq_ok {cfg : Config} {u : Unit} : checkConfig cfg = .ok u ↔ cfg.wellFormed = true := by
  unfold checkConfig
  split <;> simp_all

theorem numByte_of_le {n : Nat} (h : n ≤ 255) : numByte n = .ok (BitVec.ofNat 8 n) := by simp [numByte, h]

/-- A numeric value becomes its byte, or it is above 255 and the operation is refused. -/
theorem numByte_cases (n : Nat) :
    (n ≤ 255 ∧ numByte n = .ok (BitVec.ofNat 8 n)) ∨ (255 < n ∧ numByte n = refuse .numRange) := by
  unfold numByte
  split
  · exact .inl ⟨‹_›, rfl⟩
  · exact .inr ⟨by omega, rfl⟩

end Sys2Proof.Machine
end

