-- ==== Sys2Proof/Laws/FrameBuffer.lean ====
section
/-! SUPPORT. The frame buffer as a list of bytes: on a buffer that holds exactly the bytes `F`, every access is one on `F`. -/

namespace Sys2Proof.Machine

/-- The bytes after `FBSet(off, v)`: one byte more, or one byte replaced. -/
def putAt (F : List Byte) (off : Nat) (v : Byte) : List Byte :=
  if off = F.length + 1 then F ++ [v] else F.set (off - 1) v

@[simp] theorem ofSeq_len (F : List Byte) : (FrameBuffer.ofSeq F).len = F.length := rfl

theorem ofSeq_read (F : List Byte) (a : Nat) : (FrameBuffer.ofSeq F).cells.read a = memReadOpt F a := by
  simp only [FrameBuffer.ofSeq, Memory.read_run, memReadOpt]
  by_cases h : a = 0
  · simp [h]
  · have : ¬ a < 1 := by omega
    simp [h, this]

theorem ofSeq_seq (F : List Byte) : (FrameBuffer.ofSeq F).seq = F := by
  have h : ∀ (G : List Byte) (k : Nat), (List.range' k G.length).filterMap (fun a => if a < k then none else G[a - k]?) = G := by
    intro G
    induction G with
    | nil => simp
    | cons v rest ih =>
      intro k
      simp only [List.length_cons, List.range'_succ, List.filterMap_cons]
      simp only [Nat.lt_irrefl, if_false, Nat.sub_self, List.getElem?_cons_zero]
      congr 1
      conv => rhs; rw [← ih (k + 1)]
      apply List.filterMap_congr
      intro a ha
      have ha' := List.mem_range'.mp ha
      obtain ⟨i, hi, rfl⟩ := ha'
      have h1 : ¬ k + 1 + 1 * i < k := by omega
      have h2 : ¬ k + 1 + 1 * i < k + 1 := by omega
      have h3 : k + 1 + 1 * i - k = (k + 1 + 1 * i - (k + 1)) + 1 := by omega
      simp only [h1, h2, if_false, h3, List.getElem?_cons_succ]
  have h1 := h F 1
  simp only [FrameBuffer.seq, ofSeq_len]
  rw [show (FrameBuffer.ofSeq F).cells.read = fun a => if a < 1 then none else F[a - 1]? by
    funext a; simp only [FrameBuffer.ofSeq, Memory.read_run]]
  exact h1

/-- Exactly the buffers that hold the bytes of a sequence of at most `FB_MAX` bytes are well formed. -/
theorem FrameBuffer.wf_iff (fb : FrameBuffer) : fb.wf ↔ ∃ F, fb = .ofSeq F ∧ F.length ≤ Config.fbMax := by
  constructor
  · rintro ⟨h, hl⟩
    have hlen : fb.cells.length = fb.len := by simpa using congrArg List.length h
    refine ⟨fb.cells.map Prod.snd, ?_, by simpa [hlen] using hl⟩
    cases fb with
    | mk cells len =>
      simp only at h hlen
      subst hlen
      simp only [FrameBuffer.ofSeq, List.length_map, FrameBuffer.mk.injEq, and_true]
      rw [← h]
      exact (List.zip_map' ..).symm ▸ by simp
  · rintro ⟨F, rfl, hl⟩
    refine ⟨?_, hl⟩
    simp [FrameBuffer.ofSeq, List.map_fst_zip]

theorem ofSeq_wf {F : List Byte} (h : F.length ≤ Config.fbMax) : (FrameBuffer.ofSeq F).wf :=
  (FrameBuffer.wf_iff _).mpr ⟨F, rfl, h⟩

/-- A well-formed buffer's cells are in canonical form. -/
theorem FrameBuffer.wf_cells {fb : FrameBuffer} (h : fb.wf) : Memory.wf fb.cells := by
  have := List.pairwise_lt_range' (s := 1) (n := fb.len)
  rw [← h.1] at this
  exact List.pairwise_map.mp this

/-- `FB[off]` where it has a value. -/
theorem ofSeq_get {F : List Byte} {off : Nat} {b : Byte} (h : memReadOpt F off = some b) :
    (FrameBuffer.ofSeq F).get off = .ok b := by
  have h0 : off ≠ 0 := by rintro rfl; simp [memReadOpt] at h
  have h1 : ¬ F.length < off := by
    simp only [memReadOpt, h0, if_false] at h
    have := (List.getElem?_eq_some_iff.mp h).1
    omega
  simp only [FrameBuffer.get, h0, if_false, ofSeq_len, h1, ofSeq_read, h]

/-- `FBSet(off, v)` at an offset that exists: the buffer then holds `putAt F off v`. -/
theorem ofSeq_set {F : List Byte} {off : Nat} (v : Byte) (h0 : 1 ≤ off) (h1 : off ≤ F.length + 1)
    (h2 : off ≤ Config.fbMax) : (FrameBuffer.ofSeq F).set off v = .ok (.ofSeq (putAt F off v)) := by
  have e0 : off ≠ 0 := by omega
  have e1 : ¬ F.length + 1 < off := by omega
  have e2 : ¬ Config.fbMax < off := by omega
  simp only [FrameBuffer.set, e0, e1, e2, if_false, ofSeq_len, putAt]
  by_cases h : off = F.length + 1
  · subst h
    have := Memory.write_run_append F 1 v
    rw [Nat.add_comm 1 F.length] at this
    simp [FrameBuffer.ofSeq, this]
  · have := Memory.write_run_inside F 1 off v h0 (by omega)
    simp [FrameBuffer.ofSeq, h, this]

/-- All that `FBSet` can do (20_memory.md R33): it writes one byte at an offset from 1 to LEN + 1, or it stops. -/
theorem ofSeq_set_eq_ok {F : List Byte} {off : Nat} {v : Byte} {fb : FrameBuffer}
    (h : (FrameBuffer.ofSeq F).set off v = .ok fb) :
    1 ≤ off ∧ off ≤ F.length + 1 ∧ off ≤ Config.fbMax ∧ fb = .ofSeq (putAt F off v) := by
  have h0 : off ≠ 0 := by rintro rfl; simp [FrameBuffer.set] at h
  have h1 : ¬ F.length + 1 < off := fun hh => by simp [FrameBuffer.set, h0, hh] at h
  have h2 : ¬ Config.fbMax < off := fun hh => by simp [FrameBuffer.set, h0, h1, hh] at h
  have h3 := ofSeq_set (F := F) v (by omega) (Nat.not_lt.mp h1) (Nat.not_lt.mp h2)
  rw [h] at h3
  exact ⟨by omega, Nat.not_lt.mp h1, Nat.not_lt.mp h2, by simpa using h3⟩

theorem putAt_append (F : List Byte) (v : Byte) : putAt F (F.length + 1) v = F ++ [v] := by simp [putAt]

theorem putAt_inside {F : List Byte} {off : Nat} (v : Byte) (h : off ≤ F.length) : putAt F off v = F.set (off - 1) v := by
  simp [putAt, show off ≠ F.length + 1 by omega]

/-- How long the buffer is after `FBSet`. -/
theorem putAt_length (F : List Byte) (off : Nat) (v : Byte) :
    (putAt F off v).length = if off = F.length + 1 then F.length + 1 else F.length := by
  unfold putAt; split <;> simp

/-- What the bytes read as after `FBSet(off, v)`. -/
theorem memReadOpt_putAt {F : List Byte} {off : Nat} (v : Byte) (h0 : 1 ≤ off) (h1 : off ≤ F.length + 1) (a : Nat) :
    memReadOpt (putAt F off v) a = if a = off then some v else memReadOpt F a := by
  unfold putAt memReadOpt
  by_cases ha : a = 0
  · subst ha; simp [show (0 : Nat) ≠ off by omega]
  · simp only [ha, if_false]
    by_cases h : off = F.length + 1
    · subst h
      simp only [if_true]
      by_cases hh : a = F.length + 1
      · subst hh; simp
      · simp only [hh, if_false]
        by_cases hlt : a - 1 < F.length
        · rw [List.getElem?_append_left hlt]
        · rw [List.getElem?_eq_none (by simp; omega), List.getElem?_eq_none (by omega)]
    · simp only [h, if_false, List.getElem?_set]
      by_cases hh : a = off
      · subst hh; simp [show a - 1 < F.length by omega]
      · simp [hh, show off - 1 ≠ a - 1 by omega]

/-- `FBSet` keeps a buffer well formed. -/
theorem set_wf {fb fb' : FrameBuffer} {off : Nat} {v : Byte} (h : fb.wf) (hs : fb.set off v = .ok fb') : fb'.wf := by
  obtain ⟨F, rfl, hl⟩ := (FrameBuffer.wf_iff fb).mp h
  obtain ⟨_, h1, h2, rfl⟩ := ofSeq_set_eq_ok hs
  refine ofSeq_wf ?_
  rw [putAt_length]
  split <;> omega

theorem get_eq_ok {F : List Byte} {off : Nat} {b : Byte} (h : (FrameBuffer.ofSeq F).get off = .ok b) :
    memReadOpt F off = some b := by
  unfold FrameBuffer.get at h
  split at h
  · simp at h
  · split at h
    · simp at h
    · rw [ofSeq_read] at h
      split at h <;> simp_all

/-- A byte has a value exactly at the offsets 1 to LEN. -/
theorem memReadOpt_isSome {F : List Byte} {off : Nat} : (memReadOpt F off).isSome ↔ 1 ≤ off ∧ off ≤ F.length := by
  unfold memReadOpt
  split
  · simp; omega
  · simp; omega

/-- `FBOr(off, m)` inside the buffer replaces one byte. -/
theorem ofSeq_or {F : List Byte} {off : Nat} {b : Byte} (m : Byte) (h : memReadOpt F off = some b)
    (h2 : off ≤ Config.fbMax) : (FrameBuffer.ofSeq F).or off m = .ok (.ofSeq (putAt F off (b ||| m))) := by
  have hb := memReadOpt_isSome.mp (by simp [h] : (memReadOpt F off).isSome)
  simp only [FrameBuffer.or, ofSeq_get h]
  exact ofSeq_set _ hb.1 (by omega) h2

/-- `FBAndNot(off, m)` inside the buffer replaces one byte. -/
theorem ofSeq_andNot {F : List Byte} {off : Nat} {b : Byte} (m : Byte) (h : memReadOpt F off = some b)
    (h2 : off ≤ Config.fbMax) : (FrameBuffer.ofSeq F).andNot off m = .ok (.ofSeq (putAt F off (b &&& ~~~m))) := by
  have hb := memReadOpt_isSome.mp (by simp [h] : (memReadOpt F off).isSome)
  simp only [FrameBuffer.andNot, ofSeq_get h]
  exact ofSeq_set _ hb.1 (by omega) h2

theorem or_wf {fb fb' : FrameBuffer} {off : Nat} {m : Byte} (h : fb.wf) (hs : fb.or off m = .ok fb') : fb'.wf := by
  unfold FrameBuffer.or at hs
  split at hs
  · exact set_wf h hs
  · simp at hs

theorem andNot_wf {fb fb' : FrameBuffer} {off : Nat} {m : Byte} (h : fb.wf) (hs : fb.andNot off m = .ok fb') : fb'.wf := by
  unfold FrameBuffer.andNot at hs
  split at hs
  · exact set_wf h hs
  · simp at hs

theorem setRun_wf {fb fb' : FrameBuffer} {off : Nat} {vs : List Byte} (h : fb.wf) (hs : fb.setRun off vs = .ok fb') :
    fb'.wf := by
  induction vs generalizing fb off with
  | nil => simp [FrameBuffer.setRun] at hs; exact hs ▸ h
  | cons v rest ih =>
    simp only [FrameBuffer.setRun] at hs
    split at hs
    · rename_i fb1 h1; exact ih (set_wf h h1) hs
    · simp at hs

theorem clear_wf {fb fb' : FrameBuffer} {lo hi : Nat} (h : fb.wf) (hs : fb.clear lo hi = .ok fb') : fb'.wf :=
  setRun_wf h hs

/-- The bytes after writing a run from offset `off` on. -/
def putRun (F : List Byte) (off : Nat) : List Byte → List Byte
  | [] => F
  | v :: rest => putRun (putAt F off v) (off + 1) rest

/-- A run of `FBSet`s at offsets that exist. -/
theorem ofSeq_setRun {F : List Byte} {off : Nat} (vs : List Byte) (h0 : 1 ≤ off) (h1 : off ≤ F.length + 1)
    (h2 : off + vs.length ≤ Config.fbMax + 1) :
    (FrameBuffer.ofSeq F).setRun off vs = .ok (.ofSeq (putRun F off vs)) := by
  induction vs generalizing F off with
  | nil => rfl
  | cons v rest ih =>
    simp only [List.length_cons] at h2
    simp only [FrameBuffer.setRun, ofSeq_set v h0 h1 (by omega), putRun]
    refine ih (by omega) ?_ (by omega)
    rw [putAt_length]; split <;> omega

theorem putRun_length {F : List Byte} {off : Nat} (vs : List Byte) (h0 : 1 ≤ off) (h1 : off ≤ F.length + 1) :
    (putRun F off vs).length = max F.length (off - 1 + vs.length) := by
  induction vs generalizing F off with
  | nil => simp [putRun]; omega
  | cons v rest ih =>
    simp only [putRun, List.length_cons]
    rw [ih (by omega) (by rw [putAt_length]; split <;> omega), putAt_length]
    split <;> omega

/-- What the bytes read as after a run of writes. -/
theorem memReadOpt_putRun {F : List Byte} {off : Nat} (vs : List Byte) (h0 : 1 ≤ off) (h1 : off ≤ F.length + 1) (a : Nat) :
    memReadOpt (putRun F off vs) a = if off ≤ a ∧ a < off + vs.length then vs[a - off]? else memReadOpt F a := by
  induction vs generalizing F off with
  | nil =>
    have : ¬ (off ≤ a ∧ a < off) := by omega
    simp [putRun, this]
  | cons v rest ih =>
    simp only [putRun, List.length_cons]
    rw [ih (by omega) (by rw [putAt_length]; split <;> omega), memReadOpt_putAt v h0 h1]
    by_cases h : a = off
    · subst h
      have : ¬ a + 1 ≤ a := by omega
      simp [this]
    · by_cases hh : off + 1 ≤ a ∧ a < off + 1 + rest.length
      · have h3 : off ≤ a ∧ a < off + (rest.length + 1) := by omega
        have h4 : a - off = (a - (off + 1)) + 1 := by omega
        simp only [hh, h3, h4, and_self, if_true, List.getElem?_cons_succ]
      · have h3 : ¬ (off ≤ a ∧ a < off + (rest.length + 1)) := by omega
        simp only [hh, h3, if_false, h]

end Sys2Proof.Machine
end

