-- ==== Sys2Proof/Laws/Rows.lean ====
section
/-! SUPPORT. What a table row can do to the frame buffer: it writes in place, at the offsets it names, or it is refused
because a number does not fit a byte. -/

namespace Sys2Proof.Machine

/-- `r` holds as many bytes as `F` and differs from `F` at most at the offsets `P`. -/
def InPlace (P : Nat → Prop) (F : List Byte) (r : Except Stop FrameBuffer) : Prop :=
  ∃ F', r = .ok (.ofSeq F') ∧ F'.length = F.length ∧ ∀ a, ¬ P a → memReadOpt F' a = memReadOpt F a

theorem InPlace.refl (P : Nat → Prop) (F : List Byte) : InPlace P F (.ok (.ofSeq F)) := ⟨F, rfl, rfl, fun _ _ => rfl⟩

theorem InPlace.mono {P Q : Nat → Prop} {F : List Byte} {r : Except Stop FrameBuffer} (h : InPlace P F r)
    (hPQ : ∀ a, P a → Q a) : InPlace Q F r := by
  obtain ⟨F', hr, hl, hf⟩ := h
  exact ⟨F', hr, hl, fun a ha => hf a (fun hp => ha (hPQ a hp))⟩

/-- Two writes in place, one after the other. -/
theorem InPlace.bind {P : Nat → Prop} {F : List Byte} {r : Except Stop FrameBuffer}
    {g : FrameBuffer → Except Stop FrameBuffer} (h : InPlace P F r)
    (hg : ∀ F', F'.length = F.length → InPlace P F' (g (.ofSeq F'))) : InPlace P F (r >>= g) := by
  obtain ⟨F1, rfl, hl1, hf1⟩ := h
  obtain ⟨F2, h2, hl2, hf2⟩ := hg F1 hl1
  exact ⟨F2, by simpa using h2, by omega, fun a ha => (hf2 a ha).trans (hf1 a ha)⟩

/-- A conditional write in place. -/
theorem applyIf_inPlace {P : Nat → Prop} {F : List Byte} {g : FrameBuffer → Except Stop FrameBuffer} (c : Bool)
    (h : InPlace P F (g (.ofSeq F))) : InPlace P F (applyIf c g (.ofSeq F)) := by
  cases c
  · exact InPlace.refl _ _
  · exact h

/-- The offset is one the buffer of `F` holds. -/
def Inside (F : List Byte) (off : Nat) : Prop := 1 ≤ off ∧ off ≤ F.length ∧ F.length ≤ Config.fbMax

theorem set_inPlace {F : List Byte} {off : Nat} (v : Byte) (h : Inside F off) :
    InPlace (· = off) F ((FrameBuffer.ofSeq F).set off v) := by
  obtain ⟨h0, h1, h2⟩ := h
  refine ⟨putAt F off v, ofSeq_set v h0 (by omega) (by omega), ?_, ?_⟩
  · rw [putAt_length]; split <;> omega
  · intro a ha; rw [memReadOpt_putAt v h0 (by omega)]; simp [ha]

theorem exists_byte {F : List Byte} {off : Nat} (h : Inside F off) : ∃ b, memReadOpt F off = some b :=
  Option.isSome_iff_exists.mp (memReadOpt_isSome.mpr ⟨h.1, h.2.1⟩)

theorem or_inPlace {F : List Byte} {off : Nat} (m : Byte) (h : Inside F off) :
    InPlace (· = off) F ((FrameBuffer.ofSeq F).or off m) := by
  obtain ⟨b, hb⟩ := exists_byte h
  simp only [FrameBuffer.or, ofSeq_get hb]
  exact set_inPlace _ h

theorem andNot_inPlace {F : List Byte} {off : Nat} (m : Byte) (h : Inside F off) :
    InPlace (· = off) F ((FrameBuffer.ofSeq F).andNot off m) := by
  obtain ⟨b, hb⟩ := exists_byte h
  simp only [FrameBuffer.andNot, ofSeq_get hb]
  exact set_inPlace _ h

/-- Clearing a region inside the buffer. -/
theorem clear_inPlace {F : List Byte} {lo hi : Nat} (h0 : 1 ≤ lo) (h1 : hi ≤ F.length) (h2 : F.length ≤ Config.fbMax) :
    InPlace (fun a => lo ≤ a ∧ a ≤ hi) F ((FrameBuffer.ofSeq F).clear lo hi) := by
  unfold FrameBuffer.clear
  by_cases h : lo ≤ hi
  · refine ⟨putRun F lo (List.replicate (hi + 1 - lo) 0x00), ofSeq_setRun _ h0 (by omega) (by simp; omega), ?_, ?_⟩
    · rw [putRun_length _ h0 (by omega)]; simp; omega
    · intro a ha
      rw [memReadOpt_putRun _ h0 (by omega)]
      have : ¬ (lo ≤ a ∧ a < lo + (List.replicate (hi + 1 - lo) (0x00 : Byte)).length) := by simp; omega
      simp only [this, if_false]
  · have : hi + 1 - lo = 0 := by omega
    rw [this]
    exact InPlace.refl _ _

/-- What clearing a region leaves there. -/
theorem clear_reads_zero {F F' : List Byte} {lo hi : Nat} (h0 : 1 ≤ lo) (h1 : hi ≤ F.length) (h2 : F.length ≤ Config.fbMax)
    (h : (FrameBuffer.ofSeq F).clear lo hi = .ok (.ofSeq F')) (a : Nat) (ha : lo ≤ a) (ha' : a ≤ hi) :
    memReadOpt F' a = some 0x00 := by
  unfold FrameBuffer.clear at h
  rw [ofSeq_setRun _ h0 (by omega) (by simp; omega)] at h
  have hF : F' = putRun F lo (List.replicate (hi + 1 - lo) 0x00) := by
    simp only [Except.ok.injEq] at h
    rw [← ofSeq_seq F', ← h, ofSeq_seq]
  rw [hF, memReadOpt_putRun _ h0 (by omega)]
  have : lo ≤ a ∧ a < lo + (List.replicate (hi + 1 - lo) (0x00 : Byte)).length := by simp; omega
  simp only [this, and_self, if_true]
  rw [List.getElem?_replicate]
  simp; omega

/-- All regions lie inside the buffer. -/
def RegionsInside (F : List Byte) (regions : List (Nat × Nat)) : Prop :=
  F.length ≤ Config.fbMax ∧ ∀ r ∈ regions, 1 ≤ r.1 ∧ r.2 ≤ F.length

theorem clearRegions_inPlace {F : List Byte} {regions : List (Nat × Nat)} (h : RegionsInside F regions) :
    InPlace (fun a => Config.inRegions regions a = true) F (clearRegions (.ofSeq F) regions) := by
  induction regions generalizing F with
  | nil => exact InPlace.refl _ _
  | cons r rest ih =>
    have hr := h.2 r (by simp)
    refine InPlace.bind ((clear_inPlace hr.1 hr.2 h.1).mono ?_) ?_
    · intro a ha; simp [Config.inRegions, Config.within, ha.1, ha.2]
    · intro F' hl
      refine (ih ⟨hl ▸ h.1, fun r' hr' => ?_⟩).mono ?_
      · have := h.2 r' (by simp [hr']); omega
      · intro a ha
        simp only [Config.inRegions, List.any_cons, Bool.or_eq_true] at ha ⊢
        exact .inr ha

theorem setModeEnc_inPlace {F : List Byte} {enc : ModeEnc} (h : Inside F (Config.modeEncOff enc)) :
    InPlace (· = Config.modeEncOff enc) F (setModeEnc (.ofSeq F) enc) := by
  cases enc with
  | bit off mask => exact or_inPlace mask h
  | byte off value => exact set_inPlace value h

theorem clearModeEnc_inPlace {F : List Byte} {enc : ModeEnc} (h : Inside F (Config.modeEncOff enc)) :
    InPlace (· = Config.modeEncOff enc) F (clearModeEnc (.ofSeq F) enc) := by
  cases enc with
  | bit off mask => exact andNot_inPlace mask h
  | byte off value => exact set_inPlace 0x00 h

/-- Every entry of a mode table lies inside the buffer. -/
def TableInside (F : List Byte) (table : List (Str × ModeEnc)) : Prop :=
  ∀ e ∈ table, Inside F (Config.modeEncOff e.2)

/-- The offset is one of a mode table. -/
def OfTable (table : List (Str × ModeEnc)) (a : Nat) : Prop := ∃ e ∈ table, a = Config.modeEncOff e.2

theorem clearModeTable_inPlace {F : List Byte} {table : List (Str × ModeEnc)} (h : TableInside F table) :
    InPlace (OfTable table) F (clearModeTable (.ofSeq F) table) := by
  induction table generalizing F with
  | nil => exact InPlace.refl _ _
  | cons e rest ih =>
    refine InPlace.bind ((clearModeEnc_inPlace (h e (by simp))).mono ?_) ?_
    · rintro a rfl; exact ⟨e, by simp, rfl⟩
    · intro F' hl
      refine (ih ?_).mono ?_
      · intro e' he'
        have := h e' (by simp [he'])
        exact ⟨this.1, by have := this.2; omega, by have := this.2; omega⟩
      · rintro a ⟨e', he', rfl⟩; exact ⟨e', by simp [he'], rfl⟩

theorem mem_of_lookup {α β : Type} [BEq α] [LawfulBEq α] {l : List (α × β)} {a : α} {b : β} (h : l.lookup a = some b) :
    (a, b) ∈ l := by
  induction l with
  | nil => simp at h
  | cons e rest ih =>
    simp only [List.lookup] at h
    split at h
    · rename_i he
      have : a = e.1 := by simpa using he
      simp at h; subst this; subst h; simp
    · exact List.mem_cons_of_mem _ (ih h)

/-- Row kind `MODE` in place. -/
theorem execModeRow_inPlace {F : List Byte} {regions : List (Nat × Nat)} {table : List (Str × ModeEnc)} (m : Val)
    (h : RegionsInside F regions) (ht : TableInside F table) :
    InPlace (fun a => Config.inRegions regions a = true ∨ OfTable table a) F (execModeRow regions table m (.ofSeq F)) := by
  refine InPlace.bind ((clearRegions_inPlace h).mono (fun _ => .inl)) ?_
  intro F' hl
  cases m with
  | num n => exact InPlace.refl _ _
  | txt name =>
    dsimp only
    split
    · rename_i enc he
      have hm := mem_of_lookup he
      have hi : Inside F (Config.modeEncOff enc) := ht _ hm
      refine (setModeEnc_inPlace ?_).mono ?_
      · exact ⟨hi.1, by have := hi.2; omega, by have := hi.2; omega⟩
      · rintro a rfl; exact .inr ⟨_, hm, rfl⟩
    · exact InPlace.refl _ _

/-- Row kind `HEAT` in place. -/
theorem execHeatRow_inPlace {F : List Byte} {ho wo : Nat} (hm wm : Byte) (v : Val) (h : Inside F ho) (hw : Inside F wo) :
    InPlace (fun a => a = ho ∨ a = wo) F (execHeatRow ho hm wo wm v (.ofSeq F)) := by
  have keep : ∀ {off : Nat} {F' : List Byte}, F'.length = F.length → Inside F off → Inside F' off :=
    fun hl hi => ⟨hi.1, by have := hi.2; omega, by have := hi.2; omega⟩
  refine InPlace.bind ((andNot_inPlace hm h).mono (fun _ => .inl)) ?_
  intro F1 h1
  refine InPlace.bind ((andNot_inPlace wm (keep h1 hw)).mono (fun _ => .inr)) ?_
  intro F2 h2
  refine InPlace.bind (applyIf_inPlace _ ((or_inPlace hm (keep (by omega) h)).mono (fun _ => .inl))) ?_
  intro F3 h3
  exact applyIf_inPlace _ ((or_inPlace wm (keep (by omega) hw)).mono (fun _ => .inr))

/-- A number that fits a byte is written in place; another is refused. -/
theorem setNum_cases {F : List Byte} {off : Nat} (n : Nat) (h : Inside F off) :
    (n ≤ 255 ∧ InPlace (· = off) F (setNum (.ofSeq F) off n)) ∨ (255 < n ∧ setNum (.ofSeq F) off n = refuse .numRange) := by
  unfold setNum
  rcases numByte_cases n with ⟨hn, he⟩ | ⟨hn, he⟩
  · rw [he]; exact .inl ⟨hn, set_inPlace _ h⟩
  · rw [he]; exact .inr ⟨hn, rfl⟩

/-- What a row of `ENC_FULL` names, all of it inside the buffer. -/
def RowInside (F : List Byte) : EncRow → Prop
  | .bool _ off _ => Inside F off
  | .mode regions table => RegionsInside F regions ∧ TableInside F table
  | .heat ho _ wo _ => Inside F ho ∧ Inside F wo
  | .numf _ off _ _ => Inside F off

/-- The offsets at which a row of `ENC_FULL` may write. -/
def rowWrites (rows : List EncRow) : EncRow → Nat → Prop
  | .bool _ off _, a => a = off
  | .mode regions table, a => Config.inRegions regions a = true ∨ OfTable table a
  | .heat ho _ wo _, a => a = ho ∨ a = wo
  | .numf _ off _ clearsMode, a => a = off ∨ (clearsMode = true ∧ OfTable (modeTable rows) a)

/-- All that a row of `ENC_FULL` can do (43_fieldmap.md R117 to R120, 44_assembler.md R152): it writes in place at the
offsets it names when its number fits a byte, and is refused otherwise. -/
theorem execEncRow_cases {F : List Byte} (rows : List EncRow) (rq : Request) (row : EncRow) (h : RowInside F row)
    (ht : TableInside F (modeTable rows)) :
    (rowFits rq row = true ∧ InPlace (rowWrites rows row) F (execEncRow rows rq row (.ofSeq F)))
      ∨ (rowFits rq row = false ∧ execEncRow rows rq row (.ofSeq F) = refuse .numRange) := by
  cases row with
  | bool name off mask =>
    refine .inl ⟨rfl, ?_⟩
    exact applyIf_inPlace (g := (·.or off mask)) _ (or_inPlace mask h)
  | mode regions table =>
    refine .inl ⟨rfl, ?_⟩
    simp only [execEncRow]
    split
    · exact execModeRow_inPlace _ h.1 h.2
    · exact InPlace.refl _ _
  | heat ho hm wo wm =>
    refine .inl ⟨rfl, ?_⟩
    simp only [execEncRow]
    split
    · exact execHeatRow_inPlace hm wm _ h.1 h.2
    · exact InPlace.refl _ _
  | numf name off fallback clearsMode =>
    simp only [execEncRow, rowFits]
    have hs : ∀ {F' : List Byte} (n : Nat), F'.length = F.length →
        (n ≤ 255 ∧ InPlace (· = off) F' (setNum (.ofSeq F') off n))
          ∨ (255 < n ∧ setNum (.ofSeq F') off n = refuse .numRange) :=
      fun n hl => setNum_cases n ⟨h.1, by have := h.2; omega, by have := h.2; omega⟩
    rcases hc : rq.controlField name with _ | (t | n)
    · rcases hst : rq.statusField name with _ | (t | n)
      · exact .inl ⟨by simp [numFits], InPlace.refl _ _⟩
      · exact .inl ⟨by simp [numFits], InPlace.refl _ _⟩
      · simp only [execNumfRow, numFits]
        cases fallback with
        | false => exact .inl ⟨rfl, InPlace.refl _ _⟩
        | true =>
          rcases hs (F' := F) n rfl with ⟨hn, hp⟩ | ⟨hn, he⟩
          · exact .inl ⟨by simp [hn], hp.mono (fun _ => .inl)⟩
          · exact .inr ⟨by simp; omega, he⟩
    · exact .inl ⟨rfl, InPlace.refl _ _⟩
    · simp only [execNumfRow, numFits]
      have hclear : InPlace (fun a => a = off ∨ (clearsMode = true ∧ OfTable (modeTable rows) a)) F
          (applyIf clearsMode (modeSelClear rows) (.ofSeq F)) := by
        cases clearsMode with
        | false => exact InPlace.refl _ _
        | true => exact (clearModeTable_inPlace ht).mono (fun a ha => .inr ⟨rfl, ha⟩)
      by_cases hn : n ≤ 255
      · refine .inl ⟨by simp [hn], hclear.bind fun F' hl => ?_⟩
        rcases hs (F' := F') n hl with ⟨_, hp⟩ | ⟨hn', _⟩
        · exact hp.mono (fun _ => .inl)
        · omega
      · refine .inr ⟨by simp; omega, ?_⟩
        obtain ⟨F1, h1, hl1, _⟩ := hclear
        rw [h1, bind_ok]
        rcases hs (F' := F1) n hl1 with ⟨hn', _⟩ | ⟨_, he⟩
        · omega
        · exact he

theorem RowInside.of_length {F F' : List Byte} {row : EncRow} (h : RowInside F row) (hl : F'.length = F.length) :
    RowInside F' row := by
  have keep : ∀ {off : Nat}, Inside F off → Inside F' off :=
    fun hi => ⟨hi.1, by have := hi.2; omega, by have := hi.2; omega⟩
  cases row with
  | bool _ _ _ => exact keep h
  | mode regions table => exact ⟨⟨by have := h.1.1; omega, fun r hr => by have := h.1.2 r hr; omega⟩, fun e he => keep (h.2 e he)⟩
  | heat _ _ _ _ => exact ⟨keep h.1, keep h.2⟩
  | numf _ _ _ _ => exact keep h

theorem TableInside.of_length {F F' : List Byte} {table : List (Str × ModeEnc)} (h : TableInside F table)
    (hl : F'.length = F.length) : TableInside F' table :=
  fun e he => ⟨(h e he).1, by have := (h e he).2; omega, by have := (h e he).2; omega⟩

/-- All that the rows of `ENC_FULL` can do, first to last. -/
theorem execEncRows_cases (rows : List EncRow) (rq : Request) (todo : List EncRow) {F : List Byte}
    (h : ∀ row ∈ todo, RowInside F row) (ht : TableInside F (modeTable rows)) :
    (todo.all (rowFits rq) = true ∧ InPlace (fun a => ∃ row ∈ todo, rowWrites rows row a) F (execEncRows rows rq todo (.ofSeq F)))
      ∨ (todo.all (rowFits rq) = false ∧ execEncRows rows rq todo (.ofSeq F) = refuse .numRange) := by
  induction todo generalizing F with
  | nil => exact .inl ⟨rfl, InPlace.refl _ _⟩
  | cons row rest ih =>
    simp only [execEncRows, List.all_cons]
    rcases execEncRow_cases rows rq row (h row (by simp)) ht with ⟨hf, hp⟩ | ⟨hf, he⟩
    · obtain ⟨F1, h1, hl1, hfr⟩ := hp
      rw [h1, bind_ok, hf]
      rcases ih (F := F1) (fun r hr => (h r (by simp [hr])).of_length hl1) (ht.of_length hl1) with ⟨hall, F2, h2, hl2, hfr2⟩ | ⟨hall, he⟩
      · refine .inl ⟨by simp [hall], F2, h2, by omega, fun a ha => ?_⟩
        rw [hfr2 a (fun ⟨r, hr, hw⟩ => ha ⟨r, by simp [hr], hw⟩), hfr a (fun hw => ha ⟨row, by simp, hw⟩)]
      · exact .inr ⟨by simp [hall], he⟩
    · exact .inr ⟨by simp [hf], by rw [he, bind_refuse]⟩

end Sys2Proof.Machine
end

