-- ==== Sys2Proof/Laws/Frames.lean ====
section
/-! SUPPORT. What the branches of ASSEMBLE, the appointment overlay and the final step can do to the frame buffer of a
well-formed configuration. -/

namespace Sys2Proof.Machine

/-! ### What a well-formed configuration gives -/

theorem wellFormed_windows {cfg : Config} (h : cfg.wellFormed = true) :
    14 ≤ cfg.fullHi ∧ cfg.fullHi ≤ 255 ∧ 12 ≤ cfg.partHi ∧ cfg.partHi < cfg.fullHi := by
  simp only [Config.wellFormed, Config.windowsOk, Config.within, Bool.and_eq_true, decide_eq_true_eq] at h
  omega

theorem wellFormed_offsets {cfg : Config} (h : cfg.wellFormed = true) : cfg.offsetsOk = true := by
  simp only [Config.wellFormed, Bool.and_eq_true] at h
  exact h.1.1.1.1.1.2

theorem within_iff {lo hi a : Nat} : Config.within lo hi a = true ↔ lo ≤ a ∧ a ≤ hi := by
  simp [Config.within]

/-- Every row of `ENC_FULL` names offsets of the full window only (43_fieldmap.md R131). -/
theorem wellFormed_rowInside {cfg : Config} (h : cfg.wellFormed = true) {F : List Byte} (hl : F.length = cfg.fullHi) :
    ∀ row ∈ cfg.encFull, RowInside F row := by
  have hw := wellFormed_windows h
  have ho := wellFormed_offsets h
  simp only [Config.offsetsOk, Bool.and_eq_true, List.all_eq_true, within_iff] at ho
  have hb : F.length ≤ Config.fbMax := by simp only [Config.fbMax]; omega
  intro row hrow
  have := ho.1.1 row hrow
  cases row with
  | bool name off mask =>
    have := this off (by simp [Config.encOffsets])
    exact ⟨by omega, by omega, hb⟩
  | mode regions table =>
    refine ⟨⟨hb, fun r hr => ?_⟩, fun e he => ?_⟩
    · have h1 := this r.1 (by simp only [Config.encOffsets, List.mem_append, List.mem_flatMap]; exact .inl ⟨r, hr, by simp⟩)
      have h2 := this r.2 (by simp only [Config.encOffsets, List.mem_append, List.mem_flatMap]; exact .inl ⟨r, hr, by simp⟩)
      omega
    · have h1 := this (Config.modeEncOff e.2)
        (by simp only [Config.encOffsets, List.mem_append, List.mem_map]; exact .inr ⟨e, he, rfl⟩)
      exact ⟨by omega, by omega, hb⟩
  | heat ho hm wo wm =>
    have h1 := this ho (by simp [Config.encOffsets])
    have h2 := this wo (by simp [Config.encOffsets])
    exact ⟨⟨by omega, by omega, hb⟩, ⟨by omega, by omega, hb⟩⟩
  | numf name off fb cm =>
    have := this off (by simp [Config.encOffsets])
    exact ⟨by omega, by omega, hb⟩

theorem mode_mem_of_modeTable {rows : List EncRow} : modeTable rows = [] ∨ ∃ regions, .mode regions (modeTable rows) ∈ rows := by
  induction rows with
  | nil => exact .inl rfl
  | cons row rest ih =>
    cases row with
    | mode regions table => exact .inr ⟨regions, by simp [modeTable]⟩
    | bool _ _ _ => rcases ih with h | ⟨r, h⟩ <;> simp_all [modeTable]; exact .inr ⟨r, h⟩
    | heat _ _ _ _ => rcases ih with h | ⟨r, h⟩ <;> simp_all [modeTable]; exact .inr ⟨r, h⟩
    | numf _ _ _ _ => rcases ih with h | ⟨r, h⟩ <;> simp_all [modeTable]; exact .inr ⟨r, h⟩

theorem wellFormed_tableInside {cfg : Config} (h : cfg.wellFormed = true) {F : List Byte} (hl : F.length = cfg.fullHi) :
    TableInside F (modeTable cfg.encFull) := by
  rcases mode_mem_of_modeTable (rows := cfg.encFull) with he | ⟨r, hr⟩
  · rw [he]; intro e he'; simp at he'
  · exact (wellFormed_rowInside h hl _ hr).2

/-- Every write of an `ENC_PART` entry lies in the part window (43_fieldmap.md R131). -/
theorem wellFormed_partInside {cfg : Config} (h : cfg.wellFormed = true) {F : List Byte} (hl : F.length = cfg.partHi) :
    ∀ e ∈ cfg.encPart, ∀ w ∈ e.writes, Inside F w.1 := by
  have hw := wellFormed_windows h
  have ho := wellFormed_offsets h
  simp only [Config.offsetsOk, Bool.and_eq_true, List.all_eq_true, within_iff] at ho
  intro e he w hwr
  have := (ho.1.2 e he).2 w hwr
  exact ⟨by omega, by omega, by simp only [Config.fbMax]; omega⟩

/-! ### The part branch -/

/-- All that the writes of an `ENC_PART` entry can do (43_fieldmap.md R121, 44_assembler.md R152). -/
theorem execPartWrites_cases (v : Val) (writes : List (Nat × PartSrc)) {F : List Byte} (h : ∀ w ∈ writes, Inside F w.1) :
    ((writes.any (fun w => w.2 == .val) = false ∨ numFits (some v) = true)
        ∧ InPlace (fun a => ∃ w ∈ writes, a = w.1) F (execPartWrites v writes (.ofSeq F)))
      ∨ ((writes.any (fun w => w.2 == .val) = true ∧ numFits (some v) = false)
        ∧ execPartWrites v writes (.ofSeq F) = refuse .numRange) := by
  induction writes generalizing F with
  | nil => exact .inl ⟨.inl rfl, InPlace.refl _ _⟩
  | cons w rest ih =>
    have hi := h w (by simp)
    have key : ((w.2 ≠ .val ∨ numFits (some v) = true) ∧ InPlace (· = w.1) F (execPartWrite v w.1 w.2 (.ofSeq F)))
        ∨ (w.2 = .val ∧ numFits (some v) = false ∧ execPartWrite v w.1 w.2 (.ofSeq F) = refuse .numRange) := by
      rcases hsrc : w.2 with b | _ | ⟨b1, b2⟩
      · exact .inl ⟨.inl (by simp), set_inPlace b hi⟩
      · cases v with
        | txt t => exact .inl ⟨.inr rfl, InPlace.refl _ _⟩
        | num n =>
          rcases setNum_cases n hi with ⟨hn, hp⟩ | ⟨hn, he⟩
          · exact .inl ⟨.inr (by simp [numFits, hn]), hp⟩
          · exact .inr ⟨rfl, by simp [numFits]; omega, he⟩
      · exact .inl ⟨.inl (by simp), set_inPlace _ hi⟩
    simp only [execPartWrites, List.any_cons]
    rcases key with ⟨hk, F1, h1, hl1, hf1⟩ | ⟨hk, hn, he⟩
    · rw [h1, bind_ok]
      rcases ih (F := F1) (fun w' hw' => by have := h w' (by simp [hw']); exact ⟨this.1, by have := this.2; omega, by have := this.2; omega⟩) with
        ⟨hc, F2, h2, hl2, hf2⟩ | ⟨⟨hc, hn⟩, he⟩
      · refine .inl ⟨?_, F2, h2, by omega, fun a ha => ?_⟩
        · rcases hc with hc | hc
          · rcases hk with hk | hk
            · exact .inl (by simp [hc, hk])
            · exact .inr hk
          · exact .inr hc
        · rw [hf2 a (fun ⟨w', hw', e⟩ => ha ⟨w', by simp [hw'], e⟩), hf1 a (fun e => ha ⟨w, by simp, e⟩)]
      · exact .inr ⟨⟨by simp [hc], hn⟩, he⟩
    · exact .inr ⟨⟨by simp [hk], hn⟩, by rw [he, bind_refuse]⟩

/-- All that the search of `ENC_PART` can do (44_assembler.md R147). -/
theorem execPart_cases (rq : Request) (entries : List PartEntry) {F : List Byte}
    (h : ∀ e ∈ entries, ∀ w ∈ e.writes, Inside F w.1) :
    let fits := match entries.find? (fun e => (rq.controlField e.name).isSome) with
      | some e => !copiesValue e || numFits (rq.controlField e.name)
      | none => true
    (fits = true ∧ InPlace (fun a => ∃ e ∈ entries, ∃ w ∈ e.writes, a = w.1) F (execPart rq entries (.ofSeq F)))
      ∨ (fits = false ∧ execPart rq entries (.ofSeq F) = refuse .numRange) := by
  induction entries with
  | nil => exact .inl ⟨rfl, InPlace.refl _ _⟩
  | cons e rest ih =>
    simp only [execPart, List.find?_cons]
    rcases hc : rq.controlField e.name with _ | v
    · simp only [Option.isSome_none]
      rcases ih (fun e' he' => h e' (by simp [he'])) with ⟨hf, hp⟩ | ⟨hf, he⟩
      · exact .inl ⟨hf, hp.mono (fun a ⟨e', he', w, hw, ea⟩ => ⟨e', by simp [he'], w, hw, ea⟩)⟩
      · exact .inr ⟨hf, he⟩
    · simp only [Option.isSome_some, hc]
      rcases execPartWrites_cases v e.writes (h e (by simp)) with ⟨hf, hp⟩ | ⟨⟨hf, hn⟩, he⟩
      · refine .inl ⟨?_, hp.mono (fun a ⟨w, hw, ea⟩ => ⟨e, by simp, w, hw, ea⟩)⟩
        rcases hf with hf | hf
        · simp [copiesValue, hf]
        · simp [hf]
      · exact .inr ⟨by simp [copiesValue, hf, hn], he⟩

/-! ### The three underlying shapes -/

/-- `r` holds `n` bytes and differs from `F` at most at the offsets `P`. -/
def Holds (n : Nat) (P : Nat → Prop) (F : List Byte) (r : Except Stop FrameBuffer) : Prop :=
  ∃ F', r = .ok (.ofSeq F') ∧ F'.length = n ∧ ∀ a, ¬ P a → memReadOpt F' a = memReadOpt F a

/-- The number of bytes before the appointment overlay and the checksum. -/
def baseLength (cfg : Config) (rq : Request) : Nat :=
  let p := rq.controlField (ascii "power")
  if isOn p then 12 else if isOff p then 12 else if takesPart cfg rq then cfg.partHi else cfg.fullHi

theorem setRun_holds {F : List Byte} {off : Nat} (vs : List Byte) (h0 : 1 ≤ off) (h1 : off ≤ F.length + 1)
    (h2 : off + vs.length ≤ Config.fbMax + 1) :
    Holds (max F.length (off - 1 + vs.length)) (fun a => off ≤ a) F ((FrameBuffer.ofSeq F).setRun off vs) := by
  refine ⟨putRun F off vs, ofSeq_setRun vs h0 h1 h2, putRun_length vs h0 h1, fun a ha => ?_⟩
  rw [memReadOpt_putRun vs h0 h1]
  have : ¬ (off ≤ a ∧ a < off + vs.length) := fun hh => ha hh.1
  simp only [this, if_false]

/-- Appending the byte at offset LEN + 1. -/
theorem ofSeq_append {F : List Byte} (v : Byte) (h : F.length < Config.fbMax) :
    (FrameBuffer.ofSeq F).set (F.length + 1) v = .ok (.ofSeq (F ++ [v])) := by
  rw [ofSeq_set v (by omega) (by omega) (by omega), putAt_append]

/-- The subtype byte and the cleared window of the part and full branches. -/
theorem window_holds {F : List Byte} {hi : Nat} (sub : Byte) (hF : F.length = 10) (h0 : 12 ≤ hi) (h1 : hi ≤ 255) :
    (do let fb ← (FrameBuffer.ofSeq F).set 11 sub; fb.clear 12 hi)
      = .ok (.ofSeq (F ++ [sub] ++ List.replicate (hi - 11) 0x00)) := by
  have e1 : (11 : Nat) = F.length + 1 := by omega
  rw [e1, ofSeq_append _ (by simp only [Config.fbMax]; omega), bind_ok]
  unfold FrameBuffer.clear
  rw [ofSeq_setRun _ (by omega) (by simp [hF]) (by simp [Config.fbMax]; omega)]
  have e2 : hi + 1 - 12 = hi - 11 := by omega
  rw [e2]
  have run : ∀ (G : List Byte) (vs : List Byte), putRun G (G.length + 1) vs = G ++ vs := by
    intro G vs
    induction vs generalizing G with
    | nil => simp [putRun]
    | cons v rest ih =>
      simp only [putRun, putAt_append]
      have := ih (G ++ [v])
      simp only [List.length_append, List.length_cons, List.length_nil] at this
      rw [this]; simp
  have := run (F ++ [sub]) (List.replicate (hi - 11) 0x00)
  simp only [List.length_append, List.length_cons, List.length_nil, hF] at this
  rw [this, hF]

theorem memReadOpt_append_left {F G : List Byte} {a : Nat} (h : a ≤ F.length) : memReadOpt (F ++ G) a = memReadOpt F a := by
  unfold memReadOpt
  split
  · rfl
  · rw [List.getElem?_append_left (by omega)]

/-- All that the part branch can do (44_assembler.md R147, R152). -/
theorem partBody_cases {cfg : Config} (h : cfg.wellFormed = true) (rq : Request) {F : List Byte} (hF : F.length = 10) :
    (partFits cfg rq = true ∧ ∃ F', partBody cfg rq (.ofSeq F) = .ok (.ofSeq F') ∧ F'.length = cfg.partHi
        ∧ (∀ a, a ≤ 10 → memReadOpt F' a = memReadOpt F a) ∧ memReadOpt F' 11 = some Config.subPart)
      ∨ (partFits cfg rq = false ∧ partBody cfg rq (.ofSeq F) = refuse .numRange) := by
  have hw := wellFormed_windows h
  have hwin := window_holds (F := F) (hi := cfg.partHi) Config.subPart hF (by omega) (by omega)
  have hb : partBody cfg rq (.ofSeq F)
      = execPart rq cfg.encPart (.ofSeq (F ++ [Config.subPart] ++ List.replicate (cfg.partHi - 11) 0x00)) := by
    have : partBody cfg rq (.ofSeq F) = ((do let fb ← (FrameBuffer.ofSeq F).set 11 Config.subPart; fb.clear 12 cfg.partHi)
        >>= execPart rq cfg.encPart) := by
      simp only [partBody]
      cases (FrameBuffer.ofSeq F).set 11 Config.subPart <;> rfl
    rw [this, hwin, bind_ok]
  set G := F ++ [Config.subPart] ++ List.replicate (cfg.partHi - 11) 0x00 with hG
  have hGl : G.length = cfg.partHi := by simp [hG, hF]; omega
  have hin := wellFormed_partInside h hGl
  have hoff : ∀ e ∈ cfg.encPart, ∀ w ∈ e.writes, 12 ≤ w.1 := by
    have ho := wellFormed_offsets h
    simp only [Config.offsetsOk, Bool.and_eq_true, List.all_eq_true, within_iff] at ho
    intro e he w hwr; exact ((ho.1.2 e he).2 w hwr).1
  rw [hb]
  rcases execPart_cases rq cfg.encPart hin with ⟨hf, F', h', hl', hf'⟩ | ⟨hf, he⟩
  · refine .inl ⟨hf, F', h', by omega, fun a ha => ?_, ?_⟩
    · rw [hf' a (fun ⟨e, he, w, hw', ea⟩ => by have := hoff e he w hw'; omega), hG, List.append_assoc]
      exact memReadOpt_append_left (by omega)
    · rw [hf' 11 (fun ⟨e, he, w, hw', ea⟩ => by have := hoff e he w hw'; omega), hG]
      rw [memReadOpt_append_left (by simp [hF])]
      simp [memReadOpt, hF]
  · exact .inr ⟨hf, he⟩

theorem rowWrites_ge {cfg : Config} (h : cfg.wellFormed = true) :
    ∀ row ∈ cfg.encFull, ∀ a, rowWrites cfg.encFull row a → 12 ≤ a := by
  have ho := wellFormed_offsets h
  simp only [Config.offsetsOk, Bool.and_eq_true, List.all_eq_true, within_iff] at ho
  have htab : ∀ {regions : List (Nat × Nat)} {table : List (Str × ModeEnc)}, .mode regions table ∈ cfg.encFull →
      ∀ a, OfTable table a → 12 ≤ a := by
    rintro regions table hm a ⟨e, he, rfl⟩
    exact (ho.1.1 _ hm _ (by simp only [Config.encOffsets, List.mem_append, List.mem_map]; exact .inr ⟨e, he, rfl⟩)).1
  intro row hrow a ha
  have := ho.1.1 row hrow
  cases row with
  | bool name off mask => exact ha ▸ (this off (by simp [Config.encOffsets])).1
  | mode regions table =>
    rcases ha with ha | ha
    · simp only [Config.inRegions, List.any_eq_true, within_iff] at ha
      obtain ⟨r, hr, h1, h2⟩ := ha
      have := this r.1 (by simp only [Config.encOffsets, List.mem_append, List.mem_flatMap]; exact .inl ⟨r, hr, by simp⟩)
      omega
    · exact htab hrow a ha
  | heat ho' hm wo wm =>
    rcases ha with rfl | rfl
    · exact (this a (by simp [Config.encOffsets])).1
    · exact (this a (by simp [Config.encOffsets])).1
  | numf name off fb cm =>
    rcases ha with rfl | ⟨_, ha⟩
    · exact (this a (by simp [Config.encOffsets])).1
    · rcases mode_mem_of_modeTable (rows := cfg.encFull) with he | ⟨r, hr⟩
      · rw [he] at ha; obtain ⟨e, he', _⟩ := ha; simp at he'
      · exact htab hr a ha

/-- All that the full branch can do (44_assembler.md R148, R152). -/
theorem fullBody_cases {cfg : Config} (h : cfg.wellFormed = true) (rq : Request) {F : List Byte} (hF : F.length = 10) :
    (fullFits cfg rq = true ∧ ∃ F', fullBody cfg rq (.ofSeq F) = .ok (.ofSeq F') ∧ F'.length = cfg.fullHi
        ∧ (∀ a, a ≤ 10 → memReadOpt F' a = memReadOpt F a) ∧ memReadOpt F' 11 = some Config.subFull)
      ∨ (fullFits cfg rq = false ∧ fullBody cfg rq (.ofSeq F) = refuse .numRange) := by
  have hw := wellFormed_windows h
  have hwin := window_holds (F := F) (hi := cfg.fullHi) Config.subFull hF (by omega) (by omega)
  have hb : fullBody cfg rq (.ofSeq F)
      = execEncRows cfg.encFull rq cfg.encFull (.ofSeq (F ++ [Config.subFull] ++ List.replicate (cfg.fullHi - 11) 0x00)) := by
    have : fullBody cfg rq (.ofSeq F) = ((do let fb ← (FrameBuffer.ofSeq F).set 11 Config.subFull; fb.clear 12 cfg.fullHi)
        >>= execEncRows cfg.encFull rq cfg.encFull) := by
      simp only [fullBody]
      cases (FrameBuffer.ofSeq F).set 11 Config.subFull <;> rfl
    rw [this, hwin, bind_ok]
  set G := F ++ [Config.subFull] ++ List.replicate (cfg.fullHi - 11) 0x00 with hG
  have hGl : G.length = cfg.fullHi := by simp [hG, hF]; omega
  rw [hb]
  have hge := rowWrites_ge h
  rcases execEncRows_cases cfg.encFull rq cfg.encFull (wellFormed_rowInside h hGl) (wellFormed_tableInside h hGl) with
    ⟨hf, F', h', hl', hf'⟩ | ⟨hf, he⟩
  · refine .inl ⟨hf, F', h', by omega, fun a ha => ?_, ?_⟩
    · rw [hf' a (fun ⟨r, hr, hwr⟩ => by have := hge r hr a hwr; omega), hG, List.append_assoc]
      exact memReadOpt_append_left (by omega)
    · rw [hf' 11 (fun ⟨r, hr, hwr⟩ => by have := hge r hr 11 hwr; omega), hG]
      rw [memReadOpt_append_left (by simp [hF])]
      simp [memReadOpt, hF]
  · exact .inr ⟨hf, he⟩

/-- All that the power branch can do (44_assembler.md R144). -/
theorem powerBody_eq {F : List Byte} (bytes : Byte × Byte) (hF : F.length = 10) :
    powerBody bytes (.ofSeq F) = .ok (.ofSeq (F ++ [bytes.1, bytes.2])) := by
  have e1 : (11 : Nat) = F.length + 1 := by omega
  have e2 : F.length + 1 + 1 = (F ++ [bytes.1]).length + 1 := by simp
  simp only [powerBody, FrameBuffer.setRun]
  rw [e1, ofSeq_append _ (by simp only [Config.fbMax]; omega)]
  simp only
  rw [e2, ofSeq_append _ (by simp only [Config.fbMax, List.length_append, List.length_cons, List.length_nil]; omega)]
  simp

/-- All that the underlying shape can do: its bytes 12 onward depend on the tables, the rest does not. -/
theorem baseBody_cases {cfg : Config} (h : cfg.wellFormed = true) (rq : Request) {F : List Byte} (hF : F.length = 10) :
    (baseFits cfg rq = true ∧ ∃ F', baseBody cfg rq (.ofSeq F) = .ok (.ofSeq F') ∧ F'.length = baseLength cfg rq
        ∧ ∀ a, a ≤ 10 → memReadOpt F' a = memReadOpt F a)
      ∨ (baseFits cfg rq = false ∧ baseBody cfg rq (.ofSeq F) = refuse .numRange) := by
  simp only [baseFits, baseBody, baseLength]
  split
  · refine .inl ⟨rfl, _, powerBody_eq _ hF, by simp [hF], fun a ha => memReadOpt_append_left (by omega)⟩
  · split
    · refine .inl ⟨rfl, _, powerBody_eq _ hF, by simp [hF], fun a ha => memReadOpt_append_left (by omega)⟩
    · split
      · rcases partBody_cases h rq hF with ⟨hf, F', h', hl, hfr, _⟩ | hr
        · exact .inl ⟨hf, F', h', hl, hfr⟩
        · exact .inr hr
      · rcases fullBody_cases h rq hF with ⟨hf, F', h', hl, hfr, _⟩ | hr
        · exact .inl ⟨hf, F', h', hl, hfr⟩
        · exact .inr hr

theorem baseLength_bounds {cfg : Config} (h : cfg.wellFormed = true) (rq : Request) :
    12 ≤ baseLength cfg rq ∧ baseLength cfg rq ≤ 255 := by
  have hw := wellFormed_windows h
  simp only [baseLength]
  split
  · omega
  · split
    · omega
    · split <;> omega

/-! ### The appointment overlay -/

theorem apptBytes_cases (fs : List Str) :
    (∃ ds, apptBytes fs = .ok ds ∧ ds.length = fs.length) ∨ apptBytes fs = refuse .apptField := by
  induction fs with
  | nil => exact .inl ⟨[], rfl, rfl⟩
  | cons f rest ih =>
    have hb : (∃ b, apptByte f = .ok b) ∨ apptByte f = refuse .apptField := by
      unfold apptByte
      split
      · split
        · exact .inl ⟨_, rfl⟩
        · exact .inr rfl
      · exact .inr rfl
    simp only [apptBytes]
    rcases hb with ⟨b, hb⟩ | hb
    · rw [hb, bind_ok]
      rcases ih with ⟨ds, hd, hl⟩ | hd
      · rw [hd]; exact .inl ⟨b :: ds, rfl, by simp [hl]⟩
      · rw [hd]; exact .inr rfl
    · rw [hb]; exact .inr rfl

/-- All that the reading of an appointment value can do (44_assembler.md R155). -/
theorem apptParse_cases (v : Option Val) :
    (∃ en ds, apptParse v = .ok (en, ds) ∧ ds.length ≤ 8)
      ∨ ∃ r, (r = .apptValue ∨ r = .apptField ∨ r = .apptLong) ∧ apptParse v = refuse r := by
  rcases v with _ | (t | n)
  · exact .inr ⟨_, .inl rfl, rfl⟩
  · simp only [apptParse]
    rcases apptBytes_cases (splitComma t).tail with ⟨ds, hd, _⟩ | hd
    · rw [hd, bind_ok]
      by_cases hl : Config.apptMaxFields < ds.length
      · simp only [hl, if_true]; exact .inr ⟨_, .inr (.inr rfl), rfl⟩
      · simp only [hl, if_false]; exact .inl ⟨_, _, rfl, by simpa [Config.apptMaxFields] using hl⟩
    · rw [hd]; exact .inr ⟨_, .inr (.inl rfl), rfl⟩
  · exact .inr ⟨_, .inl rfl, rfl⟩

/-- The overlay on a frame of at least 12 bytes (44_assembler.md R156). -/
theorem apptOverlay_of_parse {rq : Request} {i : Fin 3} {en : Byte} {ds : List Byte} {F : List Byte}
    (hp : apptParse (rq.controlField (slotName i)) = .ok (en, ds)) (h0 : 12 ≤ F.length) (h1 : F.length ≤ 255)
    (hd : ds.length ≤ 8) :
    apptOverlay rq i (.ofSeq F) = .ok (.ofSeq (putRun F 11 (Config.subAppt i :: en :: ds))) := by
  have hb : Config.fbMax = 256 := rfl
  have l1 : (putAt F 11 (Config.subAppt i)).length = F.length := by rw [putAt_length]; split <;> omega
  have l2 : (putAt (putAt F 11 (Config.subAppt i)) 12 en).length = F.length := by
    rw [putAt_length]; split <;> omega
  simp only [apptOverlay, hp, bind_ok]
  rw [ofSeq_set _ (by omega) (by omega) (by omega), bind_ok]
  simp only [Config.apptEnOff, Config.apptDataOff]
  rw [ofSeq_set _ (by omega) (by omega) (by omega), bind_ok]
  rw [ofSeq_setRun _ (by omega) (by omega) (by omega)]
  rfl

/-- All that the overlay of one slot can do (44_assembler.md R154 to R156). -/
theorem apptIfPresent_cases (rq : Request) (i : Fin 3) {F : List Byte} (h0 : 12 ≤ F.length) (h1 : F.length ≤ 255) :
    (slotFits rq i = true ∧ ∃ F', apptIfPresent rq i (.ofSeq F) = .ok (.ofSeq F') ∧ F.length ≤ F'.length
        ∧ F'.length ≤ max F.length 20 ∧ ∀ a, a ≤ 10 → memReadOpt F' a = memReadOpt F a)
      ∨ (slotFits rq i = false ∧ ∃ r, (r = .apptValue ∨ r = .apptField ∨ r = .apptLong)
        ∧ apptIfPresent rq i (.ofSeq F) = refuse r) := by
  unfold apptIfPresent slotFits
  rcases hv : rq.controlField (slotName i) with _ | v
  · exact .inl ⟨rfl, F, rfl, by omega, by omega, fun _ _ => rfl⟩
  · simp only [Option.isSome_some, applyIf_true]
    rcases apptParse_cases (some v) with ⟨en, ds, hp, hd⟩ | ⟨r, hr, hp⟩
    · refine .inl ⟨by rw [hp]; rfl, _, apptOverlay_of_parse (hv ▸ hp) h0 h1 hd, ?_, ?_, fun a ha => ?_⟩
      · rw [putRun_length _ (by omega) (by omega)]; omega
      · rw [putRun_length _ (by omega) (by omega)]; simp only [List.length_cons]; omega
      · rw [memReadOpt_putRun _ (by omega) (by omega)]
        have : ¬ (11 ≤ a ∧ a < 11 + (Config.subAppt i :: en :: ds).length) := by omega
        simp only [this, if_false]
    · refine .inr ⟨by rw [hp]; rfl, r, hr, ?_⟩
      simp only [apptOverlay, hv, hp, bind_refuse]

/-! ### Start and the final step -/

theorem startFrame_eq : startFrame = .ok (.ofSeq Config.hdr) := by rfl

/-- The bytes of a finished frame: the length byte at offset 2, the checksum appended (44_assembler.md R160). -/
def finished (F : List Byte) : List Byte :=
  let G := F.set 1 (BitVec.ofNat 8 F.length)
  G ++ [cksum G 2 F.length]

theorem finalizeFrame_eq {F : List Byte} (h0 : 2 ≤ F.length) (h1 : F.length ≤ 255) :
    finalizeFrame (.ofSeq F) = .ok (.ofSeq (finished F)) := by
  have hb : Config.fbMax = 256 := rfl
  have hl : (F.set 1 (BitVec.ofNat 8 F.length)).length = F.length := by simp
  simp only [finalizeFrame, ofSeq_len]
  rw [ofSeq_set _ (by omega) (by omega) (by omega), bind_ok, putAt_inside _ (by omega), ofSeq_seq]
  have := ofSeq_append (F := F.set 1 (BitVec.ofNat 8 F.length))
    (cksum (F.set 1 (BitVec.ofNat 8 F.length)) 2 F.length) (by omega)
  rw [hl] at this
  exact this

@[simp] theorem finished_length (F : List Byte) : (finished F).length = F.length + 1 := by simp [finished]

/-- What a finished frame reads as: the length byte at offset 2, the branch's bytes elsewhere below the checksum. -/
theorem memReadOpt_finished {F : List Byte} (a : Nat) (h : a ≤ F.length) :
    memReadOpt (finished F) a = if a = 2 then some (BitVec.ofNat 8 F.length) else memReadOpt F a := by
  simp only [finished]
  rw [memReadOpt_append_left (by simpa using h)]
  unfold memReadOpt
  by_cases h0 : a = 0
  · subst h0; simp
  · simp only [h0, if_false, List.getElem?_set]
    by_cases h2 : a = 2
    · subst h2; simp [show 1 < F.length by omega]
    · simp [show ¬ 1 = a - 1 by omega, h2]

/-- The bytes before the branch of a control frame. -/
theorem controlStart_eq : (FrameBuffer.ofSeq Config.hdr).set 10 Config.cmdControl = .ok (.ofSeq (Config.hdr ++ [Config.cmdControl])) := by
  rfl

/-- All that a control request can make of the frame buffer (44_assembler.md R143 to R160): a finished frame when every
value fits, and a refusal of a number or of an appointment value otherwise. -/
theorem controlFrame_cases {cfg : Config} (h : cfg.wellFormed = true) (rq : Request) :
    ((baseFits cfg rq && slotFits rq 0 && slotFits rq 1 && slotFits rq 2) = true
        ∧ ∃ F, buildFrame (controlBody cfg rq) = .ok (.ofSeq (finished F)) ∧ 12 ≤ F.length ∧ F.length ≤ 255
          ∧ ∀ a, a ≤ 10 → memReadOpt F a = memReadOpt (Config.hdr ++ [Config.cmdControl]) a)
      ∨ ((baseFits cfg rq && slotFits rq 0 && slotFits rq 1 && slotFits rq 2) = false
        ∧ ∃ r, (r = .numRange ∨ r = .apptValue ∨ r = .apptField ∨ r = .apptLong)
          ∧ buildFrame (controlBody cfg rq) = refuse r) := by
  have hbase := baseLength_bounds h rq
  simp only [buildFrame, startFrame_eq, bind_ok, controlBody, controlStart_eq, apptOverlays]
  rcases baseBody_cases h rq (F := Config.hdr ++ [Config.cmdControl]) rfl with ⟨hb, F0, e0, l0, f0⟩ | ⟨hb, e0⟩
  · simp only [e0, bind_ok, hb, Bool.true_and]
    rcases apptIfPresent_cases rq 0 (F := F0) (by omega) (by omega) with ⟨s1, F1, e1, l1, u1, f1⟩ | ⟨s1, r, hr, e1⟩
    · simp only [e1, bind_ok, s1, Bool.true_and]
      rcases apptIfPresent_cases rq 1 (F := F1) (by omega) (by omega) with ⟨s2, F2, e2, l2, u2, f2⟩ | ⟨s2, r, hr, e2⟩
      · simp only [e2, bind_ok, s2, Bool.true_and]
        rcases apptIfPresent_cases rq 2 (F := F2) (by omega) (by omega) with ⟨s3, F3, e3, l3, u3, f3⟩ | ⟨s3, r, hr, e3⟩
        · simp only [e3, bind_ok, s3]
          refine .inl ⟨trivial, F3, finalizeFrame_eq (by omega) (by omega), by omega, by omega, fun a ha => ?_⟩
          rw [f3 a ha, f2 a ha, f1 a ha, f0 a ha]
        · simp only [e3, bind_refuse, s3]; exact .inr ⟨trivial, r, .inr hr, rfl⟩
      · simp only [e2, bind_refuse, s2]; exact .inr ⟨by simp, r, .inr hr, rfl⟩
    · simp only [e1, bind_refuse, s1]; exact .inr ⟨by simp, r, .inr hr, rfl⟩
  · simp only [e0, bind_refuse, hb]; exact .inr ⟨by simp, _, .inl rfl, rfl⟩

end Sys2Proof.Machine
end

