-- ==== Sys2Proof/Laws/Bits.lean ====
section
/-! SUPPORT. The bits that the rows of `ENC_FULL` leave alone, and TX_FULL taken apart around one row of the table. -/

namespace Sys2Proof.Machine

/-- The bits `mask` of the byte at an offset, if there is one. -/
def bitsAt (F : List Byte) (off : Nat) (mask : Byte) : Option Byte := (memReadOpt F off).map (· &&& mask)

theorem bitsAt_of_read {F : List Byte} {off : Nat} {mask b : Byte} (h : memReadOpt F off = some b) :
    bitsAt F off mask = some (b &&& mask) := by simp [bitsAt, h]

theorem bitsAt_full (F : List Byte) (off : Nat) : bitsAt F off 0xFF = memReadOpt F off := by
  have h : (fun b : Byte => b &&& 0xFF) = id := by
    funext b; exact BitVec.and_allOnes (x := b)
  rw [bitsAt, h, Option.map_id]; rfl

theorem bitsAt_congr {F G : List Byte} {off : Nat} {mask : Byte} (h : memReadOpt F off = memReadOpt G off) :
    bitsAt F off mask = bitsAt G off mask := by simp [bitsAt, h]

theorem apart_iff {o off : Nat} {m mask : Byte} : apart o m off mask = true ↔ (o = off → m &&& mask = 0) := by
  simp only [apart, Bool.or_eq_true, bne_iff_ne, beq_iff_eq]
  tauto

/-- Bits that two bytes have not in common are set in one of them at most. -/
theorem getLsbD_of_apart {m mask : Byte} (h : m &&& mask = 0) (i : Nat) : (m.getLsbD i && mask.getLsbD i) = false := by
  rw [← BitVec.getLsbD_and, h]; exact BitVec.getLsbD_zero

/-- Setting bits apart from `mask` leaves those of `mask` alone. -/
theorem or_and_of_apart {b m mask : Byte} (h : m &&& mask = 0) : (b ||| m) &&& mask = b &&& mask := by
  apply BitVec.eq_of_getLsbD_eq
  intro i _
  have := getLsbD_of_apart h i
  simp only [BitVec.getLsbD_and, BitVec.getLsbD_or]
  revert this
  generalize m.getLsbD i = x, mask.getLsbD i = y, b.getLsbD i = z
  revert x y z; decide

/-- Clearing bits apart from `mask` leaves those of `mask` alone. -/
theorem andNot_and_of_apart {b m mask : Byte} (h : m &&& mask = 0) : b &&& ~~~m &&& mask = b &&& mask := by
  apply BitVec.eq_of_getLsbD_eq
  intro i hi
  have := getLsbD_of_apart h i
  simp only [BitVec.getLsbD_and, BitVec.getLsbD_not, hi, decide_true, Bool.true_and]
  revert this
  generalize m.getLsbD i = x, mask.getLsbD i = y, b.getLsbD i = z
  revert x y z; decide

/-- `r` holds as many bytes as `F` and the same bits `mask` at `off`. -/
def Keeps (off : Nat) (mask : Byte) (F : List Byte) (r : Except Stop FrameBuffer) : Prop :=
  ∃ F', r = .ok (.ofSeq F') ∧ F'.length = F.length ∧ bitsAt F' off mask = bitsAt F off mask

theorem Keeps.refl (off : Nat) (mask : Byte) (F : List Byte) : Keeps off mask F (.ok (.ofSeq F)) := ⟨F, rfl, rfl, rfl⟩

theorem Keeps.bind {off : Nat} {mask : Byte} {F : List Byte} {r : Except Stop FrameBuffer}
    {g : FrameBuffer → Except Stop FrameBuffer} (h : Keeps off mask F r)
    (hg : ∀ F', F'.length = F.length → Keeps off mask F' (g (.ofSeq F'))) : Keeps off mask F (r >>= g) := by
  obtain ⟨F1, rfl, hl1, hb1⟩ := h
  obtain ⟨F2, h2, hl2, hb2⟩ := hg F1 hl1
  exact ⟨F2, by simpa using h2, by omega, hb2.trans hb1⟩

theorem InPlace.keeps {P : Nat → Prop} {off : Nat} {mask : Byte} {F : List Byte} {r : Except Stop FrameBuffer}
    (h : InPlace P F r) (hP : ¬ P off) : Keeps off mask F r := by
  obtain ⟨F', hr, hl, hf⟩ := h
  exact ⟨F', hr, hl, bitsAt_congr (hf off hP)⟩

theorem applyIf_keeps {off : Nat} {mask : Byte} {F : List Byte} {g : FrameBuffer → Except Stop FrameBuffer} (c : Bool)
    (h : c = true → Keeps off mask F (g (.ofSeq F))) : Keeps off mask F (applyIf c g (.ofSeq F)) := by
  cases c
  · exact Keeps.refl _ _ _
  · exact h rfl

theorem Inside.of_length {F F' : List Byte} {off : Nat} (h : Inside F off) (hl : F'.length = F.length) : Inside F' off :=
  ⟨h.1, by have := h.2; omega, by have := h.2; omega⟩

/-- What the byte written by `FBOr` reads as, and every other one. -/
theorem or_reads {F : List Byte} {o : Nat} {b : Byte} (m : Byte) (h : Inside F o) (hb : memReadOpt F o = some b) :
    ∃ F', (FrameBuffer.ofSeq F).or o m = .ok (.ofSeq F') ∧ F'.length = F.length
      ∧ ∀ a, memReadOpt F' a = if a = o then some (b ||| m) else memReadOpt F a := by
  have h2 := h.2
  refine ⟨_, ofSeq_or m hb (by omega), ?_, memReadOpt_putAt _ h.1 (by omega)⟩
  rw [putAt_length]; split <;> omega

/-- What the byte written by `FBAndNot` reads as, and every other one. -/
theorem andNot_reads {F : List Byte} {o : Nat} {b : Byte} (m : Byte) (h : Inside F o) (hb : memReadOpt F o = some b) :
    ∃ F', (FrameBuffer.ofSeq F).andNot o m = .ok (.ofSeq F') ∧ F'.length = F.length
      ∧ ∀ a, memReadOpt F' a = if a = o then some (b &&& ~~~m) else memReadOpt F a := by
  have h2 := h.2
  refine ⟨_, ofSeq_andNot m hb (by omega), ?_, memReadOpt_putAt _ h.1 (by omega)⟩
  rw [putAt_length]; split <;> omega

/-- What the byte written by `FBSet` inside the buffer reads as, and every other one. -/
theorem set_reads {F : List Byte} {o : Nat} (v : Byte) (h : Inside F o) :
    ∃ F', (FrameBuffer.ofSeq F).set o v = .ok (.ofSeq F') ∧ F'.length = F.length
      ∧ ∀ a, memReadOpt F' a = if a = o then some v else memReadOpt F a := by
  have h2 := h.2
  refine ⟨_, ofSeq_set v h.1 (by omega) (by omega), ?_, memReadOpt_putAt _ h.1 (by omega)⟩
  rw [putAt_length]; split <;> omega

theorem or_keeps {F : List Byte} {o off : Nat} {m mask : Byte} (h : Inside F o) (hk : apart o m off mask = true) :
    Keeps off mask F ((FrameBuffer.ofSeq F).or o m) := by
  obtain ⟨b, hb⟩ := exists_byte h
  obtain ⟨F', he, hl, hr⟩ := or_reads m h hb
  refine ⟨F', he, hl, ?_⟩
  simp only [bitsAt, hr]
  by_cases e : off = o
  · subst e; simp [hb, or_and_of_apart (apart_iff.mp hk rfl)]
  · simp [e]

theorem andNot_keeps {F : List Byte} {o off : Nat} {m mask : Byte} (h : Inside F o) (hk : apart o m off mask = true) :
    Keeps off mask F ((FrameBuffer.ofSeq F).andNot o m) := by
  obtain ⟨b, hb⟩ := exists_byte h
  obtain ⟨F', he, hl, hr⟩ := andNot_reads m h hb
  refine ⟨F', he, hl, ?_⟩
  simp only [bitsAt, hr]
  by_cases e : off = o
  · subst e; simp [hb, andNot_and_of_apart (apart_iff.mp hk rfl)]
  · simp [e]

theorem setModeEnc_keeps {F : List Byte} {enc : ModeEnc} {off : Nat} {mask : Byte} (h : Inside F (Config.modeEncOff enc))
    (hk : encKeeps off mask enc = true) : Keeps off mask F (setModeEnc (.ofSeq F) enc) := by
  cases enc with
  | bit o m => exact or_keeps h hk
  | byte o v =>
    have : o ≠ off := by simpa [encKeeps] using hk
    exact (set_inPlace v h).keeps (fun e => this (by simpa [Config.modeEncOff] using e.symm))

theorem clearModeEnc_keeps {F : List Byte} {enc : ModeEnc} {off : Nat} {mask : Byte} (h : Inside F (Config.modeEncOff enc))
    (hk : encKeeps off mask enc = true) : Keeps off mask F (clearModeEnc (.ofSeq F) enc) := by
  cases enc with
  | bit o m => exact andNot_keeps h hk
  | byte o v =>
    have : o ≠ off := by simpa [encKeeps] using hk
    exact (set_inPlace 0x00 h).keeps (fun e => this (by simpa [Config.modeEncOff] using e.symm))

theorem clearModeTable_keeps {F : List Byte} {table : List (Str × ModeEnc)} {off : Nat} {mask : Byte}
    (h : TableInside F table) (hk : table.all (fun e => encKeeps off mask e.2) = true) :
    Keeps off mask F (clearModeTable (.ofSeq F) table) := by
  induction table generalizing F with
  | nil => exact Keeps.refl _ _ _
  | cons e rest ih =>
    simp only [List.all_cons, Bool.and_eq_true] at hk
    refine (clearModeEnc_keeps (h e (by simp)) hk.1).bind fun F' hl => ?_
    exact ih (fun e' he' => (h e' (by simp [he'])).of_length hl) hk.2

/-- A row of `ENC_FULL` whose number fits leaves alone the bits that `rowKeeps` says it keeps. -/
theorem execEncRow_keeps {F : List Byte} (rows : List EncRow) (rq : Request) (row : EncRow) {off : Nat} {mask : Byte}
    (h : RowInside F row) (ht : TableInside F (modeTable rows)) (hf : rowFits rq row = true)
    (hk : rowKeeps rows rq off mask row = true) : Keeps off mask F (execEncRow rows rq row (.ofSeq F)) := by
  cases row with
  | bool name o m =>
    simp only [rowKeeps, Bool.or_eq_true, Bool.not_eq_true'] at hk
    refine applyIf_keeps (g := (·.or o m)) _ fun hc => or_keeps h (hk.resolve_right ?_)
    simp [hc]
  | mode regions table =>
    simp only [rowKeeps] at hk
    simp only [execEncRow]
    cases hm : rq.controlField (ascii "mode") with
    | none => exact Keeps.refl _ _ _
    | some m =>
      rw [hm] at hk
      simp only [modeRowKeeps, Bool.and_eq_true, Bool.not_eq_true'] at hk
      refine ((clearRegions_inPlace h.1).keeps (by simp [hk.1])).bind fun F' hl => ?_
      cases m with
      | num n => exact Keeps.refl _ _ _
      | txt name =>
        have hk2 := hk.2
        dsimp only at hk2 ⊢
        cases hlk : table.lookup name with
        | none => exact Keeps.refl _ _ _
        | some enc =>
          rw [hlk] at hk2
          exact setModeEnc_keeps ((h.2 _ (mem_of_lookup hlk)).of_length hl) hk2
  | heat ho hm wo wm =>
    simp only [rowKeeps, Bool.or_eq_true, Bool.and_eq_true] at hk
    simp only [execEncRow]
    cases hv : rq.controlField (ascii "heat") with
    | none => exact Keeps.refl _ _ _
    | some v =>
      simp only [hv, Option.isNone_some, Bool.false_eq_true, false_or] at hk
      refine (andNot_keeps h.1 hk.1).bind fun F1 h1 => ?_
      refine (andNot_keeps (h.2.of_length h1) hk.2).bind fun F2 h2 => ?_
      refine (applyIf_keeps _ fun _ => or_keeps (h.1.of_length (h2.trans h1)) hk.1).bind fun F3 h3 => ?_
      exact applyIf_keeps _ fun _ => or_keeps (h.2.of_length (h3.trans (h2.trans h1))) hk.2
  | numf name o fallback clearsMode =>
    simp only [rowKeeps] at hk
    simp only [rowFits] at hf
    simp only [execEncRow, execNumfRow]
    have hs : ∀ {F' : List Byte} (n : Nat), F'.length = F.length → numFits (some (.num n)) = true → o ≠ off →
        Keeps off mask F' (setNum (.ofSeq F') o n) := by
      intro F' n hl hn ho
      rcases setNum_cases n (Inside.of_length (F := F) (F' := F') h hl) with ⟨_, hp⟩ | ⟨hn', _⟩
      · exact hp.keeps (fun e => ho e.symm)
      · simp [numFits] at hn; omega
    rcases hc : rq.controlField name with _ | (t | n) <;> rw [hc] at hk hf
    · rcases hst : rq.statusField name with _ | (t | n) <;> rw [hst] at hk hf
      · exact Keeps.refl _ _ _
      · exact Keeps.refl _ _ _
      · simp only [Bool.or_eq_true, Bool.not_eq_true', bne_iff_ne] at hk hf
        refine applyIf_keeps (g := (setNum · o n)) _ fun hfb => ?_
        exact hs n rfl (hf.resolve_left (by simp [hfb])) (hk.resolve_left (by simp [hfb]))
    · exact Keeps.refl _ _ _
    · simp only [Bool.and_eq_true, Bool.or_eq_true, Bool.not_eq_true', bne_iff_ne] at hk
      refine Keeps.bind (applyIf_keeps _ fun hcm => ?_) fun F' hl => hs n hl hf hk.1
      exact clearModeTable_keeps ht (hk.2.resolve_left (by simp [hcm]))

/-- Rows of `ENC_FULL` whose numbers fit leave alone the bits that `rowsKeep` says they keep. -/
theorem execEncRows_keeps {F : List Byte} (rows : List EncRow) (rq : Request) (part : List EncRow) {off : Nat} {mask : Byte}
    (h : ∀ row ∈ part, RowInside F row) (ht : TableInside F (modeTable rows)) (hf : part.all (rowFits rq) = true)
    (hk : rowsKeep rows part rq off mask = true) : Keeps off mask F (execEncRows rows rq part (.ofSeq F)) := by
  induction part generalizing F with
  | nil => exact Keeps.refl _ _ _
  | cons row rest ih =>
    simp only [rowsKeep, List.all_cons, Bool.and_eq_true] at hk hf
    refine (execEncRow_keeps rows rq row (h row (by simp)) ht hf.1 hk.1).bind fun F' hl => ?_
    exact ih (fun r hr => (h r (by simp [hr])).of_length hl) (ht.of_length hl) hf.2 hk.2

theorem execEncRows_append (rows : List EncRow) (rq : Request) (pre post : List EncRow) (fb : FrameBuffer) :
    execEncRows rows rq (pre ++ post) fb = execEncRows rows rq pre fb >>= execEncRows rows rq post := by
  induction pre generalizing fb with
  | nil => rfl
  | cons row rest ih =>
    simp only [List.cons_append, execEncRows]
    cases execEncRow rows rq row fb with
    | error e => rfl
    | ok fb1 => simp only [bind_ok, ih]

/-- The bytes before the rows of the full branch: header, command, subtype, a zero window (44_assembler.md R148). -/
def fullStart (cfg : Config) : List Byte :=
  Config.hdr ++ [Config.cmdControl] ++ [Config.subFull] ++ List.replicate (cfg.fullHi - 11) 0x00

theorem fullStart_length {cfg : Config} (h : cfg.wellFormed = true) : (fullStart cfg).length = cfg.fullHi := by
  have := wellFormed_windows h
  simp [fullStart, Config.hdr]; omega

/-- The window starts as zeros. -/
theorem fullStart_reads {cfg : Config} {a : Nat} (h0 : 12 ≤ a) (h1 : a ≤ cfg.fullHi) :
    memReadOpt (fullStart cfg) a = some 0x00 := by
  have e : a ≠ 0 := by omega
  have hl : (Config.hdr ++ [Config.cmdControl] ++ [Config.subFull]).length = 11 := rfl
  simp only [memReadOpt, e, if_false, fullStart]
  rw [List.getElem?_append_right (by omega), hl, List.getElem?_replicate]
  simp; omega

theorem fullStart_bits {cfg : Config} {a : Nat} (mask : Byte) (h0 : 12 ≤ a) (h1 : a ≤ cfg.fullHi) :
    bitsAt (fullStart cfg) a mask = some 0x00 := by
  rw [bitsAt_of_read (fullStart_reads h0 h1)]; simp

/-- TX_FULL is the rows of `ENC_FULL` on the zero window, then the final step (44_assembler.md R148, R160). -/
theorem execTxFull_eq {s : State} {rq : Request} (h : s.cfg.wellFormed = true) (hrq : s.rq = some rq) {F : List Byte}
    (hl : F.length = s.cfg.fullHi)
    (he : execEncRows s.cfg.encFull rq s.cfg.encFull (.ofSeq (fullStart s.cfg)) = .ok (.ofSeq F)) :
    execTxFull s = .next (s.completeFrame (.ofSeq (finished F))) := by
  have hw := wellFormed_windows h
  have hwin := window_holds (F := Config.hdr ++ [Config.cmdControl]) (hi := s.cfg.fullHi) Config.subFull rfl (by omega) (by omega)
  have hb : fullBody s.cfg rq (.ofSeq (Config.hdr ++ [Config.cmdControl])) = .ok (.ofSeq F) := by
    have : fullBody s.cfg rq (.ofSeq (Config.hdr ++ [Config.cmdControl]))
        = ((do let fb ← (FrameBuffer.ofSeq (Config.hdr ++ [Config.cmdControl])).set 11 Config.subFull; fb.clear 12 s.cfg.fullHi)
          >>= execEncRows s.cfg.encFull rq s.cfg.encFull) := by
      simp only [fullBody]
      cases (FrameBuffer.ofSeq (Config.hdr ++ [Config.cmdControl])).set 11 Config.subFull <;> rfl
    rw [this, hwin, bind_ok]; exact he
  simp only [execTxFull, emitControl, hrq, operand_some, emitFrame, checkConfig_of_wellFormed h, bind_ok, buildFrame,
    startFrame_eq, controlThen, controlStart_eq, hb, finalizeFrame_eq (F := F) (by omega) (by omega)]
  rfl

/-- TX_FULL taken apart around one row: the rows before it, the row, the rows after it, the final step. -/
theorem execTxFull_around {s : State} {rq : Request} (h : s.cfg.wellFormed = true) (hrq : s.rq = some rq)
    (hf : fullFits s.cfg rq = true) {pre post : List EncRow} {row : EncRow} (hrows : s.cfg.encFull = pre ++ row :: post) :
    ∃ F1 F2 F3,
      execEncRows s.cfg.encFull rq pre (.ofSeq (fullStart s.cfg)) = .ok (.ofSeq F1) ∧ F1.length = s.cfg.fullHi
      ∧ execEncRow s.cfg.encFull rq row (.ofSeq F1) = .ok (.ofSeq F2) ∧ F2.length = s.cfg.fullHi
      ∧ execEncRows s.cfg.encFull rq post (.ofSeq F2) = .ok (.ofSeq F3) ∧ F3.length = s.cfg.fullHi
      ∧ execTxFull s = .next (s.completeFrame (.ofSeq (finished F3))) := by
  have hl0 := fullStart_length h
  have hin : ∀ {G : List Byte}, G.length = s.cfg.fullHi → ∀ r ∈ s.cfg.encFull, RowInside G r := fun hl => wellFormed_rowInside h hl
  have htab : ∀ {G : List Byte}, G.length = s.cfg.fullHi → TableInside G (modeTable s.cfg.encFull) := fun hl => wellFormed_tableInside h hl
  have hfits : pre.all (rowFits rq) = true ∧ rowFits rq row = true ∧ post.all (rowFits rq) = true := by
    have := hf
    unfold fullFits at this
    rw [hrows, List.all_append, List.all_cons] at this
    simpa [Bool.and_eq_true] using this
  have ok : ∀ {part : List EncRow} {G : List Byte}, (∀ r ∈ part, r ∈ s.cfg.encFull) → part.all (rowFits rq) = true →
      G.length = s.cfg.fullHi → ∃ G', execEncRows s.cfg.encFull rq part (.ofSeq G) = .ok (.ofSeq G') ∧ G'.length = s.cfg.fullHi := by
    intro part G hm hp hl
    rcases execEncRows_cases s.cfg.encFull rq part (fun r hr => hin hl r (hm r hr)) (htab hl) with ⟨_, G', e, l, _⟩ | ⟨hn, _⟩
    · exact ⟨G', e, l.trans hl⟩
    · simp [hp] at hn
  obtain ⟨F1, e1, l1⟩ := ok (part := pre) (fun r hr => by rw [hrows]; simp [hr]) hfits.1 hl0
  have hrow : ∃ F2, execEncRow s.cfg.encFull rq row (.ofSeq F1) = .ok (.ofSeq F2) ∧ F2.length = s.cfg.fullHi := by
    rcases execEncRow_cases s.cfg.encFull rq row (hin l1 row (by rw [hrows]; simp)) (htab l1) with ⟨_, G', e, l, _⟩ | ⟨hn, _⟩
    · exact ⟨G', e, l.trans l1⟩
    · simp [hfits.2.1] at hn
  obtain ⟨F2, e2, l2⟩ := hrow
  obtain ⟨F3, e3, l3⟩ := ok (part := post) (fun r hr => by rw [hrows]; simp [hr]) hfits.2.2 l2
  refine ⟨F1, F2, F3, e1, l1, e2, l2, e3, l3, execTxFull_eq h hrq l3 ?_⟩
  conv => lhs; arg 3; rw [hrows]
  rw [execEncRows_append, e1, bind_ok]
  simp only [execEncRows, e2, bind_ok, e3]

/-- The bits that the rows after a row keep stand in the frame as the row left them. -/
theorem bits_after {s : State} {rq : Request} (h : s.cfg.wellFormed = true) (hf : fullFits s.cfg rq = true)
    {pre post : List EncRow} {row : EncRow} (hrows : s.cfg.encFull = pre ++ row :: post) {F2 F3 : List Byte}
    (l2 : F2.length = s.cfg.fullHi) (e3 : execEncRows s.cfg.encFull rq post (.ofSeq F2) = .ok (.ofSeq F3)) {off : Nat} {mask : Byte}
    (hk : rowsKeep s.cfg.encFull post rq off mask = true) : bitsAt F3 off mask = bitsAt F2 off mask := by
  have hfits : post.all (rowFits rq) = true := by
    have := hf
    unfold fullFits at this
    rw [hrows, List.all_append, List.all_cons] at this
    simp only [Bool.and_eq_true] at this
    exact this.2.2
  obtain ⟨F', e, _, hb⟩ := execEncRows_keeps s.cfg.encFull rq post
    (fun r hr => wellFormed_rowInside h l2 r (by rw [hrows]; simp [hr])) (wellFormed_tableInside h l2) hfits hk
  have : F' = F3 := by
    rw [e] at e3
    have := congrArg FrameBuffer.seq (Except.ok.inj e3)
    simpa [ofSeq_seq] using this
  exact this ▸ hb

end Sys2Proof.Machine
end

