-- ==== Sys2Proof/Laws/Docs.lean ====
section
/-! SUPPORT. Maps of named fields: a field reads as it was last written, and writing keeps the canonical form. -/

namespace Sys2Proof

theorem strLt_irrefl (a : Str) : strLt a a = false := by
  induction a with
  | nil => rfl
  | cons x xs ih => simp [strLt, ih]

theorem strLt_trans {a b c : Str} (h : strLt a b = true) (h' : strLt b c = true) : strLt a c = true := by
  induction a generalizing b c with
  | nil => cases b <;> cases c <;> simp_all [strLt]
  | cons x xs ih =>
    cases b with
    | nil => simp [strLt] at h
    | cons y ys =>
      cases c with
      | nil => simp [strLt] at h'
      | cons z zs =>
        simp only [strLt] at h h' ⊢
        by_cases h1 : x.toNat < y.toNat
        · by_cases h2 : y.toNat < z.toNat
          · simp [Nat.lt_trans h1 h2]
          · simp only [h2, if_false] at h'
            split at h'
            · rename_i hyz; subst hyz; simp [h1]
            · simp at h'
        · simp only [h1, if_false] at h
          split at h
          · rename_i hxy; subst hxy
            by_cases h2 : x.toNat < z.toNat
            · simp [h2]
            · simp only [h2, if_false] at h' ⊢
              split at h'
              · rename_i hxz; simp [hxz, ih h h']
              · simp at h'
          · simp at h

/-- Of two different strings one comes first. -/
theorem strLt_total {a b : Str} (h : a ≠ b) (h' : strLt a b = false) : strLt b a = true := by
  induction a generalizing b with
  | nil => cases b <;> simp_all [strLt]
  | cons x xs ih =>
    cases b with
    | nil => rfl
    | cons y ys =>
      simp only [strLt] at h' ⊢
      by_cases h1 : x.toNat < y.toNat
      · simp [h1] at h'
      · simp only [h1, if_false] at h'
        by_cases h2 : x = y
        · subst h2
          simp only [if_true] at h'
          simp [ih (by simpa using h) h']
        · have : y.toNat < x.toNat := by
            have : x.toNat ≠ y.toNat := fun hh => h2 (BitVec.eq_of_toNat_eq hh)
            omega
          simp [this]

namespace Machine

/-- A field reads as it was last written, and writing one leaves every other field alone. -/
theorem docGet_docSet (d : Doc) (n m : Str) (v : Val) :
    docGet (docSet d n v) m = if m = n then some v else docGet d m := by
  induction d with
  | nil => simp only [docSet, docGet, @eq_comm _ n m]
  | cons e rest ih =>
    simp only [docSet]
    split
    · rename_i h; subst h
      by_cases hm : e.1 = m
      · simp [docGet, hm]
      · simp [docGet, hm, Ne.symm hm]
    · split
      · simp only [docGet, @eq_comm _ n m]
      · by_cases hm : e.1 = m
        · have : m ≠ n := by rintro rfl; contradiction
          simp [docGet, hm, this]
        · simp [docGet, hm, ih]

@[simp] theorem docGet_docSet_same (d : Doc) (n : Str) (v : Val) : docGet (docSet d n v) n = some v := by
  simp [docGet_docSet]

theorem docGet_docSet_other (d : Doc) {n m : Str} (v : Val) (h : m ≠ n) : docGet (docSet d n v) m = docGet d m := by
  simp [docGet_docSet, h]

@[simp] theorem docGet_nil (n : Str) : docGet [] n = none := rfl

theorem mem_docSet {d : Doc} {n : Str} {v : Val} {e : Str × Val} (h : e ∈ docSet d n v) : e = (n, v) ∨ e ∈ d := by
  induction d with
  | nil => simp_all [docSet]
  | cons x rest ih =>
    simp only [docSet] at h
    split at h
    · simp at h; rcases h with h | h <;> simp [h]
    · split at h
      · simp at h; rcases h with h | h | h <;> simp [h]
      · simp at h
        rcases h with h | h
        · simp [h]
        · rcases ih h with h | h <;> simp [h]

/-- Writing a field keeps the canonical form. -/
theorem docSet_wf {d : Doc} (h : docWf d) (n : Str) (v : Val) : docWf (docSet d n v) := by
  induction d with
  | nil => simp [docSet, docWf]
  | cons e rest ih =>
    simp only [docWf, List.pairwise_cons] at h
    simp only [docSet]
    split
    · rename_i he; subst he; exact List.pairwise_cons.mpr ⟨h.1, h.2⟩
    · split
      · rename_i _ hlt
        refine List.pairwise_cons.mpr ⟨?_, List.pairwise_cons.mpr ⟨h.1, h.2⟩⟩
        intro x hx
        simp at hx
        rcases hx with rfl | hx
        · exact hlt
        · exact strLt_trans hlt (h.1 x hx)
      · rename_i hne hnlt
        refine List.pairwise_cons.mpr ⟨?_, ih h.2⟩
        intro x hx
        rcases mem_docSet hx with rfl | hx
        · exact strLt_total (Ne.symm hne) (by simpa using hnlt)
        · exact h.1 x hx

theorem docWf_nil : docWf [] := List.Pairwise.nil

end Machine

end Sys2Proof
end

