-- ==== Sys2Proof/Laws/PerInstr.lean ====
section
/-! SUPPORT. Statements about every instruction as syntax, one lemma per constructor. -/

namespace Sys2Proof.Laws

/-- An instruction is well formed and its word fits its format. -/
def EncodesInFormat.Statement (i : Instr) : Prop :=
  i.wellFormed = true ∧ encode i < 2 ^ i.format.width

theorem EncodesInFormat.hex2bytes : EncodesInFormat.Statement .hex2bytes := ⟨rfl, by decide⟩
theorem EncodesInFormat.bytes2hex : EncodesInFormat.Statement .bytes2hex := ⟨rfl, by decide⟩
theorem EncodesInFormat.bytes2raw : EncodesInFormat.Statement .bytes2raw := ⟨rfl, by decide⟩
theorem EncodesInFormat.raw2bytes : EncodesInFormat.Statement .raw2bytes := ⟨rfl, by decide⟩
theorem EncodesInFormat.cksum : EncodesInFormat.Statement .cksum := ⟨rfl, by decide⟩
theorem EncodesInFormat.clamp : EncodesInFormat.Statement .clamp := ⟨rfl, by decide⟩
theorem EncodesInFormat.assemble : EncodesInFormat.Statement .assemble := ⟨rfl, by decide⟩
theorem EncodesInFormat.parse : EncodesInFormat.Statement .parse := ⟨rfl, by decide⟩
theorem EncodesInFormat.encode : EncodesInFormat.Statement .encode := ⟨rfl, by decide⟩
theorem EncodesInFormat.decode : EncodesInFormat.Statement .decode := ⟨rfl, by decide⟩
theorem EncodesInFormat.reservedA : EncodesInFormat.Statement .reservedA := ⟨rfl, by decide⟩
theorem EncodesInFormat.reservedB : EncodesInFormat.Statement .reservedB := ⟨rfl, by decide⟩
theorem EncodesInFormat.reservedC : EncodesInFormat.Statement .reservedC := ⟨rfl, by decide⟩
theorem EncodesInFormat.reservedD : EncodesInFormat.Statement .reservedD := ⟨rfl, by decide⟩
theorem EncodesInFormat.reservedE : EncodesInFormat.Statement .reservedE := ⟨rfl, by decide⟩
theorem EncodesInFormat.reservedF : EncodesInFormat.Statement .reservedF := ⟨rfl, by decide⟩
theorem EncodesInFormat.txQueryStatus : EncodesInFormat.Statement .txQueryStatus := ⟨rfl, by decide⟩
theorem EncodesInFormat.txQueryAppoint : EncodesInFormat.Statement .txQueryAppoint := ⟨rfl, by decide⟩
theorem EncodesInFormat.txPowerOn : EncodesInFormat.Statement .txPowerOn := ⟨rfl, by decide⟩
theorem EncodesInFormat.txPowerOff : EncodesInFormat.Statement .txPowerOff := ⟨rfl, by decide⟩
theorem EncodesInFormat.txFull : EncodesInFormat.Statement .txFull := ⟨rfl, by decide⟩
theorem EncodesInFormat.txPart : EncodesInFormat.Statement .txPart := ⟨rfl, by decide⟩
theorem EncodesInFormat.txAppoint0 : EncodesInFormat.Statement .txAppoint0 := ⟨rfl, by decide⟩
theorem EncodesInFormat.txAppoint1 : EncodesInFormat.Statement .txAppoint1 := ⟨rfl, by decide⟩
theorem EncodesInFormat.txAppoint2 : EncodesInFormat.Statement .txAppoint2 := ⟨rfl, by decide⟩
theorem EncodesInFormat.rxStatus0201 : EncodesInFormat.Statement .rxStatus0201 := ⟨rfl, by decide⟩
theorem EncodesInFormat.rxStatus0202 : EncodesInFormat.Statement .rxStatus0202 := ⟨rfl, by decide⟩
theorem EncodesInFormat.rxStatus0204 : EncodesInFormat.Statement .rxStatus0204 := ⟨rfl, by decide⟩
theorem EncodesInFormat.rxStatus0214 : EncodesInFormat.Statement .rxStatus0214 := ⟨rfl, by decide⟩
theorem EncodesInFormat.rxStatus0301 : EncodesInFormat.Statement .rxStatus0301 := ⟨rfl, by decide⟩
theorem EncodesInFormat.rxStatus0401 : EncodesInFormat.Statement .rxStatus0401 := ⟨rfl, by decide⟩
theorem EncodesInFormat.rxAppt0205 : EncodesInFormat.Statement .rxAppt0205 := ⟨rfl, by decide⟩
theorem EncodesInFormat.rxAppt0206 : EncodesInFormat.Statement .rxAppt0206 := ⟨rfl, by decide⟩
theorem EncodesInFormat.rxAppt0207 : EncodesInFormat.Statement .rxAppt0207 := ⟨rfl, by decide⟩
theorem EncodesInFormat.rxAppt0302 : EncodesInFormat.Statement .rxAppt0302 := ⟨rfl, by decide⟩

end Sys2Proof.Laws
end

