-- ==== Sys2Proof/Laws/Reports.lean ====
section
/-! SUPPORT. What a row of `DEC_STATUS`, a schedule record and the checksum can do. -/

namespace Sys2Proof.Machine

/-- The fields a row of `DEC_STATUS` may write. -/
def decWrites : DecRow → Str → Prop
  | .flag n _ _ _ _ _ modeName, m => m = n ∨ (modeName.isSome = true ∧ m = ascii "mode")
  | .enum n _ _ _ _, m => m = n
  | .num n _, m => m = n
  | .heatd, m => m = ascii "heat"

/-- A row leaves every field alone that it does not write (43_fieldmap.md R122 to R125). -/
theorem docGet_execDecRow_other (free : Bool) (S : List Byte) (row : DecRow) (d : Doc) {m : Str} (h : ¬ decWrites row m) :
    docGet (execDecRow free S row d) m = docGet d m := by
  cases row with
  | flag n off mask pat vs vc mn =>
    simp only [decWrites, not_or] at h
    simp only [execDecRow]
    split
    · unfold execFlagRow
      split
      · cases mn with
        | none => exact docGet_docSet_other _ _ h.1
        | some x =>
          have : m ≠ ascii "mode" := fun e => h.2 ⟨rfl, e⟩
          rw [docGet_docSet_other _ _ this, docGet_docSet_other _ _ h.1]
      · exact docGet_docSet_other _ _ h.1
    · rfl
  | enum n off mask ps vf =>
    simp only [execDecRow]
    split
    · exact docGet_docSet_other _ _ h
    · rfl
  | num n off =>
    simp only [execDecRow]
    split
    · exact docGet_docSet_other _ _ h
    · rfl
  | heatd =>
    simp only [execDecRow, execHeatdRow]
    split
    · exact docGet_docSet_other _ _ h
    · rfl

theorem docGet_execDecRows_other (free : Bool) (S : List Byte) (rows : List DecRow) (d : Doc) {m : Str}
    (h : ∀ row ∈ rows, ¬ decWrites row m) : docGet (execDecRows free S rows d) m = docGet d m := by
  induction rows generalizing d with
  | nil => rfl
  | cons row rest ih =>
    simp only [execDecRows]
    rw [ih _ (fun r hr => h r (by simp [hr])), docGet_execDecRow_other free S row d (h row (by simp))]

theorem execDecRows_append (free : Bool) (S : List Byte) (rows rows' : List DecRow) (d : Doc) :
    execDecRows free S (rows ++ rows') d = execDecRows free S rows' (execDecRows free S rows d) := by
  induction rows generalizing d with
  | nil => rfl
  | cons row rest ih => simp only [List.cons_append, execDecRows, ih]

/-- A row keeps the canonical form of the document. -/
theorem execDecRow_wf (free : Bool) (S : List Byte) (row : DecRow) {d : Doc} (h : docWf d) :
    docWf (execDecRow free S row d) := by
  cases row with
  | flag n off mask pat vs vc mn =>
    simp only [execDecRow]
    split
    · unfold execFlagRow
      split
      · cases mn with
        | none => exact docSet_wf h _ _
        | some x => exact docSet_wf (docSet_wf h _ _) _ _
      · exact docSet_wf h _ _
    · exact h
  | enum n off mask ps vf =>
    simp only [execDecRow]
    split
    · exact docSet_wf h _ _
    · exact h
  | num n off =>
    simp only [execDecRow]
    split
    · exact docSet_wf h _ _
    · exact h
  | heatd =>
    simp only [execDecRow, execHeatdRow]
    split
    · exact docSet_wf h _ _
    · exact h

theorem execDecRows_wf (free : Bool) (S : List Byte) (rows : List DecRow) {d : Doc} (h : docWf d) :
    docWf (execDecRows free S rows d) := by
  induction rows generalizing d with
  | nil => exact h
  | cons row rest ih => exact ih (execDecRow_wf free S row h)

theorem startDoc_wf (cfg : Config) : docWf (startDoc cfg) := docSet_wf docWf_nil _ _

theorem docGet_startDoc (cfg : Config) (m : Str) :
    docGet (startDoc cfg) m = if m = ascii "version" then some (.num cfg.version) else none := by
  simp [startDoc, docGet_docSet]

@[simp] theorem withModeDefault_eq (d : Doc) : withModeDefault d = d := rfl

theorem parseRecord_wf (cfg : Config) (S : List Byte) (i : Fin 3) {d : Doc} (h : docWf d) : docWf (parseRecord cfg S i d) := by
  unfold parseRecord
  dsimp only
  split
  · exact docSet_wf h _ _
  · exact h

/-- A record leaves every field alone but its own slot's (45_parser.md R176). -/
theorem docGet_parseRecord_other (cfg : Config) (S : List Byte) (i : Fin 3) (d : Doc) {m : Str} (h : m ≠ slotName i) :
    docGet (parseRecord cfg S i d) m = docGet d m := by
  unfold parseRecord
  dsimp only
  split
  · exact docGet_docSet_other _ _ h
  · rfl

/-- The document of every input is in canonical form. -/
theorem parseFrame_wf (cfg : Config) (S : List Byte) : docWf (parseFrame cfg S) := by
  unfold parseFrame
  cases reportShape S
  · exact execDecRows_wf _ _ _ (startDoc_wf cfg)
  · exact parseRecord_wf _ _ _ (parseRecord_wf _ _ _ (parseRecord_wf _ _ _ (startDoc_wf cfg)))
  · exact startDoc_wf cfg

/-- The checksum as a number (41_checksum.md R100, R101). -/
theorem cksum_toNat (S : List Byte) (a b : Nat) : (cksum S a b).toNat = (256 - sumRange S a b % 256) % 256 := by
  simp only [cksum, BitVec.toNat_ofInt]
  omega

end Sys2Proof.Machine
end

