-- ==== Sys2Proof/Laws/State.lean ====
section
/-! SUPPORT. The fields of the updated states: one lemma per field per completion, and the host's writes. -/

namespace Sys2Proof.Machine

@[simp] theorem State.clearResults_cfg (s : State) : (s.clearResults).cfg = s.cfg := rfl
@[simp] theorem State.clearResults_fb (s : State) : (s.clearResults).fb = s.fb := rfl
@[simp] theorem State.clearResults_op (s : State) : (s.clearResults).op = s.op := rfl
@[simp] theorem State.clearResults_aSeq (s : State) : (s.clearResults).aSeq = s.aSeq := rfl
@[simp] theorem State.clearResults_aStr (s : State) : (s.clearResults).aStr = s.aStr := rfl
@[simp] theorem State.clearResults_aFrom (s : State) : (s.clearResults).aFrom = s.aFrom := rfl
@[simp] theorem State.clearResults_aTo (s : State) : (s.clearResults).aTo = s.aTo := rfl
@[simp] theorem State.clearResults_aVal (s : State) : (s.clearResults).aVal = s.aVal := rfl
@[simp] theorem State.clearResults_aValid (s : State) : (s.clearResults).aValid = s.aValid := rfl
@[simp] theorem State.clearResults_aMin (s : State) : (s.clearResults).aMin = s.aMin := rfl
@[simp] theorem State.clearResults_aMax (s : State) : (s.clearResults).aMax = s.aMax := rfl
@[simp] theorem State.clearResults_aOk (s : State) : (s.clearResults).aOk = s.aOk := rfl
@[simp] theorem State.clearResults_rq (s : State) : (s.clearResults).rq = s.rq := rfl
@[simp] theorem State.clearResults_res (s : State) : (s.clearResults).res = none := rfl
@[simp] theorem State.clearResults_rByte (s : State) : (s.clearResults).rByte = none := rfl
@[simp] theorem State.clearResults_rNum (s : State) : (s.clearResults).rNum = none := rfl
@[simp] theorem State.clearResults_rSeq (s : State) : (s.clearResults).rSeq = none := rfl
@[simp] theorem State.clearResults_rStr (s : State) : (s.clearResults).rStr = none := rfl
@[simp] theorem State.clearResults_sd (s : State) : (s.clearResults).sd = none := rfl

@[simp] theorem State.completeNull_cfg (s : State) : (s.completeNull).cfg = s.cfg := rfl
@[simp] theorem State.completeNull_fb (s : State) : (s.completeNull).fb = s.fb := rfl
@[simp] theorem State.completeNull_op (s : State) : (s.completeNull).op = s.op := rfl
@[simp] theorem State.completeNull_aSeq (s : State) : (s.completeNull).aSeq = s.aSeq := rfl
@[simp] theorem State.completeNull_aStr (s : State) : (s.completeNull).aStr = s.aStr := rfl
@[simp] theorem State.completeNull_aFrom (s : State) : (s.completeNull).aFrom = s.aFrom := rfl
@[simp] theorem State.completeNull_aTo (s : State) : (s.completeNull).aTo = s.aTo := rfl
@[simp] theorem State.completeNull_aVal (s : State) : (s.completeNull).aVal = s.aVal := rfl
@[simp] theorem State.completeNull_aValid (s : State) : (s.completeNull).aValid = s.aValid := rfl
@[simp] theorem State.completeNull_aMin (s : State) : (s.completeNull).aMin = s.aMin := rfl
@[simp] theorem State.completeNull_aMax (s : State) : (s.completeNull).aMax = s.aMax := rfl
@[simp] theorem State.completeNull_aOk (s : State) : (s.completeNull).aOk = s.aOk := rfl
@[simp] theorem State.completeNull_rq (s : State) : (s.completeNull).rq = s.rq := rfl
@[simp] theorem State.completeNull_res (s : State) : (s.completeNull).res = some .null := rfl
@[simp] theorem State.completeNull_rByte (s : State) : (s.completeNull).rByte = none := rfl
@[simp] theorem State.completeNull_rNum (s : State) : (s.completeNull).rNum = none := rfl
@[simp] theorem State.completeNull_rSeq (s : State) : (s.completeNull).rSeq = none := rfl
@[simp] theorem State.completeNull_rStr (s : State) : (s.completeNull).rStr = none := rfl
@[simp] theorem State.completeNull_sd (s : State) : (s.completeNull).sd = none := rfl

@[simp] theorem State.completeByte_cfg (s : State) (b : Byte) : (s.completeByte b).cfg = s.cfg := rfl
@[simp] theorem State.completeByte_fb (s : State) (b : Byte) : (s.completeByte b).fb = s.fb := rfl
@[simp] theorem State.completeByte_op (s : State) (b : Byte) : (s.completeByte b).op = s.op := rfl
@[simp] theorem State.completeByte_aSeq (s : State) (b : Byte) : (s.completeByte b).aSeq = s.aSeq := rfl
@[simp] theorem State.completeByte_aStr (s : State) (b : Byte) : (s.completeByte b).aStr = s.aStr := rfl
@[simp] theorem State.completeByte_aFrom (s : State) (b : Byte) : (s.completeByte b).aFrom = s.aFrom := rfl
@[simp] theorem State.completeByte_aTo (s : State) (b : Byte) : (s.completeByte b).aTo = s.aTo := rfl
@[simp] theorem State.completeByte_aVal (s : State) (b : Byte) : (s.completeByte b).aVal = s.aVal := rfl
@[simp] theorem State.completeByte_aValid (s : State) (b : Byte) : (s.completeByte b).aValid = s.aValid := rfl
@[simp] theorem State.completeByte_aMin (s : State) (b : Byte) : (s.completeByte b).aMin = s.aMin := rfl
@[simp] theorem State.completeByte_aMax (s : State) (b : Byte) : (s.completeByte b).aMax = s.aMax := rfl
@[simp] theorem State.completeByte_aOk (s : State) (b : Byte) : (s.completeByte b).aOk = s.aOk := rfl
@[simp] theorem State.completeByte_rq (s : State) (b : Byte) : (s.completeByte b).rq = s.rq := rfl
@[simp] theorem State.completeByte_res (s : State) (b : Byte) : (s.completeByte b).res = some .ok := rfl
@[simp] theorem State.completeByte_rByte (s : State) (b : Byte) : (s.completeByte b).rByte = some b := rfl
@[simp] theorem State.completeByte_rNum (s : State) (b : Byte) : (s.completeByte b).rNum = none := rfl
@[simp] theorem State.completeByte_rSeq (s : State) (b : Byte) : (s.completeByte b).rSeq = none := rfl
@[simp] theorem State.completeByte_rStr (s : State) (b : Byte) : (s.completeByte b).rStr = none := rfl
@[simp] theorem State.completeByte_sd (s : State) (b : Byte) : (s.completeByte b).sd = none := rfl

@[simp] theorem State.completeNum_cfg (s : State) (n : Int) : (s.completeNum n).cfg = s.cfg := rfl
@[simp] theorem State.completeNum_fb (s : State) (n : Int) : (s.completeNum n).fb = s.fb := rfl
@[simp] theorem State.completeNum_op (s : State) (n : Int) : (s.completeNum n).op = s.op := rfl
@[simp] theorem State.completeNum_aSeq (s : State) (n : Int) : (s.completeNum n).aSeq = s.aSeq := rfl
@[simp] theorem State.completeNum_aStr (s : State) (n : Int) : (s.completeNum n).aStr = s.aStr := rfl
@[simp] theorem State.completeNum_aFrom (s : State) (n : Int) : (s.completeNum n).aFrom = s.aFrom := rfl
@[simp] theorem State.completeNum_aTo (s : State) (n : Int) : (s.completeNum n).aTo = s.aTo := rfl
@[simp] theorem State.completeNum_aVal (s : State) (n : Int) : (s.completeNum n).aVal = s.aVal := rfl
@[simp] theorem State.completeNum_aValid (s : State) (n : Int) : (s.completeNum n).aValid = s.aValid := rfl
@[simp] theorem State.completeNum_aMin (s : State) (n : Int) : (s.completeNum n).aMin = s.aMin := rfl
@[simp] theorem State.completeNum_aMax (s : State) (n : Int) : (s.completeNum n).aMax = s.aMax := rfl
@[simp] theorem State.completeNum_aOk (s : State) (n : Int) : (s.completeNum n).aOk = s.aOk := rfl
@[simp] theorem State.completeNum_rq (s : State) (n : Int) : (s.completeNum n).rq = s.rq := rfl
@[simp] theorem State.completeNum_res (s : State) (n : Int) : (s.completeNum n).res = some .ok := rfl
@[simp] theorem State.completeNum_rByte (s : State) (n : Int) : (s.completeNum n).rByte = none := rfl
@[simp] theorem State.completeNum_rNum (s : State) (n : Int) : (s.completeNum n).rNum = some n := rfl
@[simp] theorem State.completeNum_rSeq (s : State) (n : Int) : (s.completeNum n).rSeq = none := rfl
@[simp] theorem State.completeNum_rStr (s : State) (n : Int) : (s.completeNum n).rStr = none := rfl
@[simp] theorem State.completeNum_sd (s : State) (n : Int) : (s.completeNum n).sd = none := rfl

@[simp] theorem State.completeSeq_cfg (s : State) (S : List Byte) : (s.completeSeq S).cfg = s.cfg := rfl
@[simp] theorem State.completeSeq_fb (s : State) (S : List Byte) : (s.completeSeq S).fb = s.fb := rfl
@[simp] theorem State.completeSeq_op (s : State) (S : List Byte) : (s.completeSeq S).op = s.op := rfl
@[simp] theorem State.completeSeq_aSeq (s : State) (S : List Byte) : (s.completeSeq S).aSeq = s.aSeq := rfl
@[simp] theorem State.completeSeq_aStr (s : State) (S : List Byte) : (s.completeSeq S).aStr = s.aStr := rfl
@[simp] theorem State.completeSeq_aFrom (s : State) (S : List Byte) : (s.completeSeq S).aFrom = s.aFrom := rfl
@[simp] theorem State.completeSeq_aTo (s : State) (S : List Byte) : (s.completeSeq S).aTo = s.aTo := rfl
@[simp] theorem State.completeSeq_aVal (s : State) (S : List Byte) : (s.completeSeq S).aVal = s.aVal := rfl
@[simp] theorem State.completeSeq_aValid (s : State) (S : List Byte) : (s.completeSeq S).aValid = s.aValid := rfl
@[simp] theorem State.completeSeq_aMin (s : State) (S : List Byte) : (s.completeSeq S).aMin = s.aMin := rfl
@[simp] theorem State.completeSeq_aMax (s : State) (S : List Byte) : (s.completeSeq S).aMax = s.aMax := rfl
@[simp] theorem State.completeSeq_aOk (s : State) (S : List Byte) : (s.completeSeq S).aOk = s.aOk := rfl
@[simp] theorem State.completeSeq_rq (s : State) (S : List Byte) : (s.completeSeq S).rq = s.rq := rfl
@[simp] theorem State.completeSeq_res (s : State) (S : List Byte) : (s.completeSeq S).res = some .ok := rfl
@[simp] theorem State.completeSeq_rByte (s : State) (S : List Byte) : (s.completeSeq S).rByte = none := rfl
@[simp] theorem State.completeSeq_rNum (s : State) (S : List Byte) : (s.completeSeq S).rNum = none := rfl
@[simp] theorem State.completeSeq_rSeq (s : State) (S : List Byte) : (s.completeSeq S).rSeq = some S := rfl
@[simp] theorem State.completeSeq_rStr (s : State) (S : List Byte) : (s.completeSeq S).rStr = none := rfl
@[simp] theorem State.completeSeq_sd (s : State) (S : List Byte) : (s.completeSeq S).sd = none := rfl

@[simp] theorem State.completeStr_cfg (s : State) (T : Str) : (s.completeStr T).cfg = s.cfg := rfl
@[simp] theorem State.completeStr_fb (s : State) (T : Str) : (s.completeStr T).fb = s.fb := rfl
@[simp] theorem State.completeStr_op (s : State) (T : Str) : (s.completeStr T).op = s.op := rfl
@[simp] theorem State.completeStr_aSeq (s : State) (T : Str) : (s.completeStr T).aSeq = s.aSeq := rfl
@[simp] theorem State.completeStr_aStr (s : State) (T : Str) : (s.completeStr T).aStr = s.aStr := rfl
@[simp] theorem State.completeStr_aFrom (s : State) (T : Str) : (s.completeStr T).aFrom = s.aFrom := rfl
@[simp] theorem State.completeStr_aTo (s : State) (T : Str) : (s.completeStr T).aTo = s.aTo := rfl
@[simp] theorem State.completeStr_aVal (s : State) (T : Str) : (s.completeStr T).aVal = s.aVal := rfl
@[simp] theorem State.completeStr_aValid (s : State) (T : Str) : (s.completeStr T).aValid = s.aValid := rfl
@[simp] theorem State.completeStr_aMin (s : State) (T : Str) : (s.completeStr T).aMin = s.aMin := rfl
@[simp] theorem State.completeStr_aMax (s : State) (T : Str) : (s.completeStr T).aMax = s.aMax := rfl
@[simp] theorem State.completeStr_aOk (s : State) (T : Str) : (s.completeStr T).aOk = s.aOk := rfl
@[simp] theorem State.completeStr_rq (s : State) (T : Str) : (s.completeStr T).rq = s.rq := rfl
@[simp] theorem State.completeStr_res (s : State) (T : Str) : (s.completeStr T).res = some .ok := rfl
@[simp] theorem State.completeStr_rByte (s : State) (T : Str) : (s.completeStr T).rByte = none := rfl
@[simp] theorem State.completeStr_rNum (s : State) (T : Str) : (s.completeStr T).rNum = none := rfl
@[simp] theorem State.completeStr_rSeq (s : State) (T : Str) : (s.completeStr T).rSeq = none := rfl
@[simp] theorem State.completeStr_rStr (s : State) (T : Str) : (s.completeStr T).rStr = some T := rfl
@[simp] theorem State.completeStr_sd (s : State) (T : Str) : (s.completeStr T).sd = none := rfl

@[simp] theorem State.completeDoc_cfg (s : State) (d : Doc) : (s.completeDoc d).cfg = s.cfg := rfl
@[simp] theorem State.completeDoc_fb (s : State) (d : Doc) : (s.completeDoc d).fb = s.fb := rfl
@[simp] theorem State.completeDoc_op (s : State) (d : Doc) : (s.completeDoc d).op = s.op := rfl
@[simp] theorem State.completeDoc_aSeq (s : State) (d : Doc) : (s.completeDoc d).aSeq = s.aSeq := rfl
@[simp] theorem State.completeDoc_aStr (s : State) (d : Doc) : (s.completeDoc d).aStr = s.aStr := rfl
@[simp] theorem State.completeDoc_aFrom (s : State) (d : Doc) : (s.completeDoc d).aFrom = s.aFrom := rfl
@[simp] theorem State.completeDoc_aTo (s : State) (d : Doc) : (s.completeDoc d).aTo = s.aTo := rfl
@[simp] theorem State.completeDoc_aVal (s : State) (d : Doc) : (s.completeDoc d).aVal = s.aVal := rfl
@[simp] theorem State.completeDoc_aValid (s : State) (d : Doc) : (s.completeDoc d).aValid = s.aValid := rfl
@[simp] theorem State.completeDoc_aMin (s : State) (d : Doc) : (s.completeDoc d).aMin = s.aMin := rfl
@[simp] theorem State.completeDoc_aMax (s : State) (d : Doc) : (s.completeDoc d).aMax = s.aMax := rfl
@[simp] theorem State.completeDoc_aOk (s : State) (d : Doc) : (s.completeDoc d).aOk = s.aOk := rfl
@[simp] theorem State.completeDoc_rq (s : State) (d : Doc) : (s.completeDoc d).rq = s.rq := rfl
@[simp] theorem State.completeDoc_res (s : State) (d : Doc) : (s.completeDoc d).res = some .ok := rfl
@[simp] theorem State.completeDoc_rByte (s : State) (d : Doc) : (s.completeDoc d).rByte = none := rfl
@[simp] theorem State.completeDoc_rNum (s : State) (d : Doc) : (s.completeDoc d).rNum = none := rfl
@[simp] theorem State.completeDoc_rSeq (s : State) (d : Doc) : (s.completeDoc d).rSeq = none := rfl
@[simp] theorem State.completeDoc_rStr (s : State) (d : Doc) : (s.completeDoc d).rStr = none := rfl
@[simp] theorem State.completeDoc_sd (s : State) (d : Doc) : (s.completeDoc d).sd = some d := rfl

@[simp] theorem State.completeFrame_cfg (s : State) (fb : FrameBuffer) : (s.completeFrame fb).cfg = s.cfg := rfl
@[simp] theorem State.completeFrame_fb (s : State) (fb : FrameBuffer) : (s.completeFrame fb).fb = fb := rfl
@[simp] theorem State.completeFrame_op (s : State) (fb : FrameBuffer) : (s.completeFrame fb).op = s.op := rfl
@[simp] theorem State.completeFrame_aSeq (s : State) (fb : FrameBuffer) : (s.completeFrame fb).aSeq = s.aSeq := rfl
@[simp] theorem State.completeFrame_aStr (s : State) (fb : FrameBuffer) : (s.completeFrame fb).aStr = s.aStr := rfl
@[simp] theorem State.completeFrame_aFrom (s : State) (fb : FrameBuffer) : (s.completeFrame fb).aFrom = s.aFrom := rfl
@[simp] theorem State.completeFrame_aTo (s : State) (fb : FrameBuffer) : (s.completeFrame fb).aTo = s.aTo := rfl
@[simp] theorem State.completeFrame_aVal (s : State) (fb : FrameBuffer) : (s.completeFrame fb).aVal = s.aVal := rfl
@[simp] theorem State.completeFrame_aValid (s : State) (fb : FrameBuffer) : (s.completeFrame fb).aValid = s.aValid := rfl
@[simp] theorem State.completeFrame_aMin (s : State) (fb : FrameBuffer) : (s.completeFrame fb).aMin = s.aMin := rfl
@[simp] theorem State.completeFrame_aMax (s : State) (fb : FrameBuffer) : (s.completeFrame fb).aMax = s.aMax := rfl
@[simp] theorem State.completeFrame_aOk (s : State) (fb : FrameBuffer) : (s.completeFrame fb).aOk = s.aOk := rfl
@[simp] theorem State.completeFrame_rq (s : State) (fb : FrameBuffer) : (s.completeFrame fb).rq = s.rq := rfl
@[simp] theorem State.completeFrame_res (s : State) (fb : FrameBuffer) : (s.completeFrame fb).res = some .ok := rfl
@[simp] theorem State.completeFrame_rByte (s : State) (fb : FrameBuffer) : (s.completeFrame fb).rByte = none := rfl
@[simp] theorem State.completeFrame_rNum (s : State) (fb : FrameBuffer) : (s.completeFrame fb).rNum = none := rfl
@[simp] theorem State.completeFrame_rSeq (s : State) (fb : FrameBuffer) : (s.completeFrame fb).rSeq = some fb.seq := rfl
@[simp] theorem State.completeFrame_rStr (s : State) (fb : FrameBuffer) : (s.completeFrame fb).rStr = none := rfl
@[simp] theorem State.completeFrame_sd (s : State) (fb : FrameBuffer) : (s.completeFrame fb).sd = none := rfl

@[simp] theorem State.completeEncoded_cfg (s : State) (fb : FrameBuffer) : (s.completeEncoded fb).cfg = s.cfg := rfl
@[simp] theorem State.completeEncoded_fb (s : State) (fb : FrameBuffer) : (s.completeEncoded fb).fb = fb := rfl
@[simp] theorem State.completeEncoded_op (s : State) (fb : FrameBuffer) : (s.completeEncoded fb).op = s.op := rfl
@[simp] theorem State.completeEncoded_aSeq (s : State) (fb : FrameBuffer) : (s.completeEncoded fb).aSeq = s.aSeq := rfl
@[simp] theorem State.completeEncoded_aStr (s : State) (fb : FrameBuffer) : (s.completeEncoded fb).aStr = s.aStr := rfl
@[simp] theorem State.completeEncoded_aFrom (s : State) (fb : FrameBuffer) : (s.completeEncoded fb).aFrom = s.aFrom := rfl
@[simp] theorem State.completeEncoded_aTo (s : State) (fb : FrameBuffer) : (s.completeEncoded fb).aTo = s.aTo := rfl
@[simp] theorem State.completeEncoded_aVal (s : State) (fb : FrameBuffer) : (s.completeEncoded fb).aVal = s.aVal := rfl
@[simp] theorem State.completeEncoded_aValid (s : State) (fb : FrameBuffer) : (s.completeEncoded fb).aValid = s.aValid := rfl
@[simp] theorem State.completeEncoded_aMin (s : State) (fb : FrameBuffer) : (s.completeEncoded fb).aMin = s.aMin := rfl
@[simp] theorem State.completeEncoded_aMax (s : State) (fb : FrameBuffer) : (s.completeEncoded fb).aMax = s.aMax := rfl
@[simp] theorem State.completeEncoded_aOk (s : State) (fb : FrameBuffer) : (s.completeEncoded fb).aOk = s.aOk := rfl
@[simp] theorem State.completeEncoded_rq (s : State) (fb : FrameBuffer) : (s.completeEncoded fb).rq = s.rq := rfl
@[simp] theorem State.completeEncoded_res (s : State) (fb : FrameBuffer) : (s.completeEncoded fb).res = some .ok := rfl
@[simp] theorem State.completeEncoded_rByte (s : State) (fb : FrameBuffer) : (s.completeEncoded fb).rByte = none := rfl
@[simp] theorem State.completeEncoded_rNum (s : State) (fb : FrameBuffer) : (s.completeEncoded fb).rNum = none := rfl
@[simp] theorem State.completeEncoded_rSeq (s : State) (fb : FrameBuffer) : (s.completeEncoded fb).rSeq = none := rfl
@[simp] theorem State.completeEncoded_rStr (s : State) (fb : FrameBuffer) : (s.completeEncoded fb).rStr = some (transportText fb.seq) := rfl
@[simp] theorem State.completeEncoded_sd (s : State) (fb : FrameBuffer) : (s.completeEncoded fb).sd = none := rfl

theorem State.hostWrite_cfg (s : State) (w : HostWrite) : (s.hostWrite w).cfg = s.cfg := by cases w <;> rfl
theorem State.hostWrite_fb (s : State) (w : HostWrite) : (s.hostWrite w).fb = s.fb := by cases w <;> rfl
theorem State.hostWrite_res (s : State) (w : HostWrite) : (s.hostWrite w).res = s.res := by cases w <;> rfl
theorem State.hostWrite_rByte (s : State) (w : HostWrite) : (s.hostWrite w).rByte = s.rByte := by cases w <;> rfl
theorem State.hostWrite_rNum (s : State) (w : HostWrite) : (s.hostWrite w).rNum = s.rNum := by cases w <;> rfl
theorem State.hostWrite_rSeq (s : State) (w : HostWrite) : (s.hostWrite w).rSeq = s.rSeq := by cases w <;> rfl
theorem State.hostWrite_rStr (s : State) (w : HostWrite) : (s.hostWrite w).rStr = s.rStr := by cases w <;> rfl
theorem State.hostWrite_sd (s : State) (w : HostWrite) : (s.hostWrite w).sd = s.sd := by cases w <;> rfl

@[simp] theorem State.hostReset_cfg (s : State) : s.hostReset.cfg = s.cfg := rfl
@[simp] theorem State.hostReset_fb (s : State) : s.hostReset.fb = State.reset.fb := rfl
@[simp] theorem State.hostReset_res (s : State) : s.hostReset.res = none := rfl
@[simp] theorem State.hostReset_sd (s : State) : s.hostReset.sd = some [] := rfl

/-- The configuration after reset is well-formed (70_reset_and_hazards.md R231; log 5). -/
theorem State.reset_cfg_wellFormed : State.reset.cfg.wellFormed = true := Config.configured.ok

end Sys2Proof.Machine
end

