-- ==== Sys2Proof/Laws/Text.lean ====
section
/-! SUPPORT. Hex digits and decimal numerals read back as what they were written from. -/

namespace Sys2Proof

theorem hexVal_hexDig : ∀ d : Fin 16, hexVal (hexDig d.val) = some d.val := by decide

/-- A nibble's hex digit has the nibble's value. -/
theorem hexVal_hexDig_of_lt {d : Nat} (h : d < 16) : hexVal (hexDig d) = some d := hexVal_hexDig ⟨d, h⟩

theorem hexVal_lt : ∀ c : Byte, ∀ v ∈ hexVal c, v < 16 := by
  intro c v hv
  unfold hexVal at hv
  split at hv
  · simp at hv; omega
  · split at hv
    · simp at hv; omega
    · split at hv <;> simp at hv; omega

theorem byte_of_nibbles : ∀ b : Byte, BitVec.ofNat 8 (16 * (b >>> 4).toNat + (b &&& 0x0F).toNat) = b := by decide

theorem high_nibble_lt : ∀ b : Byte, (b >>> 4).toNat < 16 := by decide

theorem low_nibble_lt : ∀ b : Byte, (b &&& 0x0F).toNat < 16 := by decide

/-- The decimal numeral of a byte denotes the byte. -/
theorem numeral_decText : ∀ b : Byte, numeral (decText b) = some b.toNat := by decide

/-- A decimal numeral of a byte holds no comma. -/
theorem comma_not_mem_decText : ∀ b : Byte, comma ∉ decText b := by decide

namespace Machine

@[simp] theorem hexToBytes_nil : hexToBytes [] = .ok [] := rfl

@[simp] theorem hexToBytes_single (c : Byte) : hexToBytes [c] = .ok [] := rfl

/-- A complete pair of hex digits gives one byte. -/
theorem hexToBytes_pair {hi lo : Byte} {h l : Nat} (rest : Str) (hh : hexVal hi = some h) (hl : hexVal lo = some l) :
    hexToBytes (hi :: lo :: rest) = (hexToBytes rest >>= fun t => .ok (BitVec.ofNat 8 (16 * h + l) :: t)) := by
  simp [hexToBytes, hh, hl]

/-- HEX2BYTES answers the bytes of the string, or, where the string is absent, the free value (log 13). -/
theorem hexOperandBytes_eq_ok {cfg : Config} {a : Option Str} {R : List Byte} :
    hexOperandBytes cfg a = .ok R ↔ (∃ T, a = some T ∧ hexToBytes T = .ok R) ∨ (a = none ∧ R = cfg.freeHexBytes) := by
  cases a <;> simp [hexOperandBytes, eq_comm]

@[simp] theorem hexOperandBytes_some (cfg : Config) (T : Str) : hexOperandBytes cfg (some T) = hexToBytes T := rfl

@[simp] theorem rawOperandBytes_some (cfg : Config) (T : Str) : rawOperandBytes cfg (some T) = rawStringToBytes T := rfl

@[simp] theorem bytesToHexString_nil : bytesToHexString [] = [] := rfl

@[simp] theorem bytesToHexString_cons (b : Byte) (S : List Byte) :
    bytesToHexString (b :: S) = hexDig (b >>> 4).toNat :: hexDig (b &&& 0x0F).toNat :: bytesToHexString S := rfl

theorem bytesToHexString_length (S : List Byte) : (bytesToHexString S).length = 2 * S.length := by
  induction S with
  | nil => rfl
  | cons b rest ih => simp [ih]; omega

end Machine

end Sys2Proof
end

