-- ==== Sys2Proof/Tests/Slice0.lean ====
section
/-! SUPPORT. The model's own tests. Expected results are the vectors of 95_test_vectors.md (named beside each test) or are
computed by hand from the rules; below them, for every statement with hypotheses, a case that meets all of them. -/

set_option Elab.async false

namespace Sys2Proof.Tests

open Sys2Proof.Machine Sys2Proof.Claims

/-- A block after reset with the spec's test configuration. -/
def st : State := { State.reset with cfg := Config.cfgT }

def nextOf : Outcome → Option State
  | .next s => some s
  | _ => none

def refusalOf : Outcome → Option Refusal
  | .refused r => some r
  | _ => none

def resOf (o : Outcome) : Option Res := (nextOf o).bind (·.res)
def seqOf (o : Outcome) : Option (List Byte) := (nextOf o).bind (·.rSeq)
def strOf (o : Outcome) : Option Str := (nextOf o).bind (·.rStr)
def numOf (o : Outcome) : Option Int := (nextOf o).bind (·.rNum)
def byteOf (o : Outcome) : Option Byte := (nextOf o).bind (·.rByte)
def fieldOf (o : Outcome) (name : String) : Option Val := ((nextOf o).bind (·.sd)).bind (docGet · (ascii name))

def txt (s : String) : Val := .txt (ascii s)
def withSeq (S : List Byte) : State := { st with aSeq := some S }
def withStr (t : String) : State := { st with aStr := some (some (ascii t)) }
def cksumOf (S : List Byte) (a b : Int) : State := { st with aSeq := some S, aFrom := some a, aTo := some b }
def clampOf (valid : Bool) (v lo hi : Int) : State :=
  { st with aValid := some valid, aVal := some v, aMin := some lo, aMax := some hi }
def request (control status : Doc) : Request := { query := none, control := some control, status := some status, deviceSubType := none }
def withRq (r : Request) : State := { st with rq := some r }
def withControl (control : Doc) : State := withRq (request control [])
def named (l : List (String × Val)) : Doc := l.map fun e => (ascii e.1, e.2)

/-! ### Well-formed configurations: one ill-formed configuration for each check -/

theorem test_wellFormed_cfgT : Config.cfgT.wellFormed = true := by decide +kernel
theorem test_wellFormed_instr : Instr.wellFormed .cksum = true := by decide
theorem test_illFormed_window : { Config.cfgT with partHi := 27 }.windowsOk = false := by decide
theorem test_illFormed_fullWindow : { Config.cfgT with fullHi := 256 }.windowsOk = false := by decide
theorem test_illFormed_offset : { Config.cfgT with decStatus := [.num (ascii "x") 11] }.offsetsOk = false := by decide +kernel
theorem test_illFormed_mask : { Config.cfgT with encFull := [.bool (ascii "x") 13 0x00] }.masksOk = false := by decide +kernel
theorem test_illFormed_pattern : Config.decMasksOk (.enum (ascii "x") 13 0x0E [(0x01, [])] []) = false := by decide +kernel
theorem test_illFormed_knownRows : { Config.cfgT with encFull := Config.cfgT.encFull.tail }.knownRowsOk = false := by decide +kernel
theorem test_illFormed_order :
    Config.orderOk [.mode [(13, 14)] [], .bool (ascii "x") 14 0x01] = false := by decide +kernel
theorem test_illFormed_names : { Config.cfgT with encPart := Config.cfgT.encPart ++ Config.cfgT.encPart }.namesOk = false := by
  decide +kernel
theorem test_illFormed_modeNames :
    { Config.cfgT with encFull := [.mode [] [(ascii "a", .bit 13 0x01), (ascii "a", .bit 13 0x02)]] }.namesOk = false := by decide +kernel
theorem test_illFormed_powerRow :
    { Config.cfgT with encFull := Config.cfgT.encFull ++ [EncRow.bool (ascii "power") 22 0x01] }.commandNamesOk = false := by decide +kernel
theorem test_illFormed_appointEntry :
    { Config.cfgT with encPart := [⟨ascii "appoint2", [(12, .val)]⟩] }.commandNamesOk = false := by decide +kernel

/-! ### Decoding: every row's word, from the tables of 30_encoding.md -/

theorem test_decode_op :
    (List.range 16).map (decodeTableWord 8)
      = [some .hex2bytes, some .bytes2hex, some .bytes2raw, some .raw2bytes, some .cksum, some .clamp, some .assemble,
         some .parse, some .encode, some .decode, some .reservedA, some .reservedB, some .reservedC, some .reservedD,
         some .reservedE, some .reservedF] := by decide
theorem test_decode_tx :
    [0x0301, 0x0302, 0x0201, 0x0202, 0x0204, 0x0214, 0x0205, 0x0206, 0x0207].map (fun w => (decode .f0tx w).toOption)
      = [some .txQueryStatus, some .txQueryAppoint, some .txPowerOn, some .txPowerOff, some .txFull, some .txPart,
         some .txAppoint0, some .txAppoint1, some .txAppoint2] := by decide
theorem test_decode_rx :
    [0x0201, 0x0202, 0x0204, 0x0214, 0x0301, 0x0401, 0x0205, 0x0206, 0x0207, 0x0302].map (decodeTableWord 16)
      = [some .rxStatus0201, some .rxStatus0202, some .rxStatus0204, some .rxStatus0214, some .rxStatus0301,
         some .rxStatus0401, some .rxAppt0205, some .rxAppt0206, some .rxAppt0207, some .rxAppt0302] := by decide
theorem test_decode_rejects : decodeTableWord 16 0x0209 = none ∧ decodeTableWord 16 0x0104 = none := by decide

/-! ### The operations -/

/-- H5. -/
theorem test_hex2bytes : seqOf (exec .hex2bytes (withStr "aA0c")) = some [0xAA, 0x0C] := by decide
/-- H9. -/
theorem test_hex2bytes_nonHex : refusalOf (exec .hex2bytes (withStr "aa0g")) = some .nonHexChar := by decide
/-- H15. -/
theorem test_bytes2hex : strOf (exec .bytes2hex (withSeq [0xAA, 0x0C, 0xE2, 0xFF])) = some (ascii "aa0ce2ff") := by decide
/-- H17. -/
theorem test_bytes2raw : strOf (exec .bytes2raw (withSeq [0x41, 0x00, 0xFF])) = some [65, 0, 255] := by decide
/-- H18. -/
theorem test_raw2bytes : seqOf (exec .raw2bytes (withStr "1,6")) = some [0x31, 0x2C, 0x36] := by decide
/-- K18. -/
theorem test_cksum :
    byteOf (exec .cksum (cksumOf [0xAA, 0x0C, 0xE2, 0, 0, 0, 0, 0, 0, 0x03, 0x01, 0x01] 1 12)) = some 0x63 := by decide
/-- K13, an empty range that is not refused. -/
theorem test_cksum_empty : byteOf (exec .cksum (cksumOf [0x12, 0x34, 0x56, 0x78] 3 2)) = some 0x00 := by decide
/-- L12. -/
theorem test_clamp : numOf (exec .clamp (clampOf true 5 10 3)) = some 10 := by decide
/-- L8. -/
theorem test_clamp_missing : numOf (exec .clamp (clampOf false 77 (-5) 5)) = some 0 := by decide
/-- A18. -/
theorem test_assemble :
    seqOf (exec .assemble (withControl (named [("power", txt "on"), ("appoint0", txt "1,6,30,0,0")])))
      = some [0xAA, 0x10, 0xE2, 0, 0, 0, 0, 0, 0, 0x02, 0x05, 0xFF, 0x06, 0x1E, 0x00, 0x00, 0xE4] := by decide +kernel
/-- A15b: a limited sub-type given as text, and SEL. -/
theorem test_assemble_limited :
    seqOf (exec .assemble
        (withRq { request (named [("sterilization", txt "on")]) [] with deviceSubType := some (txt "2") }))
      = some [0xAA, 0x0E, 0xE2, 0, 0, 0, 0, 0, 0, 0x02, 0x14, 0x08, 0x01, 0x00, 0xF1] := by decide +kernel
/-- P1: the checksum byte is decoded as flags; the last set flag in scan order names `mode`. -/
theorem test_parse :
    fieldOf (exec .parse (withSeq [0xAA, 0x0D, 0xE2, 0, 0, 0, 0, 0, 0, 0x02, 0x01, 0x00, 0x01, 0x0D])) "mode"
      = some (txt "winter") := by decide +kernel
/-- P7. -/
theorem test_parse_unknown :
    (nextOf (exec .parse (withSeq [0xAA, 0x0D, 0xE2, 0, 0, 0, 0, 0, 0, 0x02, 0x09, 0x00, 0x01, 0x05]))).bind (·.sd)
      = some [(ascii "version", .num 99)] := by decide +kernel
/-- E5. -/
theorem test_encode :
    strOf (exec .encode { withControl (named [("control_type", txt "part"), ("temperature", .num 55)]) with aOk := some true })
      = some (ascii "aa0ee20000000000000214073700bc") := by decide +kernel
/-- E4. -/
theorem test_encode_null : resOf (exec .encode { withRq emptyRequest with aOk := some true }) = some .null := by decide +kernel
/-- E11, a string of odd length. -/
theorem test_decode :
    fieldOf (exec .decode { withStr "aa10e20000000000000205ff061e0000e" with aOk := some true }) "appoint0"
      = some (txt "1,6,30,0,0") := by decide +kernel
/-- E7. -/
theorem test_decode_absent : resOf (exec .decode { st with aOk := some true, aStr := some none }) = some .null := by decide

/-! ### Reserved codes -/

theorem test_reserved_step :
    [0xA, 0xB, 0xC, 0xD, 0xE, 0xF].map (fun c => refusalOf (step { st with op := some c }))
      = List.replicate 6 (some .reservedOp) := by decide
theorem test_unwritten_op : refusalOf (step st) = some .unwrittenOperand := by decide

/-! ### Frame shapes emitted -/

/-- A1. -/
theorem test_txQueryStatus :
    seqOf (exec .txQueryStatus st) = some [0xAA, 0x0C, 0xE2, 0, 0, 0, 0, 0, 0, 0x03, 0x01, 0x01, 0x0D] := by decide +kernel
/-- A2. -/
theorem test_txQueryAppoint :
    seqOf (exec .txQueryAppoint st) = some [0xAA, 0x0C, 0xE2, 0, 0, 0, 0, 0, 0, 0x03, 0x02, 0x01, 0x0C] := by decide +kernel
/-- A4. -/
theorem test_txPowerOn :
    seqOf (exec .txPowerOn st) = some [0xAA, 0x0C, 0xE2, 0, 0, 0, 0, 0, 0, 0x02, 0x01, 0x01, 0x0E] := by decide +kernel
/-- A5. -/
theorem test_txPowerOff :
    seqOf (exec .txPowerOff st) = some [0xAA, 0x0C, 0xE2, 0, 0, 0, 0, 0, 0, 0x02, 0x02, 0x01, 0x0D] := by decide +kernel
/-- A11: an explicit temperature clears the mode-selection bits. -/
theorem test_txFull :
    seqOf (exec .txFull (withRq (request (named [("temperature", .num 55)]) (named [("eplus", txt "on")]))))
      = some ([0xAA, 0x1B, 0xE2, 0, 0, 0, 0, 0, 0, 0x02, 0x04, 0x00, 0x00, 0x00, 0x00, 0x37] ++ List.replicate 11 0x00 ++ [0xC6]) := by
  decide +kernel
/-- A13. -/
theorem test_txFull_heat :
    seqOf (exec .txFull (withRq (request (named [("heat", txt "whole")]) (named [("half_heat", txt "on")]))))
      = some ([0xAA, 0x1B, 0xE2, 0, 0, 0, 0, 0, 0, 0x02, 0x04, 0x00, 0x00, 0x00, 0x02] ++ List.replicate 12 0x00 ++ [0xFB]) := by
  decide +kernel
/-- A15: the first entry wins. -/
theorem test_txPart :
    seqOf (exec .txPart (withControl (named [("sterilization", txt "on"), ("temperature", .num 40)])))
      = some [0xAA, 0x0E, 0xE2, 0, 0, 0, 0, 0, 0, 0x02, 0x14, 0x07, 0x28, 0x00, 0xCB] := by decide +kernel
/-- A27: eight fields reach offset 20. -/
theorem test_txAppoint0 :
    seqOf (exec .txAppoint0 (withControl (named [("power", txt "on"), ("appoint0", txt "1,1,2,3,4,5,6,7,8")])))
      = some [0xAA, 0x14, 0xE2, 0, 0, 0, 0, 0, 0, 0x02, 0x05, 0xFF, 1, 2, 3, 4, 5, 6, 7, 8, 0xE0] := by decide +kernel
/-- A26. -/
theorem test_txAppoint0_long :
    refusalOf (exec .txAppoint0 (withControl (named [("appoint0", txt "1,1,2,3,4,5,6,7,8,9")]))) = some .apptLong := by
  decide +kernel
/-- A19: the byte at offset 14 is left over from slot 0. -/
theorem test_txAppoint1 :
    seqOf (exec .txAppoint1 (withControl (named [("appoint0", txt "1,6,30,0,0"), ("appoint1", txt "0,7")])))
      = some ([0xAA, 0x1B, 0xE2, 0, 0, 0, 0, 0, 0, 0x02, 0x06, 0x00, 0x07, 0x1E, 0x00, 0x00] ++ List.replicate 11 0x00 ++ [0xD6]) := by
  decide +kernel
/-- A23. -/
theorem test_txAppoint2 :
    seqOf (exec .txAppoint2 (withControl (named [("appoint2", txt "2")])))
      = some ([0xAA, 0x1B, 0xE2, 0, 0, 0, 0, 0, 0, 0x02, 0x07, 0x00] ++ List.replicate 15 0x00 ++ [0xFA]) := by decide +kernel

/-! ### Frame shapes accepted -/

/-- The report of P2 with another pair at offsets 10 and 11. -/
def report (c s : Byte) : List Byte := [0xAA, 0x11, 0xE2, 0, 0, 0, 0, 0, 0, c, s, 0x00, 0x05, 0x05, 0x00, 0x02, 0x3C, 0xBF]

/-- P5: offset 13 is the checksum byte, rows beyond it are omitted. -/
theorem test_rxStatus0201 :
    (fun o => (fieldOf o "power", fieldOf o "eplus"))
        (exec .rxStatus0201 (withSeq [0xAA, 0x0C, 0xE2, 0, 0, 0, 0, 0, 0, 0x02, 0x01, 0x00, 0x0F]))
      = (some (txt "on"), none) := by decide +kernel
/-- The bytes of P2 under the pair (02, 02). -/
theorem test_rxStatus0202 : fieldOf (exec .rxStatus0202 (withSeq (report 0x02 0x02))) "bath_person" = some (txt "2") := by
  decide +kernel
/-- P2. -/
theorem test_rxStatus0204 : fieldOf (exec .rxStatus0204 (withSeq (report 0x02 0x04))) "temperature" = some (.num 60) := by
  decide +kernel
/-- P2. -/
theorem test_rxStatus0204_heat : fieldOf (exec .rxStatus0204 (withSeq (report 0x02 0x04))) "heat" = some (txt "whole") := by
  decide +kernel
/-- P15. -/
theorem test_rxStatus0214 :
    fieldOf (exec .rxStatus0214
        (withSeq [0xAA, 0x11, 0xE2, 0, 0, 0, 0, 0, 0, 0x02, 0x14, 0x00, 0x09, 0x00, 0x00, 0x00, 0x00, 0xEE])) "bath_person"
      = some (txt "off") := by decide +kernel
/-- P3: the last set flag in scan order. -/
theorem test_rxStatus0301 :
    fieldOf (exec .rxStatus0301
        (withSeq [0xAA, 0x11, 0xE2, 0, 0, 0, 0, 0, 0, 0x03, 0x01, 0x00, 0x07, 0x80, 0x08, 0x03, 0x46, 0x31])) "mode"
      = some (txt "memory") := by decide +kernel
/-- P4. -/
theorem test_rxStatus0401 :
    fieldOf (exec .rxStatus0401
        (withSeq [0xAA, 0x11, 0xE2, 0, 0, 0, 0, 0, 0, 0x04, 0x01, 0x00, 0x0F, 0x00, 0x00, 0x01, 0x00, 0xF8])) "heat"
      = some (txt "half") := by decide +kernel
/-- P11: record 0 whole, record 1 omitted. -/
theorem test_rxAppt0205 :
    (fun o => (fieldOf o "appoint0", fieldOf o "appoint1"))
        (exec .rxAppt0205
          (withSeq [0xAA, 0x10, 0xE2, 0, 0, 0, 0, 0, 0, 0x02, 0x05, 0xFF, 0x06, 0x1E, 0x00, 0x00, 0xE4]))
      = (some (txt "1,6,30,0,0"), none) := by decide +kernel
/-- The frame A19, by R176. -/
theorem test_rxAppt0206 :
    fieldOf (exec .rxAppt0206 (withSeq ([0xAA, 0x1B, 0xE2, 0, 0, 0, 0, 0, 0, 0x02, 0x06, 0x00, 0x07, 0x1E, 0x00, 0x00]
        ++ List.replicate 11 0x00 ++ [0xD6]))) "appoint0" = some (txt "0,7,30,0,0") := by decide +kernel
/-- The frame A23, by R176. -/
theorem test_rxAppt0207 :
    fieldOf (exec .rxAppt0207 (withSeq ([0xAA, 0x1B, 0xE2, 0, 0, 0, 0, 0, 0, 0x02, 0x07, 0x00]
        ++ List.replicate 15 0x00 ++ [0xFA]))) "appoint2" = some (txt "0,0,0,0,0") := by decide +kernel
/-- P12. -/
theorem test_rxAppt0302 :
    fieldOf (exec .rxAppt0302
        (withSeq [0xAA, 0x1A, 0xE2, 0, 0, 0, 0, 0, 0, 0x03, 0x02, 0xFF, 0x06, 0x1E, 0x00, 0x00, 0x00, 0x16, 0x0F, 0x00, 0x00,
          0x7F, 0x01, 0x02, 0x03, 0x04, 0x2E])) "appoint1" = some (txt "0,22,15,0,0") := by decide +kernel

/-! ### A case for the hypotheses of every statement -/

/-- `A18` again: a power frame with an appointment. -/
def powerAppoint : Request := request (named [("power", txt "on"), ("appoint0", txt "1,6,30,0,0")]) []
def noField : Request := request [] []
def noFrameAsked : Request := { emptyRequest with status := some (named [("eplus", txt "on")]) }
def summer : Request := request (named [("mode", txt "summer")]) (named [("eplus", txt "on")])
/-- The `DEC_STATUS` row of `power` (43_fieldmap.md R128). -/
def powerRow : DecRow := .flag (ascii "power") 13 0x01 0x01 (ascii "on") (ascii "off") none
def heatP3 : List Byte := [0xAA, 0x11, 0xE2, 0, 0, 0, 0, 0, 0, 0x03, 0x01, 0x00, 0x07, 0x80, 0x08, 0x03, 0x46, 0x31]
def apptP11 : List Byte := [0xAA, 0x10, 0xE2, 0, 0, 0, 0, 0, 0, 0x02, 0x05, 0xFF, 0x06, 0x1E, 0x00, 0x00, 0xE4]
def illFormed : State :=
  { st with cfg := { Config.cfgT with partHi := 0 }, rq := some noField, aSeq := some (List.replicate 256 0x00) }

theorem st_wellFormed : st.cfg.wellFormed = true := test_wellFormed_cfgT

/-- The hypotheses on the state that every statement about a request shares. -/
abbrev Asks (r : Request) : Prop := (withRq r).cfg.wellFormed = true ∧ (withRq r).rq = some r
theorem asks (r : Request) : Asks r := ⟨st_wellFormed, rfl⟩
/-- The hypotheses on the state that every statement about an input shares. -/
abbrev Reads (S : List Byte) : Prop := (withSeq S).cfg.wellFormed = true ∧ (withSeq S).aSeq = some S
theorem reads (S : List Byte) : Reads S := ⟨st_wellFormed, rfl⟩

theorem witness_DecodeEncodeAgree : Instr.wellFormed .txFull = true ∧ Instr.wellFormed .rxStatus0204 = true := by decide
theorem witness_StepRunsTheSelectedOperation :
    { st with op := some 0x4 }.op = some 0x4 ∧ decode .op (0x4 : BitVec 4).toNat = .ok .cksum ∧ Instr.wellFormed .cksum = true :=
  ⟨rfl, rfl, rfl⟩
theorem witness_StepRunsTheReceivedFrameShape :
    { withSeq apptP11 with op := some 0x7 }.op = some 0x7 ∧ (withSeq apptP11).aSeq = some apptP11
      ∧ memReadOpt apptP11 10 = some 0x02 ∧ memReadOpt apptP11 11 = some 0x05 ∧ decode .f0rx (0x02 * 256 + 0x05) = .ok .rxAppt0205 :=
  ⟨rfl, rfl, rfl, rfl, rfl⟩
/-- A18 for a slot; A15b and A14 for the part branch, by a sub-type given as text and by `control_type`; a query. -/
theorem witness_StepRunsTheRequestedFrameShape :
    let q := { noField with query := some ⟨none⟩ }
    { withRq powerAppoint with op := some 0x6 }.op = some 0x6 ∧ (withRq powerAppoint).rq = some powerAppoint
      ∧ shapeSelected st.cfg powerAppoint = some .txAppoint0 ∧ q.query = some ⟨none⟩ ∧ powerAppoint.query = none
      ∧ powerAppoint.control.isSome ∧ (powerAppoint.controlField (slotName 0)).isSome
      ∧ (∀ j, 0 < j → powerAppoint.controlField (slotName j) = none) ∧ (∀ i, noField.controlField (slotName i) = none) :=
  ⟨rfl, rfl, by decide +kernel, rfl, by decide +kernel⟩
theorem witness_StepRunsTheRequestedFrameShape_rows :
    selectsBase st.cfg (request (named [("power", .num 1)]) []) .txPowerOn
      ∧ selectsBase st.cfg (request (named [("power", txt "off")]) []) .txPowerOff
      ∧ selectsBase st.cfg { noField with deviceSubType := some (txt "2") } .txPart
      ∧ selectsBase st.cfg (request (named [("control_type", txt "part")]) []) .txPart
      ∧ selectsBase st.cfg noField .txFull := by
  refine ⟨.inl (by decide +kernel), .inr (.inl (by decide +kernel)), .inr (.inr ⟨by decide, by decide, .inl ⟨rfl, .inr ⟨_, rfl, .num 2, by decide +kernel, .inr ⟨2, rfl, by decide, by decide, by decide, by decide⟩⟩⟩⟩),
    .inr (.inr ⟨by decide +kernel, by decide +kernel, .inl ⟨rfl, .inl (by decide +kernel)⟩⟩),
    .inr (.inr ⟨by decide, by decide, .inr ⟨rfl, ?_⟩⟩)⟩
  rintro (h | ⟨d, h, _⟩)
  · exact absurd h (by decide)
  · exact absurd h (by simp [noField, request])
theorem witness_PlacedWordRuns :
    decodeTableWord 8 0x4 = some .cksum ∧ decodeTableWord 16 0x0302 = some .rxAppt0302 := by decide
theorem witness_ReservedCodesAreRefused :
    0xA ≤ (0xA : BitVec 4).toNat ∧ { st with op := some 0xA }.op = some 0xA
      ∧ 0xA ≤ (0xF : BitVec 4).toNat ∧ { st with op := some 0xF }.op = some 0xF := by decide
theorem witness_UnwrittenOperandsAreRefused :
    st.op = none ∧ st.aStr = none ∧ st.aSeq = none ∧ st.aValid = none ∧ st.rq = none ∧ st.aOk = none
      ∧ { st with aOk := some true }.aOk = some true := by decide
/-- A sequence that is too long, and no index operand: the unwritten operand is found first (log 21). -/
theorem witness_UnwrittenOperandsAreRefused_cksum :
    (withSeq (List.replicate 257 0x00)).aFrom = none ∧ { cksumOf [0x12] 1 1 with aTo := none }.aTo = none
      ∧ refusalOf (exec .cksum (withSeq (List.replicate 257 0x00))) = some .unwrittenOperand := ⟨rfl, rfl, by decide +kernel⟩
theorem witness_UnwrittenOperandsAreRefused_clampValue :
    { clampOf true 0 0 9 with aVal := none }.aValid = some true ∧ { clampOf true 0 0 9 with aVal := none }.aVal = none := by decide
/-- The longest sequence, and a state with no operand written for the query and power rows. -/
theorem witness_IllFormedConfigurationIsRefused :
    illFormed.cfg.wellFormed = false ∧ illFormed.rq = some noField ∧ illFormed.aSeq = some (List.replicate 256 0x00)
      ∧ (List.replicate 256 (0x00 : Byte)).length ≤ 256 ∧ { st with cfg := illFormed.cfg }.cfg.wellFormed = false :=
  ⟨by decide +kernel, rfl, rfl, by decide +kernel⟩
theorem witness_IllFormedConfigurationIsRefused_entryPoints :
    let s := { illFormed with aOk := some true, aStr := some (some (List.replicate 513 0x61)) }
    s.cfg.wellFormed = false ∧ s.aOk = some true ∧ s.rq = some noField ∧ s.aStr = some (some (List.replicate 513 0x61))
      ∧ (List.replicate 513 (0x61 : Byte)).length ≤ 513 ∧ ∀ c ∈ paired (List.replicate 513 0x61), (hexVal c).isSome :=
  ⟨by decide +kernel, rfl, rfl, rfl, by decide +kernel, by decide +kernel⟩
theorem witness_Hex2BytesResult :
    (withStr "aA0cx").aStr = some (some (ascii "aA0cx")) ∧ ∀ c ∈ paired (ascii "aA0cx"), (hexVal c).isSome := by decide
theorem witness_Hex2BytesResult_index : 1 ≤ 2 ∧ 2 ≤ (ascii "aA0cx").length / 2 := by decide
theorem witness_OddHexCharacterIsDropped :
    (ascii "aa").length % 2 = 0 ∧ (withStr "aa").aStr = some (some (ascii "aa"))
      ∧ (nextOf (exec .hex2bytes (withStr "aa"))).isSome ∧ (refusalOf (exec .hex2bytes (withStr "0g"))).isSome := by decide
theorem witness_HexCharacterValues :
    hexVal 0x2F = none ∧ hexVal 0x3A = none ∧ hexVal 0x40 = none ∧ hexVal 0x47 = none ∧ hexVal 0x60 = none ∧ hexVal 0x67 = none
      ∧ ∃ c ∈ paired (ascii "0g1"), hexVal c = none := by decide
theorem witness_Bytes2HexResult :
    (withSeq (List.replicate 256 0xA5)).aSeq = some (List.replicate 256 0xA5) ∧ (List.replicate 256 (0xA5 : Byte)).length ≤ 256
      ∧ memReadOpt (List.replicate 256 (0xA5 : Byte)) 256 = some 0xA5 := ⟨rfl, by decide +kernel, by decide +kernel⟩
theorem witness_HexRoundTrips :
    (ascii "ABc").length ≤ 512 ∧ ∀ c ∈ paired (ascii "ABc"), (hexVal c).isSome := by decide
theorem witness_RawStringOperations :
    (withSeq [0x41]).aSeq = some [0x41] ∧ [(0x41 : Byte)].length ≤ 256 ∧ (withStr "").aStr = some (some (ascii "")) := by decide
theorem witness_CksumResult :
    (cksumOf [0x12, 0x34] 1 2).aSeq = some [0x12, 0x34] ∧ (cksumOf [0x12, 0x34] 1 2).aFrom = some 1
      ∧ (cksumOf [0x12, 0x34] 1 2).aTo = some 2 ∧ [(0x12 : Byte), 0x34].length ≤ 256 ∧ (1 : Int) ≤ 1
      ∧ (2 : Int) ≤ [(0x12 : Byte), 0x34].length := by decide
/-- K13, K14 and K15: the empty range, and one index too far at either end. -/
theorem witness_CksumIndexOperands :
    (byteOf (exec .cksum (cksumOf [0x12, 0x34, 0x56, 0x78] 3 2)), refusalOf (exec .cksum (cksumOf [0x12, 0x34, 0x56, 0x78] 2 5)),
      refusalOf (exec .cksum (cksumOf [0x12, 0x34, 0x56, 0x78] 0 2))) = (some 0x00, some .cksumRange, some .cksumRange) := by decide
theorem witness_CksumRangeIsInclusive :
    (cksumOf [0x01] 1 1).aFrom = some ((1 : Nat) : Int) ∧ (cksumOf [0x01] 1 1).aTo = some ((1 : Nat) : Int)
      ∧ memReadOpt [0x01] 1 = some (0x01 : Byte) := by decide
/-- K16 and K17. -/
theorem witness_CksumVerificationIdentity :
    2 ≤ 13 ∧ memReadOpt [0xAA, 0x0C, 0xE2, 0, 0, 0, 0, 0, 0, 0x03, 0x01, 0x01, 0x0D] 13 = some (0x0D : Byte)
      ∧ (byteSum [0x80, 0x7F] 1 2 + (0x01 : Byte).toNat) % 256 = 0 := by decide
theorem witness_CksumByEightBitAdder : 1 ≤ 1 ∧ 2 ≤ [(0x80 : Byte), 0x80].length ∧ byteSum [0x80, 0x80] 1 2 % 256 = 0 ∧ 0 < 1 := by decide
theorem witness_ClampResult :
    (clampOf true 75 30 75).aMin = some 30 ∧ (clampOf true 75 30 75).aMax = some 75 ∧ (clampOf true 75 30 75).aValid = some true
      ∧ (clampOf true 75 30 75).aVal = some 75 ∧ (clampOf false 75 30 75).aValid = some false := by decide
theorem witness_StepKeepsTheInvariant :
    { cksumOf [] 1 0 with op := some 0x4 }.Inv ∧ (nextOf (step { cksumOf [] 1 0 with op := some 0x4 })).isSome := by
  refine ⟨⟨by decide, by decide, ?_⟩, by decide⟩
  intro d hd
  have : d = [] := by simpa [cksumOf, st, State.reset, eq_comm] using hd
  subst this; exact List.Pairwise.nil
theorem witness_InputsAreNotWritten : (nextOf (exec .cksum (cksumOf [] 1 0))).isSome := by decide
theorem witness_OnlyEmittersWriteTheBuffer :
    Instr.cksum ∉ emitters ∧ (nextOf (exec .cksum (cksumOf [] 1 0))).isSome ∧ Instr.decode ∉ emitters := by decide
/-- Two states that differ in what earlier operations left, for both clauses. -/
theorem witness_NoCrossCallState :
    sameInputs { cksumOf [] 1 0 with op := some 0x4 } { cksumOf [] 1 0 with op := some 0x4, rByte := some 0x07, res := some .ok }
      ∧ (nextOf (step { cksumOf [] 1 0 with op := some 0x4 })).isSome
      ∧ (refusalOf (step { cksumOf [] 1 0 with op := some 0xA })).isSome :=
  ⟨⟨rfl, rfl, rfl, rfl, rfl, rfl, rfl, rfl, rfl, rfl, rfl, rfl⟩, by decide, by decide⟩
/-- Offset 0, the first offset, the append, the offset after it (GAP), the last offset there is, and one more (OVERFLOW). -/
theorem witness_FrameBufferWrite :
    (FrameBuffer.ofSeq Config.hdr).wf ∧ 1 ≤ (FrameBuffer.ofSeq Config.hdr).len + 1 ∧ 10 ≤ (FrameBuffer.ofSeq Config.hdr).len + 1
      ∧ (FrameBuffer.ofSeq Config.hdr).len + 1 < 11 := by decide
theorem witness_FrameBufferWrite_full :
    (FrameBuffer.ofSeq (List.replicate 256 0x00)).wf ∧ 256 ≤ (FrameBuffer.ofSeq (List.replicate 256 0x00)).len + 1
      ∧ 257 ≤ (FrameBuffer.ofSeq (List.replicate 256 0x00)).len + 1 := by decide +kernel
theorem witness_QueryFrame :
    st.cfg.wellFormed = true ∧ (withRq { noField with query := some ⟨some (txt "appoint_query")⟩ }).rq
      = some { noField with query := some ⟨some (txt "appoint_query")⟩ } := ⟨st_wellFormed, rfl⟩
theorem witness_PowerFrame :
    let on := request (named [("power", .num 1)]) []
    let off := request (named [("power", txt "off")]) []
    st.cfg.wellFormed = true ∧ on.query = none ∧ on.control.isSome ∧ (∀ i, on.controlField (slotName i) = none)
      ∧ isOn (on.controlField (ascii "power")) = true ∧ (∀ i, off.controlField (slotName i) = none)
      ∧ isOff (off.controlField (ascii "power")) = true := ⟨st_wellFormed, by decide +kernel⟩
/-- A6 and A4. -/
theorem witness_PowerExcludesOtherFields :
    let r := request (named [("power", .num 1), ("temperature", .num 300)]) []
    let r' := request (named [("power", txt "on")]) []
    r.query = none ∧ r'.query = none ∧ r.control.isSome ∧ r'.control.isSome
      ∧ isOn (r.controlField (ascii "power")) = true ∧ isOn (r'.controlField (ascii "power")) = true
      ∧ (∀ i, r'.controlField (slotName i) = r.controlField (slotName i))
      ∧ (nextOf (exec .assemble (withRq r))).isSome := by decide +kernel
/-- A refusal that does not depend on the fields power excludes. -/
theorem witness_PowerExcludesOtherFields_refused :
    (refusalOf (exec .assemble (withRq (request (named [("power", txt "off"), ("appoint0", .num 1)]) [])))).isSome := by decide +kernel
theorem witness_NoFrameGivesNull :
    st.cfg.wellFormed = true ∧ (withRq noFrameAsked).rq = some noFrameAsked ∧ noFrameAsked.query = none ∧ noFrameAsked.control = none :=
  ⟨st_wellFormed, rfl, rfl, rfl⟩
theorem witness_NullChangesNothingElse :
    resOf (exec .assemble (withRq noFrameAsked)) = some .null
      ∧ resOf (exec .encode { withRq noFrameAsked with aOk := some true }) = some .null
      ∧ resOf (exec .decode { st with aOk := some false }) = some .null := by decide +kernel
/-- A14 and A16. -/
theorem witness_PartFrame :
    Asks noField ∧ partFits st.cfg noField = true ∧ (∀ e ∈ st.cfg.encPart, noField.controlField e.name = none)
      ∧ partFits st.cfg (request (named [("temperature", .num 255)]) []) = true := ⟨asks _, by decide +kernel⟩
/-- CFG_T's two entries and all three sources, a value that is no number among them. -/
theorem witness_PartEntryBytes :
    let temp : PartEntry := ⟨ascii "temperature", [(12, .const 0x07), (13, .val)]⟩
    let ster : PartEntry := ⟨ascii "sterilization", [(12, .const 0x08), (13, .sel 0x01 0x00)]⟩
    let r := request (named [("temperature", .num 55)]) []
    let t := request (named [("temperature", txt "hot")]) []
    let q := request (named [("sterilization", txt "on")]) []
    Asks r ∧ Asks t ∧ Asks q ∧ st.cfg.encPart = [] ++ temp :: [ster] ∧ st.cfg.encPart = [temp] ++ ster :: []
      ∧ r.controlField temp.name = some (.num 55) ∧ t.controlField temp.name = some (txt "hot")
      ∧ (∀ p ∈ [temp], q.controlField p.name = none) ∧ q.controlField ster.name = some (txt "on")
      ∧ temp.writes = [(12, .const 0x07)] ++ (13, .val) :: [] ∧ temp.writes = [] ++ (12, .const 0x07) :: [(13, .val)]
      ∧ ster.writes = [(12, .const 0x08)] ++ (13, .sel 0x01 0x00) :: [] ∧ (∀ w ∈ [(13, PartSrc.val)], w.1 ≠ 12)
      ∧ partFits st.cfg r = true ∧ partFits st.cfg t = true ∧ partFits st.cfg q = true
      ∧ 14 ≤ st.cfg.partHi ∧ (∀ w ∈ temp.writes, w.1 ≠ 14) := ⟨asks _, asks _, asks _, by decide +kernel⟩
theorem witness_PartFrameIgnoresLaterFields :
    let r := request (named [("temperature", .num 55)]) []
    let r' := request (named [("temperature", .num 55), ("sterilization", txt "on")]) []
    st.cfg.encPart = [] ++ ⟨ascii "temperature", [(12, .const 0x07), (13, .val)]⟩ :: st.cfg.encPart.tail
      ∧ (r.controlField (ascii "temperature")).isSome ∧ r'.controlField (ascii "temperature") = r.controlField (ascii "temperature")
      ∧ (nextOf (exec .txPart (withRq r))).isSome
      ∧ (refusalOf (exec .txPart (withRq (request (named [("temperature", .num 256)]) [])))).isSome := by decide +kernel
theorem witness_FullFrame :
    Asks noField ∧ fullFits st.cfg noField = true ∧ (∀ name, noField.controlField name = none ∧ noField.statusField name = none)
      ∧ fullFits st.cfg (request (named [("grea", .num 255)]) []) = true
      ∧ rowsKeep st.cfg.encFull st.cfg.encFull (request (named [("grea", .num 255)]) []) 12 0xFF = true
      ∧ rowsKeep st.cfg.encFull st.cfg.encFull (request (named [("grea", .num 255)]) []) 27 0xFF = true :=
  ⟨asks _, by decide +kernel, fun _ => ⟨rfl, rfl⟩, by decide +kernel⟩
/-- The rows of `eplus` and `whole_heat`, which share no byte and share one; a status value, a control value, none. -/
theorem witness_BoolRowsFollowControlThenStatus :
    let r := request (named [("whole_heat", txt "off")]) (named [("eplus", txt "on"), ("whole_heat", txt "on"), ("half_heat", .num 1)])
    let r' := request (named [("whole_heat", .num 1)]) []
    Asks r ∧ Asks r' ∧ fullFits st.cfg r = true ∧ fullFits st.cfg r' = true
      ∧ st.cfg.encFull = [] ++ .bool (ascii "eplus") 13 0x01 :: st.cfg.encFull.tail
      ∧ st.cfg.encFull = st.cfg.encFull.take 2 ++ .bool (ascii "whole_heat") 15 0x02 :: st.cfg.encFull.drop 3
      ∧ rowsKeep st.cfg.encFull st.cfg.encFull.tail r 13 0x01 = true ∧ rowsKeep st.cfg.encFull st.cfg.encFull.tail r' 13 0x01 = true
      ∧ rowsKeep st.cfg.encFull (st.cfg.encFull.drop 3) r 15 0x02 = true ∧ rowsKeep st.cfg.encFull (st.cfg.encFull.take 2) r 15 0x02 = true
      ∧ rowsKeep st.cfg.encFull (st.cfg.encFull.drop 3) r' 15 0x02 = true
      ∧ r.controlField (ascii "eplus") = none ∧ isOn (r.statusField (ascii "eplus")) = true
      ∧ r'.controlField (ascii "eplus") = none ∧ isOn (r'.statusField (ascii "eplus")) = false
      ∧ r.controlField (ascii "whole_heat") = some (txt "off") ∧ isOn (some (txt "off")) = false
      ∧ r'.controlField (ascii "whole_heat") = some (.num 1) ∧ isOn (some (.num 1)) = true :=
  ⟨asks _, asks _, by decide +kernel⟩
/-- CFG_T with a mode set by a byte. -/
def byteMode : State :=
  { st with cfg := { Config.cfgT with encFull := Config.cfgT.encFull.map fun row =>
      match row with
      | .mode regions table => .mode regions (table ++ [(ascii "night", .byte 14 0x55)])
      | _ => row } }
def summerTable : List (Str × ModeEnc) := [(ascii "summer", .bit 13 0x04), (ascii "eplus", .bit 13 0x01)]
/-- A9 on CFG_T, and a mode name outside the table. -/
theorem witness_ModePrecedence :
    let party := request (named [("mode", txt "party")]) []
    Asks summer ∧ Asks party ∧ fullFits st.cfg summer = true ∧ fullFits st.cfg party = true
      ∧ summer.controlField (ascii "mode") = some (txt "summer") ∧ party.controlField (ascii "mode") = some (txt "party")
      ∧ st.cfg.encFull = st.cfg.encFull.take 3 ++ .mode [(13, 14)] summerTable :: st.cfg.encFull.drop 4
      ∧ (∀ off ∈ [13, 14], Config.inRegions [(13, 14)] off = true
        ∧ rowsKeep st.cfg.encFull (st.cfg.encFull.drop 4) summer off 0xFF = true
        ∧ rowsKeep st.cfg.encFull (st.cfg.encFull.drop 4) party off 0xFF = true)
      ∧ (∀ e ∈ summerTable, txt "party" ≠ .txt e.1) := ⟨asks _, asks _, by decide +kernel⟩
/-- A mode set by a byte. -/
theorem witness_ModePrecedence_byteEntry :
    let night := request (named [("mode", txt "night")]) []
    let rows := byteMode.cfg.encFull
    byteMode.cfg.wellFormed = true ∧ { byteMode with rq := some night }.rq = some night ∧ fullFits byteMode.cfg night = true
      ∧ night.controlField (ascii "mode") = some (txt "night")
      ∧ rows = rows.take 3 ++ .mode [(13, 14)] (summerTable ++ [(ascii "night", .byte 14 0x55)]) :: rows.drop 4
      ∧ rowsKeep rows (rows.drop 4) night 14 0xFF = true := ⟨by decide +kernel, rfl, by decide +kernel⟩
/-- A11 and A12: the row of `temperature`, its value in either section; what its `clears_mode` clears. -/
theorem witness_NumericFieldIsCopied :
    let r := request (named [("temperature", .num 255)]) []
    let r' := request [] (named [("temperature", .num 60)])
    Asks r ∧ Asks r' ∧ fullFits st.cfg r = true ∧ fullFits st.cfg r' = true
      ∧ st.cfg.encFull = st.cfg.encFull.take 5 ++ .numf (ascii "temperature") 16 true true :: st.cfg.encFull.drop 6
      ∧ rowsKeep st.cfg.encFull (st.cfg.encFull.drop 6) r 16 0xFF = true
      ∧ rowsKeep st.cfg.encFull (st.cfg.encFull.drop 6) r' 16 0xFF = true
      ∧ r.controlField (ascii "temperature") = some (.num 255) ∧ r'.controlField (ascii "temperature") = none
      ∧ r'.statusField (ascii "temperature") = some (.num 60)
      ∧ .mode [(13, 14)] [(ascii "summer", .bit 13 0x04), (ascii "eplus", .bit 13 0x01)] ∈ st.cfg.encFull ∧ 13 ≠ 16
      ∧ rowsKeep st.cfg.encFull (st.cfg.encFull.drop 6) r 13 0x04 = true := ⟨asks _, asks _, by decide +kernel⟩
theorem witness_NumericFieldIsCopied_byteEntry :
    let r := request (named [("temperature", .num 255)]) []
    byteMode.cfg.wellFormed = true ∧ { byteMode with rq := some r }.rq = some r ∧ fullFits byteMode.cfg r = true
      ∧ byteMode.cfg.encFull = byteMode.cfg.encFull.take 5 ++ .numf (ascii "temperature") 16 true true :: byteMode.cfg.encFull.drop 6
      ∧ rowsKeep byteMode.cfg.encFull (byteMode.cfg.encFull.drop 6) r 14 0xFF = true :=
  ⟨by decide +kernel, rfl, by decide +kernel⟩
/-- A13: half and whole share offset 15 under disjoint masks; the same row with two offsets, and with masks that overlap. -/
theorem witness_HeatControlSetsTheNamedBits :
    let r := request (named [("heat", txt "whole")]) (named [("half_heat", txt "on")])
    Asks r ∧ fullFits st.cfg r = true ∧ st.cfg.encFull = st.cfg.encFull.take 4 ++ .heat 15 0x01 15 0x02 :: st.cfg.encFull.drop 5
      ∧ r.controlField (ascii "heat") = some (txt "whole") ∧ rowsKeep st.cfg.encFull (st.cfg.encFull.drop 5) r 15 0x01 = true
      ∧ rowsKeep st.cfg.encFull (st.cfg.encFull.drop 5) r 15 0x02 = true := ⟨asks _, by decide +kernel⟩
/-- CFG_T with another `HEAT` row. -/
def heatAt (halfOff : Nat) (halfMask : Byte) (wholeOff : Nat) (wholeMask : Byte) : Config :=
  { Config.cfgT with encFull := Config.cfgT.encFull.map fun row =>
      if Config.isHeat row then .heat halfOff halfMask wholeOff wholeMask else row }
theorem witness_HeatControlSetsTheNamedBits_offsets :
    let r := request (named [("heat", txt "half")]) []
    (heatAt 15 0x03 15 0x02).wellFormed = true ∧ (heatAt 15 0x01 22 0x01).wellFormed = true
      ∧ (heatAt 15 0x01 22 0x01).encFull
        = (heatAt 15 0x01 22 0x01).encFull.take 4 ++ .heat 15 0x01 22 0x01 :: (heatAt 15 0x01 22 0x01).encFull.drop 5
      ∧ rowsKeep (heatAt 15 0x01 22 0x01).encFull ((heatAt 15 0x01 22 0x01).encFull.drop 5) r 22 0x01 = true := by decide +kernel
/-- A19: the frame of slot 0 lies under that of slot 1. -/
def twoSlots : Request := request (named [("appoint0", txt "1,6,30,0,0"), ("appoint1", txt "0,7")]) []
/-- A18 with a power frame under it, and A19. -/
theorem witness_AppointmentFrame :
    Asks powerAppoint ∧ Asks twoSlots ∧ baseFits st.cfg powerAppoint = true ∧ baseFits st.cfg twoSlots = true
      ∧ (∀ j, j < 1 → slotFits twoSlots j = true)
      ∧ powerAppoint.controlField (slotName 0) = some (.txt (apptText (ascii "1") ([6, 30, 0, 0].map decText)))
      ∧ twoSlots.controlField (slotName 1) = some (.txt (apptText (ascii "0") ([7].map decText)))
      ∧ 0x2C ∉ ascii "1" ∧ 0x2C ∉ ascii "0" := ⟨asks _, asks _, by decide +kernel⟩
theorem witness_AppointmentFrame_under :
    liesUnder st.cfg powerAppoint 0 .txPowerOn ∧ liesUnder st.cfg twoSlots 1 .txAppoint0 :=
  ⟨.inr ⟨by decide, .inl (by decide +kernel)⟩, .inl ⟨0, by decide +kernel⟩⟩
/-- A24 and A26, and a value that is a number. -/
theorem witness_AppointmentFrame_refused :
    let r := request (named [("appoint0", .num 1)]) []
    let f := request (named [("appoint0", txt "1,6,300")]) []
    let l := request (named [("appoint0", txt "1,1,2,3,4,5,6,7,8,9")]) []
    Asks r ∧ Asks f ∧ Asks l ∧ baseFits st.cfg r = true ∧ r.controlField (slotName 0) = some (.num 1)
      ∧ f.controlField (slotName 0) = some (.txt (apptText (ascii "1") [ascii "6", ascii "300"])) ∧ (∀ d, ascii "300" ≠ decText d)
      ∧ l.controlField (slotName 0) = some (.txt (apptText (ascii "1") ([1, 2, 3, 4, 5, 6, 7, 8, 9].map decText))) :=
  ⟨asks _, asks _, asks _, by decide +kernel⟩
theorem witness_AssembledFramePostconditions :
    (nextOf (exec .assemble (withRq powerAppoint))).isSome ∧ resOf (exec .assemble (withRq powerAppoint)) = some .ok := by
  decide +kernel
/-- A24, A25, A26 and a value that is no text do not fit; A22's 255 does. -/
theorem witness_AssembleCompletesExactlyWhenValuesFit :
    baseFits st.cfg (request (named [("temperature", .num 256)]) []) = false ∧ (∀ r, Asks r) ∧ encodable st.cfg (request (named [("temperature", .num 255)]) []) = true
      ∧ encodable st.cfg (request (named [("temperature", .num 256)]) []) = false
      ∧ encodable st.cfg (request (named [("appoint0", txt "1,6,300")]) []) = false
      ∧ encodable st.cfg (request (named [("appoint0", txt "1,1,2,3,4,5,6,7,8,9")]) []) = false
      ∧ encodable st.cfg (request (named [("appoint0", .num 1)]) []) = false := ⟨by decide +kernel, asks, by decide +kernel⟩
theorem witness_ParseAlwaysCompletes :
    st.cfg.wellFormed = true ∧ (withSeq []).aSeq = some [] ∧ (withSeq (List.replicate 256 0x02)).aSeq = some (List.replicate 256 0x02)
      ∧ (List.replicate 256 (0x02 : Byte)).length ≤ 256 := ⟨st_wellFormed, rfl, rfl, by decide +kernel⟩
theorem witness_ReceivedShapesComplete :
    Reads heatP3 ∧ heatP3.length ≤ 256 ∧ ascii "version" ∉ Config.decNames st.cfg.decStatus := ⟨reads _, by decide +kernel⟩
/-- Ten bytes, and P7. -/
theorem witness_UnknownPairGivesVersionOnly :
    Reads (heatP3.take 10) ∧ (heatP3.take 10).length < 11 ∧ Reads (heatP3.take 9 ++ [0x02, 0x09])
      ∧ ∀ c d, memReadOpt (heatP3.take 9 ++ [0x02, 0x09]) 10 = some c → memReadOpt (heatP3.take 9 ++ [0x02, 0x09]) 11 = some d →
        (c.toNat, d.toNat) ∉ [(0x02, 0x01), (0x02, 0x02), (0x02, 0x04), (0x02, 0x14), (0x03, 0x01), (0x04, 0x01),
          (0x02, 0x05), (0x02, 0x06), (0x02, 0x07), (0x03, 0x02)] := by
  refine ⟨reads _, by decide, reads _, ?_⟩
  rintro c d hc hd
  obtain rfl : 0x02 = c := by simpa [memReadOpt, heatP3] using hc
  obtain rfl : 0x09 = d := by simpa [memReadOpt, heatP3] using hd
  decide
theorem witness_StatusFieldsFollowTheirRows :
    st.cfg.wellFormed = true ∧ powerRow ∈ st.cfg.decStatus ∧ memReadOpt heatP3 13 = some 0x07
      ∧ .enum (ascii "bath_person") 13 0x0E [(0x02, ascii "1"), (0x04, ascii "2"), (0x06, ascii "3")] (ascii "off") ∈ st.cfg.decStatus
      ∧ (0x07 : Byte) &&& 0x0E = 0x06 ∧ .num (ascii "temperature") 17 ∈ st.cfg.decStatus ∧ memReadOpt heatP3 17 = some 0x46 :=
  ⟨st_wellFormed, by decide +kernel⟩
theorem witness_ModeNamesTheLastFlagSet : st.cfg.wellFormed = true := st_wellFormed
/-- P6: twelve bytes, and the row of `power` at offset 13. -/
theorem witness_AbsentByteOmitsTheField :
    st.cfg.wellFormed = true ∧ powerRow ∈ st.cfg.decStatus ∧ Config.decNames [powerRow] = [ascii "power"]
      ∧ (∀ off ∈ Config.decOffsets powerRow, (heatP3.take 12).length < off) ∧ ascii "power" ≠ ascii "version" :=
  ⟨st_wellFormed, by decide +kernel⟩
/-- P3: both raw fields on; P4: one; P6: none present. -/
theorem witness_HeatFollowsTheRawBits :
    st.cfg.wellFormed = true ∧ docGet (parseStatus st.cfg heatP3) (ascii "half_heat") = some (txt "on")
      ∧ docGet (parseStatus st.cfg heatP3) (ascii "whole_heat") = some (txt "on")
      ∧ docGet (parseStatus st.cfg (report 0x02 0x04)) (ascii "half_heat") = some (txt "off")
      ∧ docGet (parseStatus st.cfg (heatP3.take 12)) (ascii "half_heat") = none := ⟨st_wellFormed, by decide +kernel⟩
/-- Sixteen bytes hold record 0, fifteen do not. -/
theorem witness_ScheduleRecords :
    memReadOpt (apptP11.take 16) (12 + 5 * (0 : Fin 3).val) = some 0xFF ∧ memReadOpt (apptP11.take 16) 13 = some 0x06
      ∧ memReadOpt (apptP11.take 16) 14 = some 0x1E ∧ memReadOpt (apptP11.take 16) 15 = some 0x00
      ∧ memReadOpt (apptP11.take 16) 16 = some 0x00 ∧ (apptP11.take 15).length < 16 + 5 * (0 : Fin 3).val := by decide
theorem witness_HeaderIsNotRead :
    st.cfg.wellFormed = true ∧ Config.hdr.length = 9 ∧ (List.replicate 9 (0xFF : Byte)).length = 9 ∧ (heatP3.drop 9).length ≤ 247 :=
  ⟨st_wellFormed, by decide⟩
/-- Four data fields, A23's none, and eight. -/
theorem witness_AppointmentRoundTrip :
    let e := request (named [("appoint0", txt "1,1,2,3,4,5,6,7,8")]) []
    let n := request (named [("power", txt "on"), ("appoint0", txt "0")]) []
    Asks powerAppoint ∧ Asks e ∧ Asks n ∧ powerAppoint.query = none ∧ powerAppoint.control.isSome
      ∧ baseFits st.cfg powerAppoint = true ∧ baseFits st.cfg e = true ∧ baseFits st.cfg n = true
      ∧ powerAppoint.controlField (slotName 0) = some (.txt (apptText (ascii "1") ([6, 30, 0, 0].map decText)))
      ∧ e.controlField (slotName 0) = some (.txt (apptText (ascii "1") ([1, 2, 3, 4, 5, 6, 7, 8].map decText)))
      ∧ n.controlField (slotName 0) = some (.txt (apptText (ascii "0") ([].map decText)))
      ∧ powerAppoint.controlField (slotName 1) = none ∧ powerAppoint.controlField (slotName 2) = none :=
  ⟨asks _, asks _, asks _, by decide +kernel⟩
/-- A frame, no frame, and a refusal. -/
theorem witness_EncodeIsAssembleThenHex :
    resOf (exec .assemble { withRq powerAppoint with aOk := some true }) = some .ok
      ∧ resOf (exec .assemble { withRq noFrameAsked with aOk := some true }) = some .null
      ∧ refusalOf (exec .assemble { withControl (named [("temperature", .num 256)]) with aOk := some true }) = some .numRange := by
  decide +kernel
theorem witness_EncodeCompletes :
    let s := { withRq powerAppoint with aOk := some true }
    s.cfg.wellFormed = true ∧ s.rq = some powerAppoint ∧ s.aOk = some true ∧ encodable s.cfg powerAppoint = true
      ∧ powerAppoint.control.isSome := ⟨st_wellFormed, by decide +kernel⟩
theorem witness_AbsentInputCompletes :
    { st with aOk := some false }.aOk = some false ∧ { st with aOk := some true, aStr := some none }.aStr = some none
      ∧ resOf (exec .hex2bytes { st with aStr := some none }) = some .ok
      ∧ resOf (exec .raw2bytes { st with aStr := some none }) = some .ok := by decide
/-- A string PARSE reads and E12, each with `A_OK = 1`. -/
theorem witness_DecodeIsHexThenParse :
    let s := { withStr "aa0c" with aOk := some true }
    let z := { withStr "zz" with aOk := some true }
    s.aOk = some true ∧ s.aStr = some (some (ascii "aa0c")) ∧ z.aOk = some true ∧ z.aStr = some (some (ascii "zz"))
      ∧ seqOf (exec .hex2bytes s) = some [0xAA, 0x0C] ∧ (nextOf (exec .parse { s with aSeq := some [0xAA, 0x0C] })).isSome
      ∧ refusalOf (exec .hex2bytes z) = some .nonHexChar ∧ { s with cfg := illFormed.cfg }.cfg.wellFormed = false := by
  decide +kernel
/-- A string of 514 digits, one pair more than `FB_MAX`. -/
theorem witness_DecodeIsHexThenParse_long :
    let s := { st with aOk := some true, aStr := some (some (List.replicate 514 0x30)) }
    s.aOk = some true ∧ ((seqOf (exec .hex2bytes s)).getD []).length = 257 := ⟨rfl, by decide +kernel⟩
theorem witness_DecodeCompletes :
    let s := { st with aOk := some true, aStr := some (some (List.replicate 513 0x61)) }
    s.cfg.wellFormed = true ∧ s.aOk = some true ∧ s.aStr = some (some (List.replicate 513 0x61))
      ∧ (List.replicate 513 (0x61 : Byte)).length ≤ 513
      ∧ ∀ c ∈ paired (List.replicate 513 0x61), (hexVal c).isSome :=
  ⟨st_wellFormed, rfl, rfl, by decide +kernel, by decide +kernel⟩

end Sys2Proof.Tests
end

section
/-! PROOFS. What a step changes and what it reads (10_state.md): every operation that completes is one of eight completions,
chosen by the configuration and the operand latches alone. The frame rules, the invariant and the absence of cross-call state
follow from that one fact. -/

namespace Sys2Proof.Machine

open Sys2Proof.Claims

/-! ### The completions of an operation -/

/-- The ways an operation completes (10_state.md R16, 60_exceptions.md R205), with the values it leaves. -/
inductive Completion where
  | null
  | byte (b : Byte)
  | num (n : Int)
  | seq (S : List Byte)
  | str (T : Str)
  | doc (d : Doc)
  | frame (fb : FrameBuffer)
  | encoded (fb : FrameBuffer)

/-- The state an operation leaves when it completes so. -/
def State.complete (s : State) : Completion → State
  | .null => s.completeNull
  | .byte b => s.completeByte b
  | .num n => s.completeNum n
  | .seq S => s.completeSeq S
  | .str T => s.completeStr T
  | .doc d => s.completeDoc d
  | .frame fb => s.completeFrame fb
  | .encoded fb => s.completeEncoded fb

/-- What the instruction may complete with: documents and frames in canonical form, frames from an emitter only. -/
def Completion.Allowed (i : Instr) : Completion → Prop
  | .doc d => docWf d
  | .frame fb => fb.wf ∧ i ∈ emitters
  | .encoded fb => fb.wf ∧ i ∈ emitters
  | _ => True

/-- A completion writes neither the configuration nor an operand latch. -/
theorem complete_sameInputs (s : State) (c : Completion) : sameInputs s (s.complete c) := by
  cases c <;> simp [sameInputs, State.complete]

/-- The results after a completion do not depend on the state before. -/
theorem complete_sameResults (s s' : State) (c : Completion) : sameResults (s.complete c) (s'.complete c) := by
  cases c <;> simp [sameResults, State.complete]

/-- An instruction that is no emitter leaves the frame buffer as it was. -/
theorem complete_fb_of_not_emitter {i : Instr} {c : Completion} (s : State) (hi : i ∉ emitters) (hc : c.Allowed i) :
    (s.complete c).fb = s.fb := by
  cases c with
  | frame fb => exact absurd hc.2 hi
  | encoded fb => exact absurd hc.2 hi
  | _ => rfl

/-- The result latches agree with RES after every completion. -/
theorem complete_resultsOk (s : State) (c : Completion) : (s.complete c).resultsOk = true := by
  cases c <;> rfl

theorem complete_fb_wf {i : Instr} {c : Completion} {s : State} (h : s.fb.wf) (hc : c.Allowed i) :
    (s.complete c).fb.wf := by
  cases c with
  | frame fb => exact hc.1
  | encoded fb => exact hc.1
  | _ => exact h

theorem complete_sd_wf {i : Instr} {c : Completion} {s : State} (hc : c.Allowed i) :
    ∀ d, (s.complete c).sd = some d → docWf d := by
  intro d hd
  cases c with
  | doc d' =>
    obtain rfl : d' = d := Option.some.inj hd
    exact hc
  | _ => cases hd

/-- Every completion keeps the invariant. -/
theorem complete_inv {i : Instr} {c : Completion} {s : State} (h : s.Inv) (hc : c.Allowed i) : (s.complete c).Inv :=
  ⟨complete_fb_wf h.1 hc, complete_resultsOk s c, complete_sd_wf hc⟩

/-! ### Two runs that answer alike -/

/-- Two runs, from `s` and from `s'`, answer alike: both stop for the same reason, or both complete with the same values, which
the instruction may complete with. -/
inductive SameAnswer (i : Instr) (s s' : State) : Outcome → Outcome → Prop where
  | next (c : Completion) (hc : c.Allowed i) : SameAnswer i s s' (.next (s.complete c)) (.next (s'.complete c))
  | stop (e : Stop) : SameAnswer i s s' e.outcome e.outcome

section
variable {i : Instr} {s s' : State}

/-- After a read that answers alike, the runs answer alike when what follows does. -/
theorem SameAnswer.bind {α : Type} {x : Except Stop α} {f f' : α → Except Stop State}
    (h : ∀ a, x = .ok a → SameAnswer i s s' (runOp (f a)) (runOp (f' a))) :
    SameAnswer i s s' (runOp (x >>= f)) (runOp (x >>= f')) := by
  cases x with
  | ok a => exact h a rfl
  | error e => exact .stop e

/-- An operation that does not stop completes with values the instruction may complete with. -/
theorem SameAnswer.eq_complete {o : Outcome} {t : State} (h : SameAnswer i s s' (.next t) o) :
    ∃ c : Completion, c.Allowed i ∧ t = s.complete c ∧ o = .next (s'.complete c) := by
  generalize ho : Host.Outcome.next t = o₁ at h
  cases h with
  | next c hc => exact ⟨c, hc, Host.Outcome.next.inj ho, rfl⟩
  | stop e => cases e <;> cases ho

theorem SameAnswer.eq_refused {o : Outcome} {r : Refusal} (h : SameAnswer i s s' (.refused r) o) : o = .refused r := by
  generalize ho : Host.Outcome.refused r = o₁ at h
  cases h with
  | next c hc => cases ho
  | stop e => rfl

end

/-! ### The frames are well formed -/

/-- The branch, run after the header, makes a frame of a length that has room for the checksum. -/
def FillsFrame (r : Except Stop FrameBuffer) : Prop :=
  ∀ fb, r = .ok fb → ∃ F, fb = .ofSeq F ∧ 12 ≤ F.length ∧ F.length ≤ 255

theorem FillsFrame.ofSeq {F : List Byte} (h0 : 12 ≤ F.length) (h1 : F.length ≤ 255) : FillsFrame (.ok (.ofSeq F)) :=
  fun _ h => ⟨F, (Except.ok.inj h).symm, h0, h1⟩

theorem FillsFrame.refuse (r : Refusal) : FillsFrame (refuse r) := fun _ h => absurd h (refuse_ne_ok r _)

/-- A step that lets a frame keep its room may follow. -/
theorem FillsFrame.bind {r : Except Stop FrameBuffer} {g : FrameBuffer → Except Stop FrameBuffer} (h : FillsFrame r)
    (hg : ∀ F : List Byte, 12 ≤ F.length → F.length ≤ 255 → FillsFrame (g (.ofSeq F))) : FillsFrame (r >>= g) := by
  intro fb hfb
  obtain ⟨fb₁, h₁, h₂⟩ := bind_eq_ok.mp hfb
  obtain ⟨F, rfl, h0, h1⟩ := h fb₁ h₁
  exact hg F h0 h1 fb h₂

/-- A frame ends well formed when its branch leaves room for the checksum (44_assembler.md R160). -/
theorem buildFrame_wf {branch : FrameBuffer → Except Stop FrameBuffer} {fb : FrameBuffer}
    (h : FillsFrame (branch (.ofSeq Config.hdr))) (hfb : buildFrame branch = .ok fb) : fb.wf := by
  rw [buildFrame, startFrame_eq, bind_ok] at hfb
  obtain ⟨fb₁, h₁, h₂⟩ := bind_eq_ok.mp hfb
  obtain ⟨F, rfl, h0, h1⟩ := h fb₁ h₁
  rw [finalizeFrame_eq (by omega) h1] at h₂
  cases h₂
  exact ofSeq_wf (by simp only [finished_length, Config.fbMax]; omega)

theorem queryBody_fills (sub : Byte) : FillsFrame (queryBody sub (.ofSeq Config.hdr)) :=
  FillsFrame.ofSeq (F := Config.hdr ++ [Config.cmdQuery, sub, Config.queryFlag]) (by simp [Config.hdr]) (by simp [Config.hdr])

/-- A control frame starts with ten bytes. -/
theorem controlThen_eq (body : FrameBuffer → Except Stop FrameBuffer) :
    controlThen body (.ofSeq Config.hdr) = body (.ofSeq (Config.hdr ++ [Config.cmdControl])) := by
  rw [controlThen, controlStart_eq, bind_ok]

theorem powerBody_fills {F : List Byte} (bytes : Byte × Byte) (hF : F.length = 10) :
    FillsFrame (powerBody bytes (.ofSeq F)) := by
  rw [powerBody_eq bytes hF]
  exact .ofSeq (by simp [hF]) (by simp [hF])

section
variable {cfg : Config} (h : cfg.wellFormed = true) (rq : Request) {F : List Byte}
include h

theorem partBody_fills (hF : F.length = 10) : FillsFrame (partBody cfg rq (.ofSeq F)) := by
  have hw := wellFormed_windows h
  rcases partBody_cases h rq hF with ⟨_, F', h', hl, _⟩ | ⟨_, h'⟩
  · rw [h']; exact .ofSeq (by omega) (by omega)
  · rw [h']; exact .refuse _

theorem fullBody_fills (hF : F.length = 10) : FillsFrame (fullBody cfg rq (.ofSeq F)) := by
  have hw := wellFormed_windows h
  rcases fullBody_cases h rq hF with ⟨_, F', h', hl, _⟩ | ⟨_, h'⟩
  · rw [h']; exact .ofSeq (by omega) (by omega)
  · rw [h']; exact .refuse _

theorem baseBody_fills (hF : F.length = 10) : FillsFrame (baseBody cfg rq (.ofSeq F)) := by
  have hb := baseLength_bounds h rq
  rcases baseBody_cases h rq hF with ⟨_, F', h', hl, _⟩ | ⟨_, h'⟩
  · rw [h']; exact .ofSeq (by omega) (by omega)
  · rw [h']; exact .refuse _

end

theorem apptIfPresent_fills (rq : Request) (i : Fin 3) {F : List Byte} (h0 : 12 ≤ F.length) (h1 : F.length ≤ 255) :
    FillsFrame (apptIfPresent rq i (.ofSeq F)) := by
  rcases apptIfPresent_cases rq i h0 h1 with ⟨_, F', h', hl, hu, _⟩ | ⟨_, r, _, h'⟩
  · rw [h']; exact .ofSeq (by omega) (by omega)
  · rw [h']; exact .refuse _

/-- The overlay of a slot: where its field is absent it is refused, else it is the overlay of a present field. -/
theorem apptOverlay_fills (rq : Request) (i : Fin 3) {F : List Byte} (h0 : 12 ≤ F.length) (h1 : F.length ≤ 255) :
    FillsFrame (apptOverlay rq i (.ofSeq F)) := by
  cases hv : (rq.controlField (slotName i)).isSome with
  | false =>
    have hnone : rq.controlField (slotName i) = none := by simpa using hv
    rw [apptOverlay, hnone]
    exact .refuse .apptValue
  | true => simpa [apptIfPresent, hv] using apptIfPresent_fills rq i h0 h1

theorem applyIf_fills {c : Bool} {g : FrameBuffer → Except Stop FrameBuffer} {F : List Byte} (h0 : 12 ≤ F.length)
    (h1 : F.length ≤ 255) (hg : FillsFrame (g (.ofSeq F))) : FillsFrame (applyIf c g (.ofSeq F)) := by
  cases c with
  | false => exact .ofSeq h0 h1
  | true => exact hg

theorem apptBody_fills {cfg : Config} (h : cfg.wellFormed = true) (i : Fin 3) (rq : Request) {F : List Byte}
    (hF : F.length = 10) : FillsFrame (apptBody i cfg rq (.ofSeq F)) :=
  .bind (baseBody_fills h rq hF) fun _ a0 a1 =>
  .bind (applyIf_fills a0 a1 (apptIfPresent_fills rq 0 a0 a1)) fun _ b0 b1 =>
  .bind (applyIf_fills b0 b1 (apptIfPresent_fills rq 1 b0 b1)) fun _ c0 c1 => apptOverlay_fills rq i c0 c1

/-- Every frame ASSEMBLE makes is well formed. -/
theorem assembleFrame_wf {cfg : Config} (h : cfg.wellFormed = true) {rq : Request} {fb : FrameBuffer}
    (hfb : assembleFrame cfg rq = .ok (some fb)) : fb.wf := by
  unfold assembleFrame at hfb
  split at hfb
  · obtain ⟨fb₁, h₁, h₂⟩ := bind_eq_ok.mp hfb
    cases h₂
    exact buildFrame_wf (queryBody_fills _) h₁
  · obtain ⟨fb₁, h₁, h₂⟩ := bind_eq_ok.mp hfb
    cases h₂
    rcases controlFrame_cases h rq with ⟨_, F, h', _, hu, _⟩ | ⟨_, r, _, h'⟩
    · rw [h'] at h₁
      cases h₁
      exact ofSeq_wf (by simp only [finished_length, Config.fbMax]; omega)
    · exact absurd (h' ▸ h₁) (refuse_ne_ok r _)
  · cases hfb

/-! ### What each operation answers -/

section
variable {i : Instr} {s s' : State}

/-- `A_SEQ` reads the same from the same inputs. -/
theorem readSeq_congr (h : s'.aSeq = s.aSeq) : s'.readSeq = s.readSeq := by simp only [State.readSeq, h]

theorem execHex2bytes_sameAnswer (h : sameInputs s s') : SameAnswer i s s' (execHex2bytes s) (execHex2bytes s') := by
  obtain ⟨hcfg, -, -, hstr, -⟩ := h
  simp only [execHex2bytes, hcfg, hstr]
  exact .bind fun _ _ => .bind fun S _ => .next (.seq S) trivial

theorem execBytes2hex_sameAnswer (h : sameInputs s s') : SameAnswer i s s' (execBytes2hex s) (execBytes2hex s') := by
  obtain ⟨-, -, hseq, -⟩ := h
  simp only [execBytes2hex, readSeq_congr hseq]
  exact .bind fun S _ => .next (.str (bytesToHexString S)) trivial

theorem execBytes2raw_sameAnswer (h : sameInputs s s') : SameAnswer i s s' (execBytes2raw s) (execBytes2raw s') := by
  obtain ⟨-, -, hseq, -⟩ := h
  simp only [execBytes2raw, readSeq_congr hseq]
  exact .bind fun S _ => .next (.str (bytesToRawString S)) trivial

theorem execRaw2bytes_sameAnswer (h : sameInputs s s') : SameAnswer i s s' (execRaw2bytes s) (execRaw2bytes s') := by
  obtain ⟨hcfg, -, -, hstr, -⟩ := h
  simp only [execRaw2bytes, hcfg, hstr]
  exact .bind fun a _ => .next (.seq (rawOperandBytes s.cfg a)) trivial

theorem execCksum_sameAnswer (h : sameInputs s s') : SameAnswer i s s' (execCksum s) (execCksum s') := by
  obtain ⟨-, -, hseq, -, hfrom, hto, -⟩ := h
  simp only [execCksum, hseq, hfrom, hto]
  exact .bind fun _ _ => .bind fun _ _ => .bind fun _ _ => .bind fun _ _ => .bind fun c _ => .next (.byte c) trivial

theorem execClamp_sameAnswer (h : sameInputs s s') : SameAnswer i s s' (execClamp s) (execClamp s') := by
  obtain ⟨-, -, -, -, -, -, hval, hvalid, hmin, hmax, -⟩ := h
  simp only [execClamp, State.clampValue, hval, hvalid, hmin, hmax]
  exact .bind fun _ _ => .bind fun v _ => .bind fun lo _ => .bind fun hi _ => .next (.num (clampInto v lo hi)) trivial

/-- Every reader of a report completes with a document in canonical form. -/
theorem extract_sameAnswer (h : sameInputs s s') {parse : Config → List Byte → Doc}
    (hwf : ∀ cfg S, docWf (parse cfg S)) : SameAnswer i s s' (extract s parse) (extract s' parse) := by
  obtain ⟨hcfg, -, hseq, -⟩ := h
  simp only [extract, readSeq_congr hseq, hcfg]
  exact .bind fun S _ => .bind fun _ _ => .next (.doc (parse s.cfg S)) (hwf s.cfg S)

theorem parseAs_wf (shape : ReportShape) (cfg : Config) (S : List Byte) : docWf (parseAs shape cfg S) := by
  cases shape with
  | status => exact execDecRows_wf _ _ _ (startDoc_wf cfg)
  | appointment => exact parseRecord_wf _ _ _ (parseRecord_wf _ _ _ (parseRecord_wf _ _ _ (startDoc_wf cfg)))
  | unknown => exact startDoc_wf cfg

theorem execAssemble_sameAnswer (h : sameInputs s s') :
    SameAnswer .assemble s s' (execAssemble s) (execAssemble s') := by
  obtain ⟨hcfg, -, -, -, -, -, -, -, -, -, -, hrq⟩ := h
  simp only [execAssemble, hcfg, hrq]
  refine .bind fun rq _ => .bind fun _ hok => .bind fun frame hframe => ?_
  cases frame with
  | none => exact .next .null trivial
  | some fb => exact .next (.frame fb) ⟨assembleFrame_wf (checkConfig_eq_ok.mp hok) hframe, by decide⟩

theorem encodeRequest_sameAnswer (h : sameInputs s s') :
    SameAnswer .encode s s' (runOp (encodeRequest s)) (runOp (encodeRequest s')) := by
  obtain ⟨hcfg, -, -, -, -, -, -, -, -, -, -, hrq⟩ := h
  simp only [encodeRequest, hcfg, hrq]
  refine .bind fun rq _ => .bind fun _ hok => .bind fun frame hframe => ?_
  cases frame with
  | none => exact .next .null trivial
  | some fb => exact .next (.encoded fb) ⟨assembleFrame_wf (checkConfig_eq_ok.mp hok) hframe, by decide⟩

theorem execEncode_sameAnswer (h : sameInputs s s') : SameAnswer .encode s s' (execEncode s) (execEncode s') := by
  have ⟨_, _, _, _, _, _, _, _, _, _, hok, _⟩ := h
  simp only [execEncode, hok]
  refine .bind fun ok _ => ?_
  cases ok with
  | false => exact .next .null trivial
  | true => exact encodeRequest_sameAnswer h

theorem decodeReport_sameAnswer (h : sameInputs s s') :
    SameAnswer i s s' (runOp (decodeReport s)) (runOp (decodeReport s')) := by
  obtain ⟨hcfg, -, -, hstr, -⟩ := h
  simp only [decodeReport, hcfg, hstr]
  refine .bind fun data _ => ?_
  cases data with
  | none => exact .next .null trivial
  | some T =>
    exact .bind fun _ _ => .bind fun S _ => .bind fun _ _ => .next (.doc (parseFrame s.cfg S)) (parseFrame_wf s.cfg S)

theorem execDecode_sameAnswer (h : sameInputs s s') : SameAnswer i s s' (execDecode s) (execDecode s') := by
  have ⟨_, _, _, _, _, _, _, _, _, _, hok, _⟩ := h
  simp only [execDecode, hok]
  refine .bind fun ok _ => ?_
  cases ok with
  | false => exact .next .null trivial
  | true => exact decodeReport_sameAnswer h

/-- A frame shape of which the branch leaves room for the checksum. -/
theorem emitFrame_sameAnswer (hi : i ∈ emitters) (hcfg : s'.cfg = s.cfg)
    {branch : FrameBuffer → Except Stop FrameBuffer}
    (hb : s.cfg.wellFormed = true → FillsFrame (branch (.ofSeq Config.hdr))) :
    SameAnswer i s s' (emitFrame s branch) (emitFrame s' branch) := by
  simp only [emitFrame, hcfg]
  exact .bind fun _ hok => .bind fun fb hfb =>
    .next (.frame fb) ⟨buildFrame_wf (hb (checkConfig_eq_ok.mp hok)) hfb, hi⟩

theorem emitPower_sameAnswer (hi : i ∈ emitters) (hcfg : s'.cfg = s.cfg) (bytes : Byte × Byte) :
    SameAnswer i s s' (emitFrame s (controlThen (powerBody bytes))) (emitFrame s' (controlThen (powerBody bytes))) :=
  emitFrame_sameAnswer hi hcfg fun _ => controlThen_eq (powerBody bytes) ▸ powerBody_fills bytes rfl

theorem emitControl_sameAnswer (hi : i ∈ emitters) (h : sameInputs s s')
    {body : Config → Request → FrameBuffer → Except Stop FrameBuffer}
    (hb : ∀ {cfg : Config}, cfg.wellFormed = true → ∀ (rq : Request) {F : List Byte}, F.length = 10 →
      FillsFrame (body cfg rq (.ofSeq F))) :
    SameAnswer i s s' (emitControl s body) (emitControl s' body) := by
  obtain ⟨hcfg, -, -, -, -, -, -, -, -, -, -, hrq⟩ := h
  simp only [emitControl, hrq, hcfg]
  cases operand s.rq with
  | error e => exact .stop e
  | ok rq => exact emitFrame_sameAnswer hi hcfg fun h => controlThen_eq (body s.cfg rq) ▸ hb h rq rfl

/-- What an instruction answers is settled by the configuration and the operand latches alone (10_state.md R17, R18). -/
theorem exec_sameAnswer (i : Instr) (h : sameInputs s s') : SameAnswer i s s' (exec i s) (exec i s') := by
  cases i with
  | hex2bytes => exact execHex2bytes_sameAnswer h
  | bytes2hex => exact execBytes2hex_sameAnswer h
  | bytes2raw => exact execBytes2raw_sameAnswer h
  | raw2bytes => exact execRaw2bytes_sameAnswer h
  | cksum => exact execCksum_sameAnswer h
  | clamp => exact execClamp_sameAnswer h
  | assemble => exact execAssemble_sameAnswer h
  | parse => exact extract_sameAnswer h parseFrame_wf
  | encode => exact execEncode_sameAnswer h
  | decode => exact execDecode_sameAnswer h
  | reservedA | reservedB | reservedC | reservedD | reservedE | reservedF => exact .stop (.refusal .reservedOp)
  | txQueryStatus | txQueryAppoint => exact emitFrame_sameAnswer (by decide) h.1 fun _ => queryBody_fills _
  | txPowerOn | txPowerOff => exact emitPower_sameAnswer (by decide) h.1 _
  | txFull => exact emitControl_sameAnswer (by decide) h fullBody_fills
  | txPart => exact emitControl_sameAnswer (by decide) h partBody_fills
  | txAppoint0 | txAppoint1 | txAppoint2 =>
    exact emitControl_sameAnswer (by decide) h fun hc => apptBody_fills hc _
  | rxStatus0201 | rxStatus0202 | rxStatus0204 | rxStatus0214 | rxStatus0301 | rxStatus0401 =>
    exact extract_sameAnswer h (parseAs_wf .status)
  | rxAppt0205 | rxAppt0206 | rxAppt0207 | rxAppt0302 => exact extract_sameAnswer h (parseAs_wf .appointment)

/-- An instruction that does not stop completes, with values it may complete with. -/
theorem exec_eq_complete {t : State} (h : exec i s = .next t) : ∃ c : Completion, c.Allowed i ∧ t = s.complete c := by
  have hs : sameInputs s s := by simp [sameInputs]
  have ha := exec_sameAnswer i hs
  rw [h] at ha
  obtain ⟨c, hc, ht, -⟩ := ha.eq_complete
  exact ⟨c, hc, ht⟩

/-! ### Steps -/

theorem step_of_op {c : BitVec 4} (h : s.op = some c) : step s = exec (decodeOp c) s := by simp [step, fetch, h]

theorem step_of_no_op (h : s.op = none) : step s = .refused .unwrittenOperand := by
  simp only [step, fetch, h]; rfl

/-- A step that does not stop runs an instruction. -/
theorem step_eq_next {t : State} (h : step s = .next t) : ∃ i, exec i s = .next t := by
  cases hop : s.op with
  | none => rw [step_of_no_op hop] at h; cases h
  | some c => exact ⟨decodeOp c, step_of_op hop ▸ h⟩

theorem step_sameAnswer (h : sameInputs s s') : ∃ i, SameAnswer i s s' (step s) (step s') := by
  have hop' : s'.op = s.op := h.2.1
  cases hop : s.op with
  | none =>
    rw [step_of_no_op hop, step_of_no_op (hop'.trans hop)]
    exact ⟨.hex2bytes, .stop (.refusal .unwrittenOperand)⟩
  | some c =>
    rw [step_of_op hop, step_of_op (hop'.trans hop)]
    exact ⟨decodeOp c, exec_sameAnswer _ h⟩

end

/-! ### The obligations -/

/-- Settles O24: a step is an instruction, an instruction that does not stop is a completion, and a completion keeps the
invariant. -/
theorem stepKeepsTheInvariant : Obligations.StepKeepsTheInvariant := by
  intro s t hs h
  obtain ⟨i, hi⟩ := step_eq_next h
  obtain ⟨c, hc, rfl⟩ := exec_eq_complete hi
  exact complete_inv hs hc

/-- Settles O25. -/
theorem inputsAreNotWritten : Obligations.InputsAreNotWritten := by
  intro i s t h
  obtain ⟨c, -, rfl⟩ := exec_eq_complete h
  exact complete_sameInputs s c

/-- Settles O26: only the two completions with a frame write the buffer, and only an emitter completes so. -/
theorem onlyEmittersWriteTheBuffer : Obligations.OnlyEmittersWriteTheBuffer := by
  intro i s t hi h
  obtain ⟨c, hc, rfl⟩ := exec_eq_complete h
  rw [complete_fb_of_not_emitter s hi hc]
  exact ⟨rfl, fun _ => rfl⟩

/-- Settles O28: two steps from the same inputs complete with the same values or are refused alike. -/
theorem noCrossCallState : Obligations.NoCrossCallState := by
  intro s s' hin
  obtain ⟨i, ha⟩ := step_sameAnswer hin
  constructor
  · intro t ht
    rw [ht] at ha
    obtain ⟨c, -, rfl, hs'⟩ := ha.eq_complete
    exact ⟨_, hs', complete_sameResults s s' c⟩
  · intro r hr
    rw [hr] at ha
    exact ha.eq_refused

end Sys2Proof.Machine
end

section
/-! PROOFS. The power frame (44_assembler.md R144). -/

namespace Sys2Proof.Machine

open Sys2Proof.Claims

theorem isOn_iff (v : Option Val) : isOn v = true ↔ v = some (.txt (ascii "on")) ∨ v = some (.num 1) := by simp [isOn]

theorem isOff_iff (v : Option Val) : isOff v = true ↔ v = some (.txt (ascii "off")) ∨ v = some (.num 0) := by
  simp [isOff]

/-- No value is both on and off. -/
theorem isOn_of_isOff {v : Option Val} (h : isOff v = true) : isOn v = false := by
  rcases (isOff_iff v).mp h with rfl | rfl <;> decide

/-- Completing with the frame `F`, as the statements say it. -/
theorem completeFrame_ofSeq (s : State) (F : List Byte) : s.completeFrame (.ofSeq F) = frameOf s F := by
  simp only [State.completeFrame, ofSeq_seq]; rfl

theorem baseBody_of_isOn {cfg : Config} {rq : Request} (h : isOn (rq.controlField (ascii "power")) = true)
    (fb : FrameBuffer) : baseBody cfg rq fb = powerBody Config.pwrOnBytes fb := by simp [baseBody, h]

theorem baseBody_of_isOff {cfg : Config} {rq : Request} (h : isOff (rq.controlField (ascii "power")) = true)
    (fb : FrameBuffer) : baseBody cfg rq fb = powerBody Config.pwrOffBytes fb := by
  simp [baseBody, h, isOn_of_isOff h]

/-- Without an appointment field the overlays write nothing. -/
theorem apptOverlays_of_absent {rq : Request} (h : ∀ i, rq.controlField (slotName i) = none) (fb : FrameBuffer) :
    apptOverlays rq fb = .ok fb := by
  simp [apptOverlays, apptIfPresent, h]

/-- A control request that selects the power branch and names no appointment is the power shape. -/
theorem controlBody_of_power {cfg : Config} {rq : Request} {bytes : Byte × Byte}
    (hb : ∀ fb, baseBody cfg rq fb = powerBody bytes fb) (ha : ∀ i, rq.controlField (slotName i) = none) :
    controlBody cfg rq = controlThen (powerBody bytes) := by
  funext fb
  simp only [controlBody, controlThen, hb]
  refine congrArg (fb.set 10 Config.cmdControl >>= ·) (funext fun fb₁ => ?_)
  cases powerBody bytes fb₁ with
  | error e => rfl
  | ok fb₂ => exact apptOverlays_of_absent ha fb₂

/-- The frame of the power shape. -/
theorem powerFrame_eq (bytes : Byte × Byte) : buildFrame (controlThen (powerBody bytes))
    = .ok (.ofSeq (finished (Config.hdr ++ [Config.cmdControl] ++ [bytes.1, bytes.2]))) := by
  simp only [buildFrame, startFrame_eq, bind_ok, controlThen_eq]
  rw [powerBody_eq bytes rfl, bind_ok]
  exact finalizeFrame_eq (by simp [Config.hdr]) (by simp [Config.hdr])

theorem emitFrame_of_build {s : State} {branch : FrameBuffer → Except Stop FrameBuffer} {F : List Byte}
    (h : s.cfg.wellFormed = true) (hb : buildFrame branch = .ok (.ofSeq F)) :
    emitFrame s branch = .next (frameOf s F) := by
  simp [emitFrame, h, hb, completeFrame_ofSeq]

/-- ASSEMBLE of a request with a control section emits the shape its control body builds. -/
theorem execAssemble_of_control {s : State} {rq : Request} {F : List Byte} (h : s.cfg.wellFormed = true)
    (hrq : s.rq = some rq) (hq : rq.query = none) (hc : rq.control.isSome)
    (hb : buildFrame (controlBody s.cfg rq) = .ok (.ofSeq F)) : exec .assemble s = .next (frameOf s F) := by
  obtain ⟨d, hd⟩ := Option.isSome_iff_exists.mp hc
  have ha : assembleFrame s.cfg rq = .ok (some (.ofSeq F)) := by simp [assembleFrame, hq, hd, hb]
  change execAssemble s = _
  simp [execAssemble, hrq, h, ha, completeFrame_ofSeq]

theorem powerOn_bytes : finished (Config.hdr ++ [Config.cmdControl] ++ [Config.pwrOnBytes.1, Config.pwrOnBytes.2])
    = [0xAA, 0x0C, 0xE2, 0x00, 0x00, 0x00, 0x00, 0x00, 0x00, 0x02, 0x01, 0x01, 0x0E] := by decide

theorem powerOff_bytes : finished (Config.hdr ++ [Config.cmdControl] ++ [Config.pwrOffBytes.1, Config.pwrOffBytes.2])
    = [0xAA, 0x0C, 0xE2, 0x00, 0x00, 0x00, 0x00, 0x00, 0x00, 0x02, 0x02, 0x01, 0x0D] := by decide

/-- Settles O31: a request for power on or off without an appointment builds the power shape, whose thirteen bytes are
computed. -/
theorem powerFrame : Obligations.PowerFrame := by
  refine ⟨isOn_iff, isOff_iff, fun s hs => ⟨fun r hrq hq hc ha => ⟨fun hon => ?_, fun hoff => ?_⟩, ?_, ?_⟩⟩
  · rw [← powerOn_bytes]
    exact execAssemble_of_control hs hrq hq hc (controlBody_of_power (baseBody_of_isOn hon) ha ▸ powerFrame_eq _)
  · rw [← powerOff_bytes]
    exact execAssemble_of_control hs hrq hq hc (controlBody_of_power (baseBody_of_isOff hoff) ha ▸ powerFrame_eq _)
  · exact powerOn_bytes ▸ emitFrame_of_build hs (powerFrame_eq Config.pwrOnBytes)
  · exact powerOff_bytes ▸ emitFrame_of_build hs (powerFrame_eq Config.pwrOffBytes)

end Sys2Proof.Machine
end

section
/-! PROOFS. Reset, and the refusal of operands without a value (10_state.md R23). -/

namespace Sys2Proof.Machine

open Sys2Proof.Claims

/-! ### Operands without a value -/

/-- An operand latch is read before one that has no value: the operation is refused all the same. -/
theorem operand_bind_refuse {α β : Type} {x : Option α} {f : α → Except Stop β}
    (h : ∀ a, x = some a → f a = refuse .unwrittenOperand) : (operand x >>= f) = refuse .unwrittenOperand := by
  cases x with
  | none => rfl
  | some a => exact h a rfl

theorem readSeq_of_unwritten {s : State} (h : s.aSeq = none) : s.readSeq = refuse .unwrittenOperand := by
  simp only [State.readSeq, h]; rfl

theorem extract_of_unwritten {s : State} (h : s.aSeq = none) (parse : Config → List Byte → Doc) :
    extract s parse = .refused .unwrittenOperand := by
  simp [extract, readSeq_of_unwritten h]

theorem emitControl_of_unwritten {s : State} (h : s.rq = none)
    (body : Config → Request → FrameBuffer → Except Stop FrameBuffer) :
    emitControl s body = .refused .unwrittenOperand := by
  simp only [emitControl, h]; rfl

/-- The rows that read a report read it in one of the two shapes. -/
theorem exec_reportRow {i : Instr} (h : i ∈ statusRows ++ appointmentRows) :
    ∃ parse, ∀ s, exec i s = extract s parse := by
  simp only [statusRows, appointmentRows, List.cons_append, List.nil_append, List.mem_cons, List.not_mem_nil, or_false] at h
  rcases h with rfl | rfl | rfl | rfl | rfl | rfl | rfl | rfl | rfl | rfl <;> exact ⟨_, fun _ => rfl⟩

theorem execCksum_of_unwritten {s : State} (h : s.aSeq = none ∨ s.aFrom = none ∨ s.aTo = none) :
    execCksum s = .refused .unwrittenOperand := by
  refine runOp_eq_refused.mpr (operand_bind_refuse fun S hS => operand_bind_refuse fun a ha =>
    operand_bind_refuse fun b hb => ?_)
  simp [hS, ha, hb] at h

/-- The value CLAMP works on is read, or it is one of the latches without a value. -/
theorem clampValue_bind_refuse {s : State} {valid : Bool} {β : Type} {f : Int → Except Stop β}
    (h : ∀ v, (valid = true → s.aVal = some v) → f v = refuse .unwrittenOperand) :
    (s.clampValue valid >>= f) = refuse .unwrittenOperand := by
  cases valid with
  | false => exact h 0 (by simp)
  | true => exact operand_bind_refuse fun v hv => h v fun _ => hv

theorem execClamp_of_unwritten {s : State}
    (h : s.aValid = none ∨ s.aMin = none ∨ s.aMax = none ∨ (s.aValid = some true ∧ s.aVal = none)) :
    execClamp s = .refused .unwrittenOperand := by
  refine runOp_eq_refused.mpr (operand_bind_refuse fun valid hvalid => clampValue_bind_refuse fun v hv =>
    operand_bind_refuse fun lo hlo => operand_bind_refuse fun hi hhi => ?_)
  rcases h with h | h | h | ⟨htrue, hnone⟩
  · cases hvalid.symm.trans h
  · cases hlo.symm.trans h
  · cases hhi.symm.trans h
  · have hval := hv (Option.some.inj (hvalid.symm.trans htrue))
    cases hval.symm.trans hnone

/-! ### The obligations -/

/-- Settles O8, latch by latch. -/
theorem unwrittenOperandsAreRefused : Obligations.UnwrittenOperandsAreRefused := by
  intro s
  refine ⟨step_of_no_op, fun h => ?str, fun h i hi => ?seq, execCksum_of_unwritten, execClamp_of_unwritten,
    fun h i hi => ?rq, fun h => ?ok, fun hok h => ?encodeRq, fun hok h => ?decodeStr⟩
  case str => constructor <;> simp [exec, execHex2bytes, execRaw2bytes, h]
  case seq =>
    simp only [List.cons_append, List.nil_append, List.mem_cons] at hi
    rcases hi with rfl | rfl | rfl | rfl | hi
    · simp [exec, execBytes2hex, readSeq_of_unwritten h]
    · simp [exec, execBytes2raw, readSeq_of_unwritten h]
    · exact execCksum_of_unwritten (.inl h)
    · exact extract_of_unwritten h parseFrame
    · obtain ⟨parse, hp⟩ := exec_reportRow hi
      rw [hp, extract_of_unwritten h]
  case rq =>
    simp only [List.mem_cons, List.not_mem_nil, or_false] at hi
    rcases hi with rfl | rfl | rfl | rfl | rfl | rfl
    · simp [exec, execAssemble, h]
    all_goals exact emitControl_of_unwritten h _
  case ok => constructor <;> simp [exec, execEncode, execDecode, h]
  case encodeRq => simp [exec, execEncode, encodeRequest, hok, h]
  case decodeStr => simp [exec, execDecode, decodeReport, hok, h]

/-- Settles O22: reset is a literal, so each value is read off it. -/
theorem resetValues : Obligations.ResetValues :=
  ⟨fun _ => rfl, rfl, fun _ => rfl, rfl, rfl, rfl, rfl, rfl, rfl, rfl, rfl, rfl, rfl, rfl, rfl, rfl, rfl, rfl, rfl, rfl⟩

/-- The empty frame buffer is well formed. -/
theorem reset_fb_wf : State.reset.fb.wf := ofSeq_wf (F := []) (Nat.zero_le _)

/-- Settles O23: the buffer and the document are empty, and a block is built with a well-formed configuration. -/
theorem resetStateIsGood : Obligations.ResetStateIsGood := by
  refine ⟨⟨reset_fb_wf, rfl, fun d hd => ?_⟩, State.reset_cfg_wellFormed⟩
  cases hd
  exact docWf_nil

end Sys2Proof.Machine
end

section
/-! PROOFS. The frame buffer (20_memory.md): what `FBSet` does at each offset, and that no instruction accesses the buffer
where it has no value or no room. -/

namespace Sys2Proof.Machine

/-! ### `FBSet` where it stops -/

theorem set_zero (fb : FrameBuffer) (v : Byte) : fb.set 0 v = .error (.fault .noSuchOffset) := rfl

theorem set_of_gap {fb : FrameBuffer} {off : Nat} (v : Byte) (h : fb.len + 1 < off) : fb.set off v = refuse .gap := by
  simp [FrameBuffer.set, h, Nat.ne_zero_of_lt h]

theorem set_of_overflow {fb : FrameBuffer} {off : Nat} (v : Byte) (h : Config.fbMax < off) (h1 : off ≤ fb.len + 1) :
    fb.set off v = refuse .overflow := by
  simp [FrameBuffer.set, h, Nat.ne_zero_of_lt h, Nat.not_lt.mpr h1]

/-! ### Operations that access the buffer within its bounds -/

/-- The stops that only an access to the frame buffer can make (20_memory.md R33; log 17). -/
def Stop.ofBuffer : Stop → Bool
  | .fault _ => true
  | .refusal r => r == .gap || r == .overflow

/-- The operation accesses the frame buffer only at offsets that exist: if it stops, it stops for another reason. -/
def InBounds {α : Type} (x : Except Stop α) : Prop := ∀ e, x = .error e → e.ofBuffer = false

theorem safe_next (s : State) : Safe (.next s) := by simp [Safe]

theorem safe_outcome {e : Stop} (h : e.ofBuffer = false) : Safe e.outcome := by
  cases e with
  | fault f => cases h
  | refusal r => simpa [Stop.ofBuffer, Stop.outcome, Safe] using h

theorem safe_runOp {x : Except Stop State} (h : InBounds x) : Safe (runOp x) := by
  cases x with
  | ok s => exact safe_next s
  | error e => exact safe_outcome (h e rfl)

section
variable {α β : Type}

theorem InBounds.ok (a : α) : InBounds (.ok a) := fun _ h => nomatch h

theorem InBounds.refuse {r : Refusal} (h : (Stop.refusal r).ofBuffer = false) : InBounds (refuse r : Except Stop α) := by
  rintro _ ⟨⟩
  exact h

theorem InBounds.bind {x : Except Stop α} {f : α → Except Stop β} (h : InBounds x)
    (hf : ∀ a, x = .ok a → InBounds (f a)) : InBounds (x >>= f) := by
  cases x with
  | ok a => exact hf a rfl
  | error e => rintro _ ⟨⟩; exact h e rfl

theorem operand_inBounds (latch : Option α) : InBounds (operand latch) := by
  cases latch with
  | none => exact .refuse rfl
  | some a => exact .ok a

end

/-- A step that is in bounds on every frame with room may follow one that leaves such a frame. -/
theorem InBounds.bind_fills {β : Type} {r : Except Stop FrameBuffer} {g : FrameBuffer → Except Stop β} (h : InBounds r)
    (hr : FillsFrame r)
    (hg : ∀ F : List Byte, 12 ≤ F.length → F.length ≤ 255 → InBounds (g (.ofSeq F))) : InBounds (r >>= g) :=
  .bind h fun fb hfb => by
    obtain ⟨F, rfl, h0, h1⟩ := hr fb hfb
    exact hg F h0 h1

/-! ### The operations without a frame -/

theorem checkLength_inBounds (S : List Byte) : InBounds (checkLength S) := by
  unfold checkLength
  split
  · exact .refuse rfl
  · exact .ok _

theorem readSeq_inBounds (s : State) : InBounds s.readSeq := by
  unfold State.readSeq
  cases s.aSeq with
  | none => exact .refuse rfl
  | some S => exact checkLength_inBounds S

theorem checkConfig_inBounds (cfg : Config) : InBounds (checkConfig cfg) := by
  unfold checkConfig
  split
  · exact .ok _
  · exact .refuse rfl

theorem hexToBytes_inBounds (T : Str) : InBounds (hexToBytes T) := by
  induction T using hexToBytes.induct with
  | case1 hi lo rest h l hl hh ih =>
    rw [hexToBytes_pair rest hh hl]
    exact .bind ih fun _ _ => .ok _
  | case2 hi lo rest hne =>
    unfold hexToBytes
    split
    · exact absurd ‹_› (hne _ _ ‹_›)
    · exact .refuse rfl
  | case3 T hT =>
    unfold hexToBytes
    split
    · exact absurd rfl (hT _ _ _)
    · exact .ok _

theorem hexOperandBytes_inBounds (cfg : Config) (a : Option Str) : InBounds (hexOperandBytes cfg a) := by
  cases a with
  | none => exact .ok _
  | some T => exact hexToBytes_inBounds T

theorem cksumIndexed_inBounds (S : List Byte) (a b : Int) : InBounds (cksumIndexed S a b) := by
  unfold cksumIndexed
  split
  · exact .ok _
  · split
    · exact .refuse rfl
    · exact .ok _

theorem clampValue_inBounds (s : State) (valid : Bool) : InBounds (s.clampValue valid) := by
  cases valid with
  | false => exact .ok 0
  | true => exact operand_inBounds s.aVal

theorem execHex2bytes_safe (s : State) : Safe (execHex2bytes s) :=
  safe_runOp <| .bind (operand_inBounds _) fun a _ => .bind (hexOperandBytes_inBounds s.cfg a) fun _ _ => .ok _

theorem execBytes2hex_safe (s : State) : Safe (execBytes2hex s) :=
  safe_runOp <| .bind (readSeq_inBounds s) fun _ _ => .ok _

theorem execBytes2raw_safe (s : State) : Safe (execBytes2raw s) :=
  safe_runOp <| .bind (readSeq_inBounds s) fun _ _ => .ok _

theorem execRaw2bytes_safe (s : State) : Safe (execRaw2bytes s) :=
  safe_runOp <| .bind (operand_inBounds _) fun _ _ => .ok _

theorem execCksum_safe (s : State) : Safe (execCksum s) :=
  safe_runOp <| .bind (operand_inBounds _) fun _ _ => .bind (operand_inBounds _) fun a _ =>
    .bind (operand_inBounds _) fun b _ => .bind (checkLength_inBounds _) fun S _ =>
    .bind (cksumIndexed_inBounds S a b) fun _ _ => .ok _

theorem execClamp_safe (s : State) : Safe (execClamp s) :=
  safe_runOp <| .bind (operand_inBounds _) fun valid _ => .bind (clampValue_inBounds s valid) fun _ _ =>
    .bind (operand_inBounds _) fun _ _ => .bind (operand_inBounds _) fun _ _ => .ok _

theorem extract_safe (s : State) (parse : Config → List Byte → Doc) : Safe (extract s parse) :=
  safe_runOp <| .bind (readSeq_inBounds s) fun _ _ => .bind (checkConfig_inBounds _) fun _ _ => .ok _

theorem decodeReport_inBounds (s : State) : InBounds (decodeReport s) :=
  .bind (operand_inBounds _) fun data _ => by
    cases data with
    | none => exact .ok _
    | some T =>
      exact .bind (hexToBytes_inBounds T) fun S _ => .bind (checkLength_inBounds S) fun _ _ =>
        .bind (checkConfig_inBounds _) fun _ _ => .ok _

theorem execDecode_safe (s : State) : Safe (execDecode s) :=
  safe_runOp <| .bind (operand_inBounds _) fun ok _ => by
    cases ok with
    | false => exact .ok _
    | true => exact decodeReport_inBounds s

/-! ### The branches of ASSEMBLE -/

theorem queryBody_inBounds (sub : Byte) : InBounds (queryBody sub (.ofSeq Config.hdr)) :=
  InBounds.ok (FrameBuffer.ofSeq (Config.hdr ++ [Config.cmdQuery, sub, Config.queryFlag]))

theorem powerBody_inBounds {F : List Byte} (bytes : Byte × Byte) (hF : F.length = 10) :
    InBounds (powerBody bytes (.ofSeq F)) := by
  rw [powerBody_eq bytes hF]
  exact .ok _

section
variable {cfg : Config} (h : cfg.wellFormed = true) (rq : Request) {F : List Byte}
include h

theorem partBody_inBounds (hF : F.length = 10) : InBounds (partBody cfg rq (.ofSeq F)) := by
  rcases partBody_cases h rq hF with ⟨_, F', h', _⟩ | ⟨_, h'⟩
  · exact h' ▸ .ok _
  · exact h' ▸ .refuse rfl

theorem fullBody_inBounds (hF : F.length = 10) : InBounds (fullBody cfg rq (.ofSeq F)) := by
  rcases fullBody_cases h rq hF with ⟨_, F', h', _⟩ | ⟨_, h'⟩
  · exact h' ▸ .ok _
  · exact h' ▸ .refuse rfl

theorem baseBody_inBounds (hF : F.length = 10) : InBounds (baseBody cfg rq (.ofSeq F)) := by
  rcases baseBody_cases h rq hF with ⟨_, F', h', _⟩ | ⟨_, h'⟩
  · exact h' ▸ .ok _
  · exact h' ▸ .refuse rfl

end

section
variable (rq : Request) (i : Fin 3) {F : List Byte} (h0 : 12 ≤ F.length) (h1 : F.length ≤ 255)
include h0 h1

theorem apptIfPresent_inBounds : InBounds (apptIfPresent rq i (.ofSeq F)) := by
  rcases apptIfPresent_cases rq i h0 h1 with ⟨_, F', h', _⟩ | ⟨_, r, hr, h'⟩
  · exact h' ▸ .ok _
  · rcases hr with rfl | rfl | rfl <;> exact h' ▸ .refuse rfl

/-- The overlay of an absent field is refused for its value; of a present one it is `apptIfPresent`. -/
theorem apptOverlay_inBounds : InBounds (apptOverlay rq i (.ofSeq F)) := by
  cases hv : (rq.controlField (slotName i)).isSome with
  | false =>
    have hnone : rq.controlField (slotName i) = none := by simpa using hv
    rw [apptOverlay, hnone]
    exact .refuse (r := .apptValue) rfl
  | true => simpa [apptIfPresent, hv] using apptIfPresent_inBounds rq i h0 h1

end

theorem applyIf_inBounds {c : Bool} {g : FrameBuffer → Except Stop FrameBuffer} {fb : FrameBuffer}
    (hg : InBounds (g fb)) : InBounds (applyIf c g fb) := by
  cases c with
  | false => exact .ok fb
  | true => exact hg

theorem apptBody_inBounds {cfg : Config} (h : cfg.wellFormed = true) (i : Fin 3) (rq : Request) {F : List Byte}
    (hF : F.length = 10) : InBounds (apptBody i cfg rq (.ofSeq F)) :=
  .bind_fills (baseBody_inBounds h rq hF) (baseBody_fills h rq hF) fun _ a0 a1 =>
  .bind_fills (applyIf_inBounds (apptIfPresent_inBounds rq 0 a0 a1))
    (applyIf_fills a0 a1 (apptIfPresent_fills rq 0 a0 a1)) fun _ b0 b1 =>
  .bind_fills (applyIf_inBounds (apptIfPresent_inBounds rq 1 b0 b1))
    (applyIf_fills b0 b1 (apptIfPresent_fills rq 1 b0 b1)) fun _ c0 c1 => apptOverlay_inBounds rq i c0 c1

/-! ### The frames -/

/-- A branch that leaves room for the checksum leaves the final step in bounds (44_assembler.md R160). -/
theorem buildFrame_inBounds {branch : FrameBuffer → Except Stop FrameBuffer}
    (h : InBounds (branch (.ofSeq Config.hdr))) (hf : FillsFrame (branch (.ofSeq Config.hdr))) :
    InBounds (buildFrame branch) := by
  rw [buildFrame, startFrame_eq, bind_ok]
  refine .bind_fills h hf fun F h0 h1 => ?_
  rw [finalizeFrame_eq (by omega) h1]
  exact .ok _

theorem controlFrame_inBounds {cfg : Config} (h : cfg.wellFormed = true) (rq : Request) :
    InBounds (buildFrame (controlBody cfg rq)) := by
  rcases controlFrame_cases h rq with ⟨_, F, h', _⟩ | ⟨_, r, hr, h'⟩
  · exact h' ▸ .ok _
  · rcases hr with rfl | rfl | rfl | rfl <;> exact h' ▸ .refuse rfl

theorem assembleFrame_inBounds {cfg : Config} (h : cfg.wellFormed = true) (rq : Request) :
    InBounds (assembleFrame cfg rq) := by
  unfold assembleFrame
  split
  · exact .bind (buildFrame_inBounds (queryBody_inBounds _) (queryBody_fills _)) fun _ _ => .ok _
  · exact .bind (controlFrame_inBounds h rq) fun _ _ => .ok _
  · exact .ok _

/-- ASSEMBLE and ENCODE read the request, check the configuration and make the frame; what they do with it is `use`. -/
theorem assembleThen_inBounds {s : State} {use : Option FrameBuffer → Except Stop State}
    (hu : ∀ frame, InBounds (use frame)) :
    InBounds (do let rq ← operand s.rq; checkConfig s.cfg; let frame ← assembleFrame s.cfg rq; use frame) :=
  .bind (operand_inBounds _) fun rq _ => .bind (checkConfig_inBounds _) fun _ hok =>
    .bind (assembleFrame_inBounds (checkConfig_eq_ok.mp hok) rq) fun frame _ => hu frame

theorem execAssemble_safe (s : State) : Safe (execAssemble s) :=
  safe_runOp <| assembleThen_inBounds fun frame => by
    cases frame with
    | none => exact .ok _
    | some fb => exact .ok _

theorem encodeRequest_inBounds (s : State) : InBounds (encodeRequest s) :=
  assembleThen_inBounds fun frame => by
    cases frame with
    | none => exact .ok _
    | some fb => exact .ok _

theorem execEncode_safe (s : State) : Safe (execEncode s) :=
  safe_runOp <| .bind (operand_inBounds _) fun ok _ => by
    cases ok with
    | false => exact .ok _
    | true => exact encodeRequest_inBounds s

/-- A frame shape of which the branch is in bounds and leaves room for the checksum on a well-formed configuration. -/
theorem emitFrame_safe {s : State} {branch : FrameBuffer → Except Stop FrameBuffer}
    (hb : s.cfg.wellFormed = true → InBounds (branch (.ofSeq Config.hdr)))
    (hf : s.cfg.wellFormed = true → FillsFrame (branch (.ofSeq Config.hdr))) : Safe (emitFrame s branch) :=
  safe_runOp <| .bind (checkConfig_inBounds _) fun _ hok =>
    have hcfg := checkConfig_eq_ok.mp hok
    .bind (buildFrame_inBounds (hb hcfg) (hf hcfg)) fun _ _ => .ok _

theorem emitPower_safe (s : State) (bytes : Byte × Byte) : Safe (emitFrame s (controlThen (powerBody bytes))) :=
  emitFrame_safe (fun _ => controlThen_eq (powerBody bytes) ▸ powerBody_inBounds bytes rfl)
    fun _ => controlThen_eq (powerBody bytes) ▸ powerBody_fills bytes rfl

theorem emitControl_safe {s : State} {body : Config → Request → FrameBuffer → Except Stop FrameBuffer}
    (hb : ∀ {cfg : Config}, cfg.wellFormed = true → ∀ (rq : Request) {F : List Byte}, F.length = 10 →
      InBounds (body cfg rq (.ofSeq F)))
    (hf : ∀ {cfg : Config}, cfg.wellFormed = true → ∀ (rq : Request) {F : List Byte}, F.length = 10 →
      FillsFrame (body cfg rq (.ofSeq F))) :
    Safe (emitControl s body) := by
  unfold emitControl
  cases hrq : operand s.rq with
  | error e => exact safe_outcome (operand_inBounds _ e hrq)
  | ok rq =>
    exact emitFrame_safe (fun h => controlThen_eq (body s.cfg rq) ▸ hb h rq rfl)
      fun h => controlThen_eq (body s.cfg rq) ▸ hf h rq rfl

/-! ### Instructions and steps -/

theorem reservedCode_safe (s : State) : Safe (reservedCode s) := safe_outcome (e := .refusal .reservedOp) rfl

theorem exec_safe (i : Instr) (s : State) : Safe (exec i s) := by
  cases i with
  | hex2bytes => exact execHex2bytes_safe s
  | bytes2hex => exact execBytes2hex_safe s
  | bytes2raw => exact execBytes2raw_safe s
  | raw2bytes => exact execRaw2bytes_safe s
  | cksum => exact execCksum_safe s
  | clamp => exact execClamp_safe s
  | assemble => exact execAssemble_safe s
  | parse => exact extract_safe s _
  | encode => exact execEncode_safe s
  | decode => exact execDecode_safe s
  | reservedA | reservedB | reservedC | reservedD | reservedE | reservedF => exact reservedCode_safe s
  | txQueryStatus | txQueryAppoint => exact emitFrame_safe (fun _ => queryBody_inBounds _) fun _ => queryBody_fills _
  | txPowerOn | txPowerOff => exact emitPower_safe s _
  | txFull => exact emitControl_safe fullBody_inBounds fullBody_fills
  | txPart => exact emitControl_safe partBody_inBounds partBody_fills
  | txAppoint0 | txAppoint1 | txAppoint2 =>
    exact emitControl_safe (fun h => apptBody_inBounds h _) fun h => apptBody_fills h _
  | rxStatus0201 | rxStatus0202 | rxStatus0204 | rxStatus0214 | rxStatus0301 | rxStatus0401 => exact extract_safe s _
  | rxAppt0205 | rxAppt0206 | rxAppt0207 | rxAppt0302 => exact extract_safe s _

theorem step_safe (s : State) : Safe (step s) := by
  cases hop : s.op with
  | none => exact step_of_no_op hop ▸ safe_outcome (e := .refusal .unwrittenOperand) rfl
  | some c => exact step_of_op hop ▸ exec_safe _ s

/-! ### The obligations -/

/-- Settles O27: the configuration is checked before the first write, and on a well-formed one every branch of ASSEMBLE
writes inside the buffer or right after it and leaves room for the checksum. -/
theorem noInstructionFaults : Obligations.NoInstructionFaults := ⟨exec_safe, step_safe⟩

/-- Settles O29: a well-formed buffer holds a sequence of bytes, and `FBSet` replaces one of them or appends one. -/
theorem frameBufferWrite : Obligations.FrameBufferWrite := by
  intro fb off v hwf
  refine ⟨fun h0 h1 h2 => ?written, set_of_gap v, set_of_overflow v, fun h => h ▸ set_zero fb v⟩
  case written =>
    obtain ⟨F, rfl, hl⟩ := (FrameBuffer.wf_iff fb).mp hwf
    have hset := ofSeq_set v h0 h1 h2
    refine ⟨_, hset, set_wf hwf hset, putAt_length F off v, fun a => ?_⟩
    rw [ofSeq_read, ofSeq_read, memReadOpt_putAt v h0 h1]

end Sys2Proof.Machine
end

section
/-! PROOFS. The opcode table (30_encoding.md): decoding an encoded word, and the row that a step runs. -/

namespace Sys2Proof

/-! ### Decoding -/

theorem encode_lt (i : Instr) : encode i < 2 ^ i.format.width := by cases i <;> decide

theorem decode_encode (i : Instr) : decode i.format (encode i) = .ok i := by cases i <;> rfl

/-- The word of the latch OP is the latch itself. -/
theorem decode_op_toNat (c : BitVec 4) : decode .op c.toNat = .ok (decodeOp c) := by
  simp [decode]

theorem byte_eq_ofNat {b : Byte} {n : Nat} (h : b.toNat = n) : b = BitVec.ofNat 8 n := by
  rw [← h, BitVec.ofNat_toNat, BitVec.setWidth_eq]

theorem wordCmd_pair (c d : Byte) : wordCmd (c.toNat * 256 + d.toNat) = c := by
  apply BitVec.eq_of_toNat_eq
  simp only [wordCmd, BitVec.toNat_ofNat]
  omega

theorem wordSub_pair (c d : Byte) : wordSub (c.toNat * 256 + d.toNat) = d := by
  apply BitVec.eq_of_toNat_eq
  simp only [wordSub, BitVec.toNat_ofNat]
  omega

/-- The word of a pair is decoded as the pair. -/
theorem decode_f0rx_pair (c d : Byte) : decode .f0rx (c.toNat * 256 + d.toNat) = decodeRx c d := by
  simp only [decode, wordCmd_pair, wordSub_pair]

/-- The codes `0xA` to `0xF` are the reserved rows (30_encoding.md R69). -/
theorem decodeOp_reserved : ∀ c : BitVec 4, 0xA ≤ c.toNat →
    decodeOp c ∈ [Instr.reservedA, .reservedB, .reservedC, .reservedD, .reservedE, .reservedF] := by decide

namespace Machine

open Sys2Proof.Claims

/-! ### Reading a report -/

/-- The shape of an input that holds the pair at offsets 10 and 11 (45_parser.md R171). -/
theorem reportShape_of_pair {S : List Byte} {c d : Byte} (hc : memReadOpt S 10 = some c) (hd : memReadOpt S 11 = some d) :
    reportShape S = if statusPairs.contains (c, d) then .status
      else if apptPairs.contains (c, d) then .appointment else .unknown := by
  simp only [reportShape, hc, hd]

/-- Two readers answer alike when they make the same document of `A_SEQ`. -/
theorem extract_congr {s : State} {parse parse' : Config → List Byte → Doc}
    (h : ∀ S, s.aSeq = some S → parse s.cfg S = parse' s.cfg S) : extract s parse = extract s parse' := by
  unfold extract
  cases hS : s.readSeq with
  | error e => rfl
  | ok S => simp only [bind_ok, h S (readSeq_eq_ok.mp hS).1]

/-- A row that a pair decodes to reads the report in the shape that the pair has (30_encoding.md R60, R61). -/
theorem exec_of_decodeRx {c d : Byte} {i : Instr} (h : decodeRx c d = .ok i) {S : List Byte}
    (hc : memReadOpt S 10 = some c) (hd : memReadOpt S 11 = some d) (s : State) :
    exec i s = extract s (parseAs (reportShape S)) := by
  rw [reportShape_of_pair hc hd]
  unfold decodeRx at h
  split at h
  case h_11 => cases h
  all_goals
    rename_i hcmd hsub
    obtain rfl := byte_eq_ofNat hcmd
    obtain rfl := byte_eq_ofNat hsub
    cases h
    rfl

/-! ### The obligations -/

/-- Settles O1: each word is decoded. -/
theorem wordsDecodeAsTabled : Obligations.WordsDecodeAsTabled :=
  ⟨rfl, rfl, rfl, rfl, rfl, rfl, rfl, rfl, rfl, rfl⟩

/-- Settles O2. -/
theorem decodeEncodeAgree : Obligations.DecodeEncodeAgree := fun i _ => ⟨encode_lt i, decode_encode i⟩

/-- Settles O3. -/
theorem stepRunsTheSelectedOperation : Obligations.StepRunsTheSelectedOperation := by
  intro s c i hop hdec _
  obtain rfl : decodeOp c = i := Except.ok.inj ((decode_op_toNat c).symm.trans hdec)
  exact step_of_op hop

/-- Settles O4: PARSE reads `A_SEQ` in the shape of its pair, and so does the row that the pair decodes to. -/
theorem stepRunsTheReceivedFrameShape : Obligations.StepRunsTheReceivedFrameShape := by
  intro s S c d i hop hseq hc hd hdec
  rw [decode_f0rx_pair] at hdec
  calc step s = extract s parseFrame := step_of_op hop
    _ = extract s (parseAs (reportShape S)) := extract_congr fun S' hS' => by
      obtain rfl : S = S' := Option.some.inj (hseq.symm.trans hS')
      rfl
    _ = exec i s := (exec_of_decodeRx hdec hc hd s).symm

/-- Settles O7. -/
theorem reservedCodesAreRefused : Obligations.ReservedCodesAreRefused := by
  intro s
  have hrow : ∀ i ∈ [Instr.reservedA, .reservedB, .reservedC, .reservedD, .reservedE, .reservedF],
      exec i s = .refused .reservedOp := by
    intro i hi
    simp only [List.mem_cons, List.not_mem_nil, or_false] at hi
    rcases hi with rfl | rfl | rfl | rfl | rfl | rfl <;> rfl
  exact ⟨hrow, fun c hc hop => (step_of_op hop).trans (hrow _ (decodeOp_reserved c hc))⟩

end Machine

end Sys2Proof
end

section
/-! PROOFS. PARSE reads its input from offset 10 on (45_parser.md R180). -/

namespace Sys2Proof.Machine

open Sys2Proof.Claims

/-- The two inputs hold the same bytes from offset 10 on. -/
def SameFromTen (S S' : List Byte) : Prop := ∀ a, 10 ≤ a → memReadOpt S a = memReadOpt S' a

/-- Behind nine header bytes, an offset from 10 on reads the bytes that follow. -/
theorem memReadOpt_after_header {H : List Byte} (P : List Byte) (hH : H.length = 9) {a : Nat} (ha : 10 ≤ a) :
    memReadOpt (H ++ P) a = P[a - 10]? := by
  rw [memReadOpt, if_neg (by omega), List.getElem?_append_right (by omega), hH, Nat.sub_sub]

theorem sameFromTen_of_header {H H' : List Byte} (P : List Byte) (hH : H.length = 9) (hH' : H'.length = 9) :
    SameFromTen (H ++ P) (H' ++ P) := fun a ha => by
  rw [memReadOpt_after_header P hH ha, memReadOpt_after_header P hH' ha]

section
variable {S S' : List Byte} (h : SameFromTen S S')
include h

theorem readPart_congr : readPart S = readPart S' := by
  apply List.ext_getElem?
  intro n
  simpa [readPart, memReadOpt, Nat.add_comm] using h (n + 10) (by omega)

theorem reportShape_congr : reportShape S = reportShape S' := by
  simp only [reportShape, h 10 (by omega), h 11 (by omega)]

/-- A row of `DEC_STATUS` at offsets from 10 on does not read the header. -/
theorem execDecRow_congr (bothOn : Bool) {row : DecRow} (hrow : ∀ off ∈ Config.decOffsets row, 10 ≤ off) (d : Doc) :
    execDecRow bothOn S row d = execDecRow bothOn S' row d := by
  cases row with
  | flag name off mask pat vSet vClr modeName => simp only [execDecRow, h off (hrow off (by simp [Config.decOffsets]))]
  | enum name off mask patterns vFallback => simp only [execDecRow, h off (hrow off (by simp [Config.decOffsets]))]
  | num name off => simp only [execDecRow, h off (hrow off (by simp [Config.decOffsets]))]
  | heatd => rfl

theorem execDecRows_congr (bothOn : Bool) {rows : List DecRow}
    (hrows : ∀ row ∈ rows, ∀ off ∈ Config.decOffsets row, 10 ≤ off) (d : Doc) :
    execDecRows bothOn S rows d = execDecRows bothOn S' rows d := by
  induction rows generalizing d with
  | nil => rfl
  | cons row rest ih =>
    simp only [execDecRows, execDecRow_congr h bothOn (hrows row (by simp))]
    exact ih (fun r hr => hrows r (by simp [hr])) _

theorem parseRecord_congr (cfg : Config) (i : Fin 3) (d : Doc) : parseRecord cfg S i d = parseRecord cfg S' i d := by
  simp only [parseRecord, readPart_congr h, h (Config.decApptEn i) (by simp only [Config.decApptEn]; omega),
    h (Config.decApptData i) (by simp only [Config.decApptData]; omega),
    h (Config.decApptData i + 1) (by simp only [Config.decApptData]; omega),
    h (Config.decApptData i + 2) (by simp only [Config.decApptData]; omega),
    h (Config.decApptData i + 3) (by simp only [Config.decApptData]; omega)]

end

/-- The rows of a well-formed `DEC_STATUS` stand at offsets from 12 on (43_fieldmap.md R131). -/
theorem wellFormed_decOffsets {cfg : Config} (hcfg : cfg.wellFormed = true) :
    ∀ row ∈ cfg.decStatus, ∀ off ∈ Config.decOffsets row, 12 ≤ off := by
  have ho := wellFormed_offsets hcfg
  simp only [Config.offsetsOk, Bool.and_eq_true, List.all_eq_true, within_iff] at ho
  exact fun row hrow off hoff => (ho.2 row hrow off hoff).1

/-- The document of an input does not depend on the first nine bytes. -/
theorem parseFrame_congr {cfg : Config} (hcfg : cfg.wellFormed = true) {S S' : List Byte} (h : SameFromTen S S') :
    parseFrame cfg S = parseFrame cfg S' := by
  rw [parseFrame, parseFrame, reportShape_congr h]
  cases reportShape S' with
  | status =>
    simp only [parseAs, parseStatus, readPart_congr h]
    exact execDecRows_congr h _ (fun row hrow off hoff => by have := wellFormed_decOffsets hcfg row hrow off hoff; omega) _
  | appointment => simp only [parseAs, parseAppointments, parseRecord_congr h]
  | unknown => rfl

/-- Reading a report completes when the configuration is well-formed and the input is not too long. -/
theorem extract_of_seq {s : State} {S : List Byte} (hcfg : s.cfg.wellFormed = true) (hseq : s.aSeq = some S)
    (hlen : S.length ≤ 256) (parse : Config → List Byte → Doc) :
    extract s parse = .next (okWith s none none none none (some (parse s.cfg S))) := by
  have hread : s.readSeq = .ok S := readSeq_eq_ok.mpr ⟨hseq, hlen⟩
  simp only [extract, hread, bind_ok, checkConfig_of_wellFormed hcfg]
  rfl

/-- Settles O54: both inputs complete with the document that the bytes from offset 10 on make. -/
theorem headerIsNotRead : Obligations.HeaderIsNotRead := by
  intro s H H' P hcfg hH hH' hP
  have hlen : ∀ {G : List Byte}, G.length = 9 → (G ++ P).length ≤ 256 := fun hG => by
    rw [List.length_append]; omega
  refine ⟨parseFrame s.cfg (H ++ P), ?_, ?_⟩
  · exact extract_of_seq (s := { s with aSeq := some (H ++ P) }) hcfg rfl (hlen hH) parseFrame
  · rw [parseFrame_congr hcfg (sameFromTen_of_header P hH hH')]
    exact extract_of_seq (s := { s with aSeq := some (H' ++ P) }) hcfg rfl (hlen hH') parseFrame

end Sys2Proof.Machine
end

section
/-! PROOFS. The part frame and the full frame (44_assembler.md R147, R148): a header, a subtype byte, and a window that
starts as zeros and that the rows of the table write. -/

namespace Sys2Proof.Machine

open Sys2Proof.Claims

/-! ### Control frames -/

/-- The bytes of every control frame before its shape's own: header and command (44_assembler.md R140, R143). -/
def controlStart : List Byte := Config.hdr ++ [Config.cmdControl]

theorem ofSeq_inj {F G : List Byte} (h : FrameBuffer.ofSeq F = FrameBuffer.ofSeq G) : F = G := by
  rw [← ofSeq_seq F, h, ofSeq_seq]

/-- A finished frame over the first ten bytes of a control frame has the header of its length and the control command. -/
theorem headerOf_finished {F : List Byte} (h0 : 10 ≤ F.length)
    (hF : ∀ a, a ≤ 10 → memReadOpt F a = memReadOpt controlStart a) :
    headerOf (finished F) F.length ∧ memReadOpt (finished F) 10 = some 0x02 := by
  have hread : ∀ a, a ≤ 10 → a ≠ 2 → memReadOpt (finished F) a = memReadOpt controlStart a := fun a ha h2 => by
    rw [memReadOpt_finished a (by omega), if_neg h2, hF a ha]
  refine ⟨⟨finished_length F, hread 1 (by omega) (by omega), ?_, hread 3 (by omega) (by omega), fun a h4 h9 => ?_⟩,
    hread 10 (by omega) (by omega)⟩
  · rw [memReadOpt_finished 2 (by omega), if_pos rfl]
  · rw [hread a (by omega) (by omega)]
    interval_cases a <;> rfl

/-- What a control shape builds: its body runs on the ten bytes, then the final step. -/
theorem buildFrame_controlThen {body : FrameBuffer → Except Stop FrameBuffer} {F : List Byte}
    (h : body (.ofSeq controlStart) = .ok (.ofSeq F)) (h0 : 12 ≤ F.length) (h1 : F.length ≤ 255) :
    buildFrame (controlThen body) = .ok (.ofSeq (finished F)) := by
  rw [controlStart] at h
  simp only [buildFrame, startFrame_eq, bind_ok, controlThen_eq, h, finalizeFrame_eq (F := F) (by omega) h1]

section
variable {s : State} {rq : Request} (hs : s.cfg.wellFormed = true) (hrq : s.rq = some rq)
include hrq

theorem emitControl_of_rq (body : Config → Request → FrameBuffer → Except Stop FrameBuffer) :
    emitControl s body = emitFrame s (controlThen (body s.cfg rq)) := by
  simp only [emitControl, hrq, operand_some]

include hs

/-- A control shape whose body answers completes with its finished frame. -/
theorem emitControl_of_ok {body : Config → Request → FrameBuffer → Except Stop FrameBuffer} {F : List Byte}
    (h : body s.cfg rq (.ofSeq controlStart) = .ok (.ofSeq F)) (h0 : 12 ≤ F.length) (h1 : F.length ≤ 255) :
    emitControl s body = .next (frameOf s (finished F)) := by
  rw [emitControl_of_rq hrq]
  exact emitFrame_of_build hs (buildFrame_controlThen h h0 h1)

/-- A control shape whose body is refused is refused. -/
theorem emitControl_of_refuse {body : Config → Request → FrameBuffer → Except Stop FrameBuffer} {r : Refusal}
    (h : body s.cfg rq (.ofSeq controlStart) = refuse r) : emitControl s body = .refused r := by
  rw [controlStart] at h
  rw [emitControl_of_rq hrq]
  simp only [emitFrame, checkConfig_of_wellFormed hs, buildFrame, startFrame_eq, bind_ok, controlThen_eq, h, bind_refuse,
    runOp_refuse]

end

/-! ### The window of the part and the full shape -/

/-- The bytes before the rows of a table: header, command, subtype, and a zero window up to offset `hi`. -/
def windowStart (sub : Byte) (hi : Nat) : List Byte := controlStart ++ [sub] ++ List.replicate (hi - 11) 0x00

theorem fullStart_eq (cfg : Config) : fullStart cfg = windowStart Config.subFull cfg.fullHi := rfl

theorem windowStart_length (sub : Byte) {hi : Nat} (h : 12 ≤ hi) : (windowStart sub hi).length = hi := by
  simp [windowStart, controlStart, Config.hdr]; omega

theorem windowStart_start (sub : Byte) (hi : Nat) {a : Nat} (ha : a ≤ 10) :
    memReadOpt (windowStart sub hi) a = memReadOpt controlStart a := by
  rw [windowStart, List.append_assoc]
  exact memReadOpt_append_left ha

theorem windowStart_sub (sub : Byte) (hi : Nat) : memReadOpt (windowStart sub hi) 11 = some sub := by
  rw [windowStart, memReadOpt_append_left (by simp [controlStart, Config.hdr])]
  rfl

theorem windowStart_zero (sub : Byte) {hi a : Nat} (h0 : 12 ≤ a) (h1 : a ≤ hi) :
    memReadOpt (windowStart sub hi) a = some 0x00 := by
  have hl : (controlStart ++ [sub]).length = 11 := rfl
  rw [memReadOpt, if_neg (by omega), windowStart, List.getElem?_append_right (by omega), hl, List.getElem?_replicate,
    if_pos (by omega)]

/-- A frame whose rows wrote in the window only has the layout of its shape. -/
theorem windowFrame_layout {sub : Byte} {hi : Nat} {F : List Byte} (hhi : 12 ≤ hi) (hl : F.length = hi)
    (hF : ∀ a, a < 12 → memReadOpt F a = memReadOpt (windowStart sub hi) a) :
    headerOf (finished F) hi ∧ memReadOpt (finished F) 10 = some 0x02 ∧ memReadOpt (finished F) 11 = some sub := by
  obtain ⟨hhead, h10⟩ := headerOf_finished (F := F) (by omega) fun a ha =>
    (hF a (by omega)).trans (windowStart_start sub hi ha)
  refine ⟨hl ▸ hhead, h10, ?_⟩
  rw [memReadOpt_finished 11 (by omega), if_neg (by omega), hF 11 (by omega), windowStart_sub]

/-- In the window, a finished frame reads as its rows left it. -/
theorem memReadOpt_finished_window {F : List Byte} {a : Nat} (h0 : 12 ≤ a) (h1 : a ≤ F.length) :
    memReadOpt (finished F) a = memReadOpt F a := by
  rw [memReadOpt_finished a h1, if_neg (by omega)]

/-! ### The part frame -/

/-- The part branch is the entries of `ENC_PART` on the zero window (44_assembler.md R147). -/
theorem partBody_eq {cfg : Config} (h : cfg.wellFormed = true) (rq : Request) :
    partBody cfg rq (.ofSeq controlStart)
      = execPart rq cfg.encPart (.ofSeq (windowStart Config.subPart cfg.partHi)) := by
  have hw := wellFormed_windows h
  have hwin := window_holds (F := controlStart) (hi := cfg.partHi) Config.subPart rfl (by omega) (by omega)
  obtain ⟨fb, hset, hclear⟩ := bind_eq_ok.mp hwin
  simp only [partBody, hset, bind_ok, hclear, windowStart]

/-- TX_PART is the entries of `ENC_PART` on the zero window, then the final step (44_assembler.md R147, R160). -/
theorem execTxPart_eq {s : State} {rq : Request} (hs : s.cfg.wellFormed = true) (hrq : s.rq = some rq) {F : List Byte}
    (hl : F.length = s.cfg.partHi)
    (he : execPart rq s.cfg.encPart (.ofSeq (windowStart Config.subPart s.cfg.partHi)) = .ok (.ofSeq F)) :
    exec .txPart s = .next (frameOf s (finished F)) := by
  have hw := wellFormed_windows hs
  exact emitControl_of_ok hs hrq ((partBody_eq hs rq).trans he) (by omega) (by omega)

/-- Without a present field no entry of `ENC_PART` is executed. -/
theorem execPart_of_absent {rq : Request} {entries : List PartEntry}
    (h : ∀ e ∈ entries, rq.controlField e.name = none) (fb : FrameBuffer) : execPart rq entries fb = .ok fb := by
  induction entries with
  | nil => rfl
  | cons e rest ih =>
    rw [execPart, h e (by simp)]
    exact ih fun e' he' => h e' (by simp [he'])

/-- Every write of an `ENC_PART` entry stands in the window (43_fieldmap.md R131). -/
theorem partWrites_ge {cfg : Config} (h : cfg.wellFormed = true) :
    ∀ e ∈ cfg.encPart, ∀ w ∈ e.writes, 12 ≤ w.1 := by
  have ho := wellFormed_offsets h
  simp only [Config.offsetsOk, Bool.and_eq_true, List.all_eq_true, within_iff] at ho
  obtain ⟨⟨-, hpart⟩, -⟩ := ho
  exact fun e he w hw => ((hpart e he).2 w hw).1

/-- What the entries of `ENC_PART` leave when the copied number fits: a window of the same size, with nothing before it
changed. -/
theorem execPart_of_fits {cfg : Config} (h : cfg.wellFormed = true) {rq : Request} (hf : partFits cfg rq = true) :
    ∃ F, execPart rq cfg.encPart (.ofSeq (windowStart Config.subPart cfg.partHi)) = .ok (.ofSeq F)
      ∧ F.length = cfg.partHi
      ∧ ∀ a, a < 12 → memReadOpt F a = memReadOpt (windowStart Config.subPart cfg.partHi) a := by
  obtain ⟨-, -, hhi, -⟩ := wellFormed_windows h
  have hl := windowStart_length Config.subPart hhi
  rcases execPart_cases rq cfg.encPart (wellFormed_partInside h hl) with ⟨_, F, hF, hFl, hkeep⟩ | ⟨hn, _⟩
  · refine ⟨F, hF, hFl.trans hl, fun a ha => hkeep a ?_⟩
    rintro ⟨e, he, w, hw, rfl⟩
    have := partWrites_ge h e he w hw
    omega
  · cases hf.symm.trans hn

/-- Settles O35: the entries write in the window only, and none is executed when no field is present. -/
theorem partFrame : Obligations.PartFrame := by
  intro s r hs hrq hf
  obtain ⟨-, -, hhi, -⟩ := wellFormed_windows hs
  obtain ⟨F, hF, hl, hlow⟩ := execPart_of_fits hs hf
  obtain ⟨hhead, h10, h11⟩ := windowFrame_layout hhi hl hlow
  refine ⟨finished F, execTxPart_eq hs hrq hl hF, hhead, h10, h11, fun habs a h0 h1 => ?_⟩
  obtain rfl : windowStart Config.subPart s.cfg.partHi = F :=
    ofSeq_inj (Except.ok.inj ((execPart_of_absent habs _).symm.trans hF))
  rw [memReadOpt_finished_window h0 (by omega), windowStart_zero _ h0 h1]

/-! ### The full frame -/

/-- What the rows of `ENC_FULL` leave when every number fits: a window of the same size, nothing before it changed, and the
bytes that the rows keep still zero. -/
theorem execEncRows_of_fits {cfg : Config} (h : cfg.wellFormed = true) {rq : Request} (hf : fullFits cfg rq = true) :
    ∃ F, execEncRows cfg.encFull rq cfg.encFull (.ofSeq (fullStart cfg)) = .ok (.ofSeq F) ∧ F.length = cfg.fullHi
      ∧ (∀ a, a < 12 → memReadOpt F a = memReadOpt (fullStart cfg) a)
      ∧ ∀ a, rowsKeep cfg.encFull cfg.encFull rq a 0xFF = true → memReadOpt F a = memReadOpt (fullStart cfg) a := by
  have hl := fullStart_length h
  have hin := wellFormed_rowInside h hl
  have htab := wellFormed_tableInside h hl
  rcases execEncRows_cases cfg.encFull rq cfg.encFull hin htab with ⟨_, F, hF, hFl, hkeep⟩ | ⟨hn, _⟩
  · refine ⟨F, hF, hFl.trans hl, fun a ha => hkeep a ?_, fun a hk => ?_⟩
    · rintro ⟨row, hrow, hw⟩
      have := rowWrites_ge h row hrow a hw
      omega
    · obtain ⟨F', hF', -, hbits⟩ := execEncRows_keeps cfg.encFull rq cfg.encFull hin htab hf hk
      obtain rfl : F' = F := ofSeq_inj (Except.ok.inj (hF'.symm.trans hF))
      simpa only [bitsAt_full] using hbits
  · cases hf.symm.trans hn

/-- A row of `ENC_FULL` leaves everything alone when no field is present in either section (44_assembler.md R162). -/
theorem rowKeeps_of_absent {rq : Request} (h : ∀ name, rq.controlField name = none ∧ rq.statusField name = none)
    (rows : List EncRow) (off : Nat) (mask : Byte) (row : EncRow) : rowKeeps rows rq off mask row = true := by
  cases row with
  | bool name o m => simp [rowKeeps, h name, boolIsSet, isOn]
  | mode regions table => simp [rowKeeps, h (ascii "mode")]
  | heat ho hm wo wm => simp [rowKeeps, h (ascii "heat")]
  | numf name o fallback clearsMode => simp [rowKeeps, h name]

/-- Settles O38: the rows write in the window only, at the offsets that `rowsKeep` does not exclude, and nowhere when no field
is present. -/
theorem fullFrame : Obligations.FullFrame := by
  intro s r hs hrq hf
  obtain ⟨hhi, -⟩ := wellFormed_windows hs
  obtain ⟨F, hF, hl, hlow, hkeep⟩ := execEncRows_of_fits hs hf
  obtain ⟨hhead, h10, h11⟩ := windowFrame_layout (by omega) hl hlow
  have hzero : ∀ a, 12 ≤ a → a ≤ s.cfg.fullHi → rowsKeep s.cfg.encFull s.cfg.encFull r a 0xFF = true →
      memReadOpt (finished F) a = some 0x00 := fun a h0 h1 hk => by
    rw [memReadOpt_finished_window h0 (by omega), hkeep a hk, fullStart_reads h0 h1]
  refine ⟨finished F, ?_, hhead, h10, h11, hzero, fun habs a h0 h1 => hzero a h0 h1 ?_⟩
  · rw [← completeFrame_ofSeq]
    exact execTxFull_eq hs hrq hl hF
  · exact List.all_eq_true.mpr fun row _ => rowKeeps_of_absent habs s.cfg.encFull a 0xFF row

end Sys2Proof.Machine
end

section
/-! PROOFS. Decimal numerals and the text of an appointment value (30_encoding.md R67, 44_assembler.md R155). -/

namespace Sys2Proof

/-! ### Decimal numerals -/

/-- A character that is a decimal digit. -/
def IsDigit (c : Byte) : Prop := 0x30 ≤ c.toNat ∧ c.toNat ≤ 0x39

/-- The digits on top of the value read so far. -/
def digitsFrom (acc : Nat) (t : Str) : Nat := t.foldl (fun acc c => 10 * acc + (c.toNat - 0x30)) acc

theorem digitVal_eq_some {c : Byte} {d : Nat} : digitVal c = some d ↔ IsDigit c ∧ d = c.toNat - 0x30 := by
  unfold digitVal IsDigit
  split <;> simp_all [eq_comm]

theorem numeralFrom_eq_some {t : Str} {acc n : Nat} :
    numeralFrom acc t = some n ↔ (∀ c ∈ t, IsDigit c) ∧ n = digitsFrom acc t := by
  induction t generalizing acc with
  | nil => simp [numeralFrom, digitsFrom, eq_comm]
  | cons c rest ih =>
    rw [numeralFrom]
    cases hd : digitVal c with
    | none =>
      have hc : ¬ IsDigit c := fun hc => by
        have := digitVal_eq_some.mpr ⟨hc, rfl⟩
        simp [hd] at this
      simp [hc]
    | some d =>
      obtain ⟨hc, rfl⟩ := digitVal_eq_some.mp hd
      simp [ih, hc, digitsFrom]

/-- What a numeral is: digits, at least one, with no leading zero. -/
theorem numeral_eq_some {t : Str} {n : Nat} :
    numeral t = some n ↔
      t ≠ [] ∧ (∀ c ∈ t, IsDigit c) ∧ (t.head? = some 0x30 → t.length = 1) ∧ n = digitsFrom 0 t := by
  match t with
  | [] => simp [numeral]
  | [c] => simp [numeral, digitVal_eq_some, digitsFrom]
  | c :: c' :: rest =>
    by_cases hc : c = 0x30
    · simp [numeral, hc]
    · simp only [numeral, hc, numeralFrom_eq_some, if_false]
      exact ⟨fun ⟨hd, hn⟩ => ⟨by simp, hd, fun h0 => absurd (Option.some.inj h0) hc, hn⟩,
        fun ⟨_, hd, _, hn⟩ => ⟨hd, hn⟩⟩

/-- The values of the characters of a numeral, most significant first. -/
def digitValues (t : Str) : List Nat := t.map fun c => c.toNat - 0x30

theorem digitsFrom_zero (t : Str) : digitsFrom 0 t = Nat.ofDigits 10 (digitValues t).reverse := by
  rw [Nat.ofDigits_eq_foldr, List.foldr_reverse, digitValues, List.foldl_map, digitsFrom]
  simp [Nat.add_comm]

theorem digitValues_lt {t : Str} (hd : ∀ c ∈ t, IsDigit c) : ∀ v ∈ digitValues t, v < 10 := by
  intro v hv
  obtain ⟨c, hc, rfl⟩ := List.mem_map.mp hv
  obtain ⟨_, hle⟩ := hd c hc
  omega

/-- Digits without a leading zero have a most significant digit that is not zero. -/
theorem digitValues_getLast_ne_zero {t : Str} (hd : ∀ c ∈ t, IsDigit c) (h0 : t.head? ≠ some 0x30)
    (h : (digitValues t).reverse ≠ []) : (digitValues t).reverse.getLast h ≠ 0 := by
  cases t with
  | nil => simp [digitValues] at h
  | cons c rest =>
    obtain ⟨hge, _⟩ := hd c (by simp)
    have hne : c.toNat ≠ 0x30 := fun e => h0 (by simpa using BitVec.eq_of_toNat_eq e)
    simp only [digitValues, List.map_cons, List.reverse_cons, List.getLast_append_singleton]
    omega

theorem map_digitChar_digitValues {t : Str} (hd : ∀ c ∈ t, IsDigit c) : (digitValues t).map digitChar = t := by
  rw [digitValues, List.map_map]
  refine (List.map_congr_left fun c hc => ?_).trans (List.map_id t)
  obtain ⟨hge, _⟩ := hd c hc
  apply BitVec.eq_of_toNat_eq
  simp only [digitChar, Function.comp_apply, id_eq, BitVec.toNat_ofNat]
  omega

/-- Digits without a leading zero are the decimal digits of their value. -/
theorem eq_digits {t : Str} (hd : ∀ c ∈ t, IsDigit c) (h0 : t.head? ≠ some 0x30) :
    t = ((Nat.digits 10 (digitsFrom 0 t)).reverse).map digitChar := by
  have hlt : ∀ v ∈ (digitValues t).reverse, v < 10 := fun v hv => digitValues_lt hd v (List.mem_reverse.mp hv)
  rw [digitsFrom_zero, Nat.digits_ofDigits 10 (by omega) _ hlt (digitValues_getLast_ne_zero hd h0), List.reverse_reverse,
    map_digitChar_digitValues hd]

/-- A numeral is "0", or the decimal digits of a number that is not 0. -/
theorem numeral_cases {t : Str} {n : Nat} (h : numeral t = some n) :
    (n = 0 ∧ t = [0x30]) ∨ (n ≠ 0 ∧ t = ((Nat.digits 10 n).reverse).map digitChar) := by
  obtain ⟨hne, hd, hlead, rfl⟩ := numeral_eq_some.mp h
  by_cases h0 : t.head? = some 0x30
  · obtain ⟨c, rfl⟩ := List.length_eq_one_iff.mp (hlead h0)
    obtain rfl : c = 0x30 := by simpa using h0
    exact .inl ⟨rfl, rfl⟩
  · have ht := eq_digits hd h0
    refine .inr ⟨fun hz => hne ?_, ht⟩
    rw [ht, hz]
    rfl

/-- A numeral is settled by the number that it denotes. -/
theorem numeral_injective {t u : Str} {n : Nat} (ht : numeral t = some n) (hu : numeral u = some n) : t = u := by
  rcases numeral_cases ht with ⟨h0, rfl⟩ | ⟨h0, rfl⟩ <;> rcases numeral_cases hu with ⟨h0', rfl⟩ | ⟨h0', rfl⟩
  · rfl
  · exact absurd h0 h0'
  · exact absurd h0' h0
  · rfl

/-! ### The fields of a text -/

theorem splitComma_of_not_mem {f : Str} (h : comma ∉ f) : splitComma f = [f] := by
  induction f with
  | nil => rfl
  | cons c rest ih =>
    rw [List.mem_cons, not_or] at h
    simp only [splitComma, Ne.symm h.1, if_false, ih h.2]

/-- A text is split at its first comma. -/
theorem splitComma_append {f : Str} (h : comma ∉ f) (rest : Str) :
    splitComma (f ++ comma :: rest) = f :: splitComma rest := by
  induction f with
  | nil => simp [splitComma]
  | cons c f ih =>
    rw [List.mem_cons, not_or] at h
    simp only [List.cons_append, splitComma, Ne.symm h.1, if_false, ih h.2]

namespace Machine

open Sys2Proof.Claims

/-- The text of an appointment value is split into the fields that it was made of. -/
theorem splitComma_apptText {first : Str} {fields : List Str} (h : comma ∉ first) (hs : ∀ f ∈ fields, comma ∉ f) :
    splitComma (apptText first fields) = first :: fields := by
  induction fields generalizing first with
  | nil => rw [apptText, List.flatMap_nil, List.append_nil, splitComma_of_not_mem h]
  | cons g gs ih =>
    have happ : apptText first (g :: gs) = first ++ comma :: apptText g gs := rfl
    rw [happ, splitComma_append h, ih (hs g (by simp)) fun f hf => hs f (by simp [hf])]

/-! ### The bytes of an appointment value -/

theorem apptByte_decText (d : Byte) : apptByte (decText d) = .ok d := by
  have hle : d.toNat ≤ 255 := by omega
  simp only [apptByte, numeral_decText, hle, if_true, BitVec.ofNat_toNat, BitVec.setWidth_eq]

/-- A field after the first is the numeral of a byte, or it is refused. -/
theorem apptByte_cases (f : Str) :
    (∃ d, f = decText d) ∨ ((∀ d, f ≠ decText d) ∧ apptByte f = refuse .apptField) := by
  by_cases h : ∃ d, f = decText d
  · exact .inl h
  · refine .inr ⟨not_exists.mp h, ?_⟩
    unfold apptByte
    split
    · rename_i n hn
      split
      · rename_i hle
        refine absurd ⟨BitVec.ofNat 8 n, numeral_injective hn ?_⟩ h
        rw [numeral_decText, BitVec.toNat_ofNat, Nat.mod_eq_of_lt (by omega)]
      · rfl
    · rfl

theorem apptBytes_decText (ds : List Byte) : apptBytes (ds.map decText) = .ok ds := by
  induction ds with
  | nil => rfl
  | cons d rest ih => simp only [List.map_cons, apptBytes, apptByte_decText, ih, bind_ok, pure_eq_ok]

/-- A field that is no numeral of a byte makes the value refused, whatever stands before it. -/
theorem apptBytes_of_bad {fields : List Str} (h : ∃ f ∈ fields, ∀ d, f ≠ decText d) :
    apptBytes fields = refuse .apptField := by
  induction fields with
  | nil => simp at h
  | cons f rest ih =>
    rw [apptBytes]
    rcases apptByte_cases f with ⟨d, rfl⟩ | ⟨-, hf⟩
    · have hrest : ∃ g ∈ rest, ∀ d, g ≠ decText d := by
        obtain ⟨g, hg, hbad⟩ := h
        rcases List.mem_cons.mp hg with rfl | hg
        · exact absurd rfl (hbad d)
        · exact ⟨g, hg, hbad⟩
      rw [apptByte_decText, bind_ok, ih hrest, bind_refuse]
    · rw [hf, bind_refuse]

/-- A list of numerals of bytes is the list of their bytes' numerals. -/
theorem exists_bytes_of_numerals {fields : List Str} (h : ∀ f ∈ fields, ∃ d, f = decText d) :
    ∃ ds : List Byte, fields = ds.map decText := by
  have hmem : fields ∈ Set.range (List.map decText) := by
    rw [Set.range_list_map]
    exact fun f hf => (h f hf).imp fun d hd => hd.symm
  exact hmem.imp fun ds hds => hds.symm

/-- The enable byte of a value whose first field is `f` (44_assembler.md R155). -/
theorem apptEnable_some (f : Str) : apptEnable (some f) = if f = ascii "1" then 0xFF else 0x00 := by
  simp [apptEnable]

/-- The bytes of a text with at most eight fields after the first. -/
theorem apptParse_of_bytes {first : Str} {ds : List Byte} (h : comma ∉ first) (hl : ds.length ≤ 8) :
    apptParse (some (.txt (apptText first (ds.map decText))))
      = .ok (apptEnable (some first), ds) := by
  have hlong : ¬ Config.apptMaxFields < ds.length := Nat.not_lt.mpr hl
  have hs : ∀ f ∈ ds.map decText, comma ∉ f := by simpa using fun d _ => comma_not_mem_decText d
  simp [apptParse, splitComma_apptText h hs, apptBytes_decText, hlong]

theorem apptParse_of_not_text {v : Option Val} (h : ∀ t, v ≠ some (.txt t)) : apptParse v = refuse .apptValue := by
  rcases v with _ | (t | n)
  · rfl
  · exact absurd rfl (h t)
  · rfl

theorem apptParse_of_bad {first : Str} {fields : List Str} (h : comma ∉ first) (hs : ∀ f ∈ fields, comma ∉ f)
    (hbad : ∃ f ∈ fields, ∀ d, f ≠ decText d) :
    apptParse (some (.txt (apptText first fields))) = refuse .apptField := by
  simp [apptParse, splitComma_apptText h hs, apptBytes_of_bad hbad]

theorem apptParse_of_long {first : Str} {fields : List Str} (h : comma ∉ first) (hs : ∀ f ∈ fields, comma ∉ f)
    (hlong : 8 < fields.length) (hd : ∀ f ∈ fields, ∃ d, f = decText d) :
    apptParse (some (.txt (apptText first fields))) = refuse .apptLong := by
  obtain ⟨ds, rfl⟩ := exists_bytes_of_numerals hd
  rw [List.length_map] at hlong
  have hmax : Config.apptMaxFields < ds.length := hlong
  simp [apptParse, splitComma_apptText h hs, apptBytes_decText, hmax]

/-! ### Sub-types (44_assembler.md R146) -/

/-- A sub-type stands for a number exactly when it denotes it. -/
theorem subTypeKey_eq_num {v : Val} {n : Nat} : subTypeKey v = .num n ↔ denotes v n := by
  cases v with
  | num m => simp [subTypeKey, denotes]
  | txt t =>
    have hden : denotes (.txt t) n ↔ numeral t = some n := numeral_eq_some.symm
    rw [hden, subTypeKey]
    cases numeral t <;> simp

/-- A sub-type that denotes no number stands for itself. -/
theorem subTypeKey_eq_txt {v : Val} {t : Str} (h : subTypeKey v = .txt t) : v = .txt t := by
  cases v with
  | num m => cases h
  | txt u =>
    rw [subTypeKey] at h
    cases hu : numeral u with
    | none => simpa [hu] using h
    | some n => simp [hu] at h

theorem subTypeKey_eq_iff {v w : Val} : subTypeKey v = subTypeKey w ↔ sameSubType v w := by
  constructor
  · intro h
    cases hw : subTypeKey w with
    | num n => exact .inr ⟨n, subTypeKey_eq_num.mp (h.trans hw), subTypeKey_eq_num.mp hw⟩
    | txt t => exact .inl ((subTypeKey_eq_txt (h.trans hw)).trans (subTypeKey_eq_txt hw).symm)
  · rintro (rfl | ⟨n, hv, hw⟩)
    · rfl
    · rw [subTypeKey_eq_num.mpr hv, subTypeKey_eq_num.mpr hw]

/-- The part branch is taken exactly when it is asked for. -/
theorem takesPart_iff {cfg : Config} {rq : Request} : takesPart cfg rq = true ↔ partAsked cfg rq := by
  rw [takesPart, partAsked, Bool.or_eq_true, beq_iff_eq]
  refine or_congr_right ?_
  cases rq.deviceSubType with
  | none => simp [limited]
  | some d => simp [limited, subTypeKey_eq_iff]

end Machine

end Sys2Proof
end

section
/-! PROOFS. The appointment frame (44_assembler.md R154 to R157): the overlay of a slot on the frame that lies under it. -/

namespace Sys2Proof.Machine

open Sys2Proof.Claims

/-! ### The frame under a slot -/

/-- The body of a control frame with the overlays of the slots below `n` that are present. -/
def bodyUnder (cfg : Config) (rq : Request) : Nat → FrameBuffer → Except Stop FrameBuffer
  | 0 => baseBody cfg rq
  | n + 1 => fun fb => bodyUnder cfg rq n fb >>= apptIfPresent rq (Fin.ofNat 3 n)

theorem bodyUnder_succ (cfg : Config) (rq : Request) (j : Fin 3) (fb : FrameBuffer) :
    bodyUnder cfg rq (j.val + 1) fb = bodyUnder cfg rq j.val fb >>= apptIfPresent rq j := by
  rw [bodyUnder, Fin.ofNat_val_eq_self]

/-- The body of an appointment frame is the overlay of its slot on what lies under it. -/
theorem apptBody_eq (i : Fin 3) (cfg : Config) (rq : Request) (fb : FrameBuffer) :
    apptBody i cfg rq fb = bodyUnder cfg rq i.val fb >>= apptOverlay rq i := by
  match i with
  | 0 => rfl
  | 1 => exact (bind_assoc (baseBody cfg rq fb) (apptIfPresent rq 0) (apptOverlay rq 1)).symm
  | 2 =>
    calc apptBody 2 cfg rq fb
        = baseBody cfg rq fb >>= fun fb₁ => apptIfPresent rq 0 fb₁ >>= fun fb₂ =>
          apptIfPresent rq 1 fb₂ >>= apptOverlay rq 2 := rfl
      _ = bodyUnder cfg rq 2 fb >>= apptOverlay rq 2 := by
        simp only [bodyUnder, bind_assoc]
        rfl

/-- The body under slot `j + 1` is the appointment frame of slot `j` when that slot is present. -/
theorem bodyUnder_succ_of_present {cfg : Config} {rq : Request} {j : Fin 3}
    (h : (rq.controlField (slotName j)).isSome) (fb : FrameBuffer) :
    bodyUnder cfg rq (j.val + 1) fb = apptBody j cfg rq fb := by
  have hj : apptIfPresent rq j = apptOverlay rq j := by
    funext fb₁
    simp only [apptIfPresent, h, applyIf_true]
  rw [bodyUnder_succ, apptBody_eq, hj]

/-- Slots that are absent add nothing. -/
theorem bodyUnder_of_absent {cfg : Config} {rq : Request} {m n : Nat} (hmn : m ≤ n) (hn : n ≤ 3)
    (h : ∀ k : Fin 3, m ≤ k.val → k.val < n → rq.controlField (slotName k) = none) (fb : FrameBuffer) :
    bodyUnder cfg rq n fb = bodyUnder cfg rq m fb := by
  induction n, hmn using Nat.le_induction with
  | base => rfl
  | succ n hmn ih =>
    obtain ⟨j, rfl⟩ : ∃ j : Fin 3, j.val = n := ⟨⟨n, by omega⟩, rfl⟩
    have habs : rq.controlField (slotName j) = none := h j hmn (by omega)
    rw [← ih (by omega) fun k h0 h1 => h k h0 (by omega), bodyUnder_succ]
    cases bodyUnder cfg rq j.val fb with
    | error e => rfl
    | ok fb₁ => simp [apptIfPresent, habs]

/-- The body under a slot answers when every value it looks at fits. -/
theorem bodyUnder_of_fits {cfg : Config} {rq : Request} (h : cfg.wellFormed = true) (hb : baseFits cfg rq = true) {n : Nat}
    (hn : n ≤ 3) (hf : ∀ k : Fin 3, k.val < n → slotFits rq k = true) :
    ∃ U, bodyUnder cfg rq n (.ofSeq controlStart) = .ok (.ofSeq U) ∧ 12 ≤ U.length ∧ U.length ≤ 255
      ∧ ∀ a, a ≤ 10 → memReadOpt U a = memReadOpt controlStart a := by
  induction n with
  | zero =>
    have hlen := baseLength_bounds h rq
    rcases baseBody_cases h rq (F := controlStart) rfl with ⟨-, U, hU, hl, hlow⟩ | ⟨hn, -⟩
    · exact ⟨U, hU, by omega, by omega, hlow⟩
    · cases hb.symm.trans hn
  | succ n ih =>
    obtain ⟨U, hU, h0, h1, hlow⟩ := ih (by omega) fun k hk => hf k (by omega)
    obtain ⟨j, rfl⟩ : ∃ j : Fin 3, j.val = n := ⟨⟨n, by omega⟩, rfl⟩
    rcases apptIfPresent_cases rq j h0 h1 with ⟨-, V, hV, hl, hu, hkeep⟩ | ⟨hbad, -⟩
    · refine ⟨V, ?_, by omega, by omega, fun a ha => (hkeep a ha).trans (hlow a ha)⟩
      rw [bodyUnder_succ, hU, bind_ok, hV]
    · cases (hf j (by omega)).symm.trans hbad

/-! ### The row that lies under a slot -/

theorem exec_apptRow (i : Fin 3) (s : State) : exec (apptRow i) s = emitControl s (apptBody i) := by
  match i with
  | 0 => rfl
  | 1 => rfl
  | 2 => rfl

section
variable {s : State} {rq : Request} {row : Instr} (hrq : s.rq = some rq)
include hrq

/-- The shape that a request selects emits the body that ASSEMBLE takes for it (44_assembler.md R143). -/
theorem exec_of_selectsBase (h : selectsBase s.cfg rq row) :
    exec row s = emitFrame s (controlThen (baseBody s.cfg rq)) := by
  rcases h with ⟨rfl, hon⟩ | ⟨rfl, hoff⟩ | ⟨hon, hoff, ⟨rfl, hpart⟩ | ⟨rfl, hfull⟩⟩
  · rw [funext (baseBody_of_isOn (cfg := s.cfg) hon)]
    rfl
  · rw [funext (baseBody_of_isOff (cfg := s.cfg) hoff)]
    rfl
  · have hbase : baseBody s.cfg rq = partBody s.cfg rq := by
      funext fb; simp [baseBody, hon, hoff, takesPart_iff.mpr hpart]
    rw [hbase]
    exact emitControl_of_rq hrq partBody
  · have hbase : baseBody s.cfg rq = fullBody s.cfg rq := by
      funext fb; simp [baseBody, hon, hoff, mt takesPart_iff.mp hfull]
    rw [hbase]
    exact emitControl_of_rq hrq fullBody

/-- The row that lies under a slot emits the body under the slot. -/
theorem exec_of_liesUnder {i : Fin 3} (h : liesUnder s.cfg rq i row) :
    exec row s = emitFrame s (controlThen (bodyUnder s.cfg rq i.val)) := by
  rcases h with ⟨j, hji, hj, habs, rfl⟩ | ⟨habs, hbase⟩
  · have hbody : bodyUnder s.cfg rq i.val = apptBody j s.cfg rq := funext fun fb =>
      (bodyUnder_of_absent hji (by omega) habs fb).trans (bodyUnder_succ_of_present hj fb)
    rw [exec_apptRow, emitControl_of_rq hrq, hbody]
  · have hbody : bodyUnder s.cfg rq i.val = baseBody s.cfg rq := funext
      (bodyUnder_of_absent (Nat.zero_le _) (by omega) fun k _ hk => habs k hk)
    rw [hbody]
    exact exec_of_selectsBase hrq hbase

end

/-! ### The overlay -/

/-- The bytes of a frame with the overlay of a slot: subtype, enable byte and data bytes from offset 11 on. -/
def overlaid (U : List Byte) (i : Fin 3) (en : Byte) (ds : List Byte) : List Byte :=
  putRun U 11 (Config.subAppt i :: en :: ds)

section
variable {U : List Byte} (h0 : 12 ≤ U.length) (i : Fin 3) (en : Byte) (ds : List Byte)
include h0

/-- The frame grows to the last data byte and never shrinks (44_assembler.md R156). -/
theorem overlaid_length : (overlaid U i en ds).length = max U.length (12 + ds.length) := by
  rw [overlaid, putRun_length _ (by omega) (by omega), List.length_cons, List.length_cons]
  omega

theorem overlaid_reads (a : Nat) : memReadOpt (overlaid U i en ds) a
    = if 11 ≤ a ∧ a < 13 + ds.length then (Config.subAppt i :: en :: ds)[a - 11]? else memReadOpt U a := by
  rw [overlaid, memReadOpt_putRun _ (by omega) (by omega), List.length_cons, List.length_cons,
    show 11 + (ds.length + 1 + 1) = 13 + ds.length by omega]

theorem overlaid_reads_of_lt {a : Nat} (ha : a < 11) : memReadOpt (overlaid U i en ds) a = memReadOpt U a := by
  rw [overlaid_reads h0, if_neg (by omega)]

theorem overlaid_reads_of_gt {a : Nat} (ha : 12 + ds.length < a) : memReadOpt (overlaid U i en ds) a = memReadOpt U a := by
  rw [overlaid_reads h0, if_neg (by omega)]

theorem overlaid_sub : memReadOpt (overlaid U i en ds) 11 = some (Config.subAppt i) := by
  rw [overlaid_reads h0, if_pos (by omega)]
  rfl

theorem overlaid_enable : memReadOpt (overlaid U i en ds) 12 = some en := by
  rw [overlaid_reads h0, if_pos (by omega)]
  rfl

theorem overlaid_data {j : Nat} {d : Byte} (hd : ds[j]? = some d) : memReadOpt (overlaid U i en ds) (13 + j) = some d := by
  have hj : j < ds.length := (List.getElem?_eq_some_iff.mp hd).1
  rw [overlaid_reads h0, if_pos (by omega), show 13 + j - 11 = j + 2 by omega, List.getElem?_cons_succ,
    List.getElem?_cons_succ, hd]

end

/-! ### The obligation -/

/-- A frame and the same frame with the overlay of a slot, both finished (44_assembler.md R155, R156). -/
theorem overlaidFrame_layout {U : List Byte} (h0 : 12 ≤ U.length) (i : Fin 3) (en : Byte) (ds : List Byte)
    (hlow : ∀ a, a ≤ 10 → memReadOpt U a = memReadOpt controlStart a) :
    headerOf (finished (overlaid U i en ds)) (max U.length (12 + ds.length))
      ∧ memReadOpt (finished (overlaid U i en ds)) 10 = some 0x02
      ∧ memReadOpt (finished (overlaid U i en ds)) 11 = some (Config.subAppt i)
      ∧ memReadOpt (finished (overlaid U i en ds)) 12 = some en
      ∧ (∀ j d, ds[j]? = some d → memReadOpt (finished (overlaid U i en ds)) (13 + j) = some d)
      ∧ ∀ a, 12 + ds.length < a → a < (finished (overlaid U i en ds)).length →
        memReadOpt (finished (overlaid U i en ds)) a = memReadOpt (finished U) a := by
  have hl := overlaid_length h0 i en ds
  have hread : ∀ a, 11 ≤ a → a ≤ max U.length (12 + ds.length) →
      memReadOpt (finished (overlaid U i en ds)) a = memReadOpt (overlaid U i en ds) a := fun a ha ha' => by
    rw [memReadOpt_finished a (by omega), if_neg (by omega)]
  obtain ⟨hhead, h10⟩ := headerOf_finished (F := overlaid U i en ds) (by omega) fun a ha =>
    (overlaid_reads_of_lt h0 i en ds (by omega)).trans (hlow a ha)
  refine ⟨hl ▸ hhead, h10, ?_, ?_, fun j d hd => ?_, fun a ha ha' => ?_⟩
  · rw [hread 11 (by omega) (by omega), overlaid_sub h0]
  · rw [hread 12 (by omega) (by omega), overlaid_enable h0]
  · have hj : j < ds.length := (List.getElem?_eq_some_iff.mp hd).1
    rw [hread (13 + j) (by omega) (by omega), overlaid_data h0 i en ds hd]
  · rw [finished_length, hl] at ha'
    rw [hread a (by omega) (by omega), overlaid_reads_of_gt h0 i en ds ha, memReadOpt_finished a (by omega),
      if_neg (by omega)]

/-- An appointment row whose value is refused is refused, when what lies under it fits. -/
theorem exec_apptRow_of_refuse {s : State} {rq : Request} {i : Fin 3} {r : Refusal} (hs : s.cfg.wellFormed = true)
    (hrq : s.rq = some rq) (hb : baseFits s.cfg rq = true) (hf : ∀ j, j < i → slotFits rq j = true)
    (h : apptParse (rq.controlField (slotName i)) = refuse r) : exec (apptRow i) s = .refused r := by
  obtain ⟨U, hU, -⟩ := bodyUnder_of_fits hs hb (n := i.val) (by omega) hf
  rw [exec_apptRow]
  exact emitControl_of_refuse hs hrq (by simp only [apptBody_eq, hU, bind_ok, apptOverlay, h, bind_refuse])

/-- Settles O43: the row under the slot and the slot's own row build the same frame up to the overlay, which the value's text
settles or for which it is refused. -/
theorem appointmentFrame : Obligations.AppointmentFrame := by
  intro s r i hs hrq hb hf
  obtain ⟨U, hU, h0, h1, hlow⟩ := bodyUnder_of_fits hs hb (n := i.val) (by omega) hf
  refine ⟨fun row first ds hval hfirst hds hrow => ?frame, fun hval => ?value, fun first fields hval hfirst hfields =>
    ⟨fun hbad => ?field, fun hlong hd => ?long⟩⟩
  case frame =>
    have hparse := hval ▸ apptParse_of_bytes hfirst hds
    have hF := overlaid_length h0 i (apptEnable (some first)) ds
    refine ⟨finished U, finished (overlaid U i (apptEnable (some first)) ds), ?under, ?overlay, ?layout⟩
    case under =>
      rw [exec_of_liesUnder hrq hrow]
      exact emitFrame_of_build hs (buildFrame_controlThen hU h0 h1)
    case overlay =>
      rw [exec_apptRow]
      refine emitControl_of_ok hs hrq ?_ (by omega) (by omega)
      rw [apptBody_eq, hU, bind_ok]
      exact apptOverlay_of_parse hparse h0 h1 hds
    case layout =>
      rw [finished_length, Nat.add_sub_cancel, ← apptEnable_some]
      exact overlaidFrame_layout h0 i _ ds hlow
  case value => exact exec_apptRow_of_refuse hs hrq hb hf (apptParse_of_not_text hval)
  case field => exact exec_apptRow_of_refuse hs hrq hb hf (hval ▸ apptParse_of_bad hfirst hfields hbad)
  case long => exact exec_apptRow_of_refuse hs hrq hb hf (hval ▸ apptParse_of_long hfirst hfields hlong hd)

end Sys2Proof.Machine
end

section
/-! PROOFS. Hex strings and raw strings (40_hex_byte.md): what HEX2BYTES and BYTES2HEX make character by character, and how
far they undo each other. -/

namespace Sys2Proof

/-! ### Nibbles and digits -/

theorem high_nibble_eq (b : Byte) : (b >>> 4).toNat = b.toNat / 16 := by
  rw [BitVec.toNat_ushiftRight, Nat.shiftRight_eq_div_pow]

theorem low_nibble_eq (b : Byte) : (b &&& 0x0F).toNat = b.toNat % 16 := by
  rw [BitVec.toNat_and]
  exact Nat.and_two_pow_sub_one_eq_mod b.toNat 4

/-- Two nibbles make a byte without a carry. -/
theorem toNat_ofNat_nibbles {h l : Nat} (hh : h < 16) (hl : l < 16) : (BitVec.ofNat 8 (16 * h + l)).toNat = 16 * h + l := by
  rw [BitVec.toNat_ofNat]
  omega

/-- Outside the three ranges of R82 a character has no value. -/
theorem hexVal_eq_none {c : Byte} (hdigit : ¬ (0x30 ≤ c.toNat ∧ c.toNat ≤ 0x39))
    (hlower : ¬ (0x61 ≤ c.toNat ∧ c.toNat ≤ 0x66)) (hupper : ¬ (0x41 ≤ c.toNat ∧ c.toNat ≤ 0x46)) : hexVal c = none := by
  rw [hexVal, if_neg hdigit, if_neg hlower, if_neg hupper]

/-- The digit of a hex character's value is the character in lower case. -/
theorem hexDig_hexVal : ∀ c : Byte, ∀ d ∈ hexVal c, hexDig d = Claims.lowerHex c := by decide

namespace Machine

open Sys2Proof.Claims

/-! ### The complete pairs of a string -/

@[simp] theorem paired_nil : paired [] = [] := rfl

@[simp] theorem paired_single (c : Byte) : paired [c] = [] := by simp [paired]

@[simp] theorem paired_cons_cons (hi lo : Byte) (rest : Str) : paired (hi :: lo :: rest) = hi :: lo :: paired rest := by
  have hlen : 2 * ((hi :: lo :: rest).length / 2) = 2 * (rest.length / 2) + 2 := by simp only [List.length_cons]; omega
  rw [paired, hlen]
  rfl

/-- One character after complete pairs belongs to no pair (40_hex_byte.md R81). -/
theorem paired_append_single {T : Str} (h : T.length % 2 = 0) (c : Byte) : paired (T ++ [c]) = paired T := by
  have hlen : 2 * ((T ++ [c]).length / 2) = T.length := by simp only [List.length_append, List.length_singleton]; omega
  rw [paired, paired, hlen, List.take_left' rfl, List.take_of_length_le (by omega)]

/-! ### HEX2BYTES on a string -/

/-- A complete pair answers when both characters have a value and the rest of the string answers. -/
theorem hexToBytes_pair_eq_ok {hi lo : Byte} {rest : Str} {R : List Byte} :
    hexToBytes (hi :: lo :: rest) = .ok R ↔
      ∃ h l R', hexVal hi = some h ∧ hexVal lo = some l ∧ hexToBytes rest = .ok R' ∧ R = BitVec.ofNat 8 (16 * h + l) :: R' := by
  cases hh : hexVal hi with
  | none => simp [hexToBytes, hh]
  | some h =>
    cases hl : hexVal lo with
    | none => simp [hexToBytes, hh, hl]
    | some l =>
      rw [hexToBytes_pair rest hh hl, bind_eq_ok]
      simp [eq_comm]

/-- Only the complete pairs are read (40_hex_byte.md R81). -/
theorem hexToBytes_paired (T : Str) : hexToBytes (paired T) = hexToBytes T := by
  induction T using List.twoStepInduction with
  | nil => rfl
  | singleton c => rw [paired_single, hexToBytes_nil, hexToBytes_single]
  | cons_cons hi lo rest ih _ => simp only [paired_cons_cons, hexToBytes, ih]

theorem hexToBytes_of_hex {T : Str} (h : ∀ c ∈ paired T, (hexVal c).isSome) : ∃ R, hexToBytes T = .ok R := by
  induction T using List.twoStepInduction with
  | nil => exact ⟨[], rfl⟩
  | singleton c => exact ⟨[], rfl⟩
  | cons_cons hi lo rest ih _ =>
    simp only [paired_cons_cons, List.forall_mem_cons, Option.isSome_iff_exists] at h
    obtain ⟨⟨vh, hh⟩, ⟨vl, hl⟩, hrest⟩ := h
    obtain ⟨R, hR⟩ := ih fun c hc => Option.isSome_iff_exists.mpr (hrest c hc)
    exact ⟨_, hexToBytes_pair_eq_ok.mpr ⟨vh, vl, R, hh, hl, hR, rfl⟩⟩

/-- The first pair that is not two hex digits is refused, whatever stands before it (40_hex_byte.md R82). -/
theorem hexToBytes_of_nonHex {T : Str} (h : ∃ c ∈ paired T, hexVal c = none) : hexToBytes T = refuse .nonHexChar := by
  induction T using List.twoStepInduction with
  | nil => simp at h
  | singleton c => simp at h
  | cons_cons hi lo rest ih _ =>
    cases hh : hexVal hi with
    | none => simp [hexToBytes, hh]
    | some vh =>
      cases hl : hexVal lo with
      | none => simp [hexToBytes, hh, hl]
      | some vl =>
        have hrest : ∃ c ∈ paired rest, hexVal c = none := by simpa [hh, hl] using h
        rw [hexToBytes_pair rest hh hl, ih hrest, bind_refuse]

theorem hexToBytes_length {T : Str} {R : List Byte} (h : hexToBytes T = .ok R) : R.length = T.length / 2 := by
  induction T using List.twoStepInduction generalizing R with
  | nil => cases h; rfl
  | singleton c => cases h; simp
  | cons_cons hi lo rest ih _ =>
    obtain ⟨vh, vl, R', -, -, hR', rfl⟩ := hexToBytes_pair_eq_ok.mp h
    simp only [List.length_cons, ih hR']
    omega

/-- Each byte is 16 times the value of the first character of its pair plus the value of the second (40_hex_byte.md R80). -/
theorem hexToBytes_reads {T : Str} {R : List Byte} (h : hexToBytes T = .ok R) {i : Nat} (hi : i < T.length / 2) :
    ∃ vh vl, T[2 * i]?.bind hexVal = some vh ∧ T[2 * i + 1]?.bind hexVal = some vl
      ∧ R[i]?.map BitVec.toNat = some (16 * vh + vl) := by
  induction T using List.twoStepInduction generalizing R i with
  | nil => simp at hi
  | singleton c => simp at hi
  | cons_cons a b rest ih _ =>
    obtain ⟨vh, vl, R', hh, hl, hR', rfl⟩ := hexToBytes_pair_eq_ok.mp h
    cases i with
    | zero => exact ⟨vh, vl, hh, hl, congrArg some (toNat_ofNat_nibbles (hexVal_lt _ _ hh) (hexVal_lt _ _ hl))⟩
    | succ j => exact ih hR' (by simp only [List.length_cons] at hi; omega)

/-! ### BYTES2HEX on a sequence -/

/-- A byte's two digits are those of its quotient and remainder by 16 (40_hex_byte.md R84). -/
theorem bytesToHexString_cons_div_mod (b : Byte) (S : List Byte) :
    bytesToHexString (b :: S) = hexDig (b.toNat / 16) :: hexDig (b.toNat % 16) :: bytesToHexString S := by
  rw [bytesToHexString_cons, high_nibble_eq, low_nibble_eq]

theorem bytesToHexString_reads {S : List Byte} {i : Nat} {b : Byte} (h : S[i]? = some b) :
    (bytesToHexString S)[2 * i]? = some (hexDig (b.toNat / 16))
      ∧ (bytesToHexString S)[2 * i + 1]? = some (hexDig (b.toNat % 16)) := by
  induction S generalizing i with
  | nil => simp at h
  | cons b' rest ih =>
    rw [bytesToHexString_cons_div_mod]
    cases i with
    | zero =>
      obtain rfl : b' = b := Option.some.inj h
      exact ⟨rfl, rfl⟩
    | succ j => exact ih h

/-! ### Round trips -/

/-- The bytes come back from their hex string (40_hex_byte.md R85). -/
theorem hexToBytes_bytesToHexString (S : List Byte) : hexToBytes (bytesToHexString S) = .ok S := by
  induction S with
  | nil => rfl
  | cons b rest ih =>
    rw [bytesToHexString_cons, hexToBytes_pair _ (hexVal_hexDig_of_lt (high_nibble_lt b))
      (hexVal_hexDig_of_lt (low_nibble_lt b)), ih, bind_ok, byte_of_nibbles]

/-- The string comes back from its bytes in lower case and without the dropped character (40_hex_byte.md R85). -/
theorem bytesToHexString_of_hexToBytes {T : Str} {R : List Byte} (h : hexToBytes T = .ok R) :
    bytesToHexString R = (paired T).map lowerHex := by
  induction T using List.twoStepInduction generalizing R with
  | nil => cases h; rfl
  | singleton c => cases h; simp
  | cons_cons hi lo rest ih _ =>
    obtain ⟨vh, vl, R', hh, hl, hR', rfl⟩ := hexToBytes_pair_eq_ok.mp h
    have hvh : vh < 16 := hexVal_lt hi vh hh
    have hvl : vl < 16 := hexVal_lt lo vl hl
    have hdiv : (16 * vh + vl) / 16 = vh := by omega
    have hmod : (16 * vh + vl) % 16 = vl := by omega
    rw [bytesToHexString_cons_div_mod, toNat_ofNat_nibbles hvh hvl, hdiv, hmod, ih hR', hexDig_hexVal hi vh hh,
      hexDig_hexVal lo vl hl, paired_cons_cons, List.map_cons, List.map_cons]

/-! ### The four instructions -/

section
variable {s : State}

theorem exec_hex2bytes_of_str {T : Str} (h : s.aStr = some (some T)) :
    exec .hex2bytes s = runOp (hexToBytes T >>= fun R => .ok (s.completeSeq R)) := by
  change execHex2bytes s = _
  simp only [execHex2bytes, h, operand_some, bind_ok, hexOperandBytes_some, pure_eq_ok]

theorem exec_hex2bytes_of_ok {T : Str} {R : List Byte} (h : s.aStr = some (some T)) (hR : hexToBytes T = .ok R) :
    exec .hex2bytes s = .next (okWith s none none (some R) none none) := by
  rw [exec_hex2bytes_of_str h, hR]
  rfl

theorem exec_hex2bytes_eq_next {T : Str} {t : State} (h : s.aStr = some (some T)) :
    exec .hex2bytes s = .next t ↔ ∃ R, hexToBytes T = .ok R ∧ t = okWith s none none (some R) none none := by
  rw [exec_hex2bytes_of_str h, runOp_eq_next, bind_eq_ok]
  exact exists_congr fun R => and_congr_right fun _ => ⟨fun h => (Except.ok.inj h).symm, fun h => congrArg Except.ok h.symm⟩

/-- HEX2BYTES of a string is refused exactly when its conversion is. -/
theorem exec_hex2bytes_eq_refused {T : Str} {r : Refusal} (h : s.aStr = some (some T)) :
    exec .hex2bytes s = .refused r ↔ hexToBytes T = refuse r := by
  rw [exec_hex2bytes_of_str h, runOp_eq_refused, refuse, refuse, bind_eq_error]
  simp

theorem exec_bytes2hex_of_seq {S : List Byte} (h : s.aSeq = some S) (hl : S.length ≤ 256) :
    exec .bytes2hex s = .next (okWith s none none none (some (bytesToHexString S)) none) := by
  change execBytes2hex s = _
  rw [execBytes2hex, readSeq_eq_ok.mpr ⟨h, hl⟩]
  rfl

theorem exec_bytes2raw_of_seq {S : List Byte} (h : s.aSeq = some S) (hl : S.length ≤ 256) :
    exec .bytes2raw s = .next (okWith s none none none (some S) none) := by
  change execBytes2raw s = _
  rw [execBytes2raw, readSeq_eq_ok.mpr ⟨h, hl⟩]
  rfl

theorem exec_raw2bytes_of_str {T : Str} (h : s.aStr = some (some T)) :
    exec .raw2bytes s = .next (okWith s none none (some T) none none) := by
  change execRaw2bytes s = _
  rw [execRaw2bytes, h]
  rfl

end

/-! ### The obligations -/

/-- Settles O10: every complete pair is read, and the byte at its place is the pair's value. -/
theorem hex2BytesResult : Obligations.Hex2BytesResult := by
  refine ⟨rfl, fun s T hstr hhex => ?_⟩
  obtain ⟨R, hR⟩ := hexToBytes_of_hex hhex
  refine ⟨R, exec_hex2bytes_of_ok hstr hR, hexToBytes_length hR, fun i h1 hi => ?_⟩
  obtain ⟨j, rfl⟩ : ∃ j, i = j + 1 := ⟨i - 1, by omega⟩
  exact hexToBytes_reads hR hi

/-- Settles O11: HEX2BYTES reads the complete pairs only, and the added character is in none. -/
theorem oddHexCharacterIsDropped : Obligations.OddHexCharacterIsDropped := by
  intro s T c heven hstr
  have hdrop : hexToBytes (T ++ [c]) = hexToBytes T := by
    rw [← hexToBytes_paired (T ++ [c]), paired_append_single heven, hexToBytes_paired]
  refine ⟨fun t ht => ?next, fun r hr => ?refused⟩
  case next =>
    obtain ⟨R, hR, rfl⟩ := (exec_hex2bytes_eq_next hstr).mp ht
    refine ⟨exec_hex2bytes_of_ok rfl (hdrop.trans hR), rfl, R, rfl, ?_⟩
    rw [hexToBytes_length hR, List.length_append, List.length_singleton]
    omega
  case refused =>
    have hT : hexToBytes T = refuse r := (exec_hex2bytes_eq_refused hstr).mp hr
    exact (exec_hex2bytes_eq_refused rfl).mpr (hdrop.trans hT)

/-- Settles O12: the three ranges of R82, and any other character of a complete pair. -/
theorem hexCharacterValues : Obligations.HexCharacterValues := by
  refine ⟨by decide, by decide, fun c => hexVal_eq_none, fun s T hstr hbad => ?_⟩
  exact (exec_hex2bytes_eq_refused hstr).mpr (hexToBytes_of_nonHex hbad)

/-- Settles O13. -/
theorem bytes2HexResult : Obligations.Bytes2HexResult := by
  refine ⟨rfl, fun s S hseq hlen => ⟨bytesToHexString S, exec_bytes2hex_of_seq hseq hlen, bytesToHexString_length S,
    fun i b hb => ?_⟩⟩
  cases i with
  | zero => cases hb
  | succ j => exact bytesToHexString_reads hb

/-- Settles O14: a digit has the value it was written for, and the digit of a value is the lower-case character. -/
theorem hexRoundTrips : Obligations.HexRoundTrips := by
  refine ⟨fun s S hlen => ?bytes, fun s T hlen hhex => ?string⟩
  case bytes =>
    exact ⟨_, _, _, exec_bytes2hex_of_seq rfl hlen, rfl, exec_hex2bytes_of_ok rfl (hexToBytes_bytesToHexString S), rfl⟩
  case string =>
    obtain ⟨R, hR⟩ := hexToBytes_of_hex hhex
    have hRlen : R.length ≤ 256 := by rw [hexToBytes_length hR]; omega
    exact ⟨_, R, _, exec_hex2bytes_of_ok rfl hR, rfl, exec_bytes2hex_of_seq rfl hRlen,
      congrArg some (bytesToHexString_of_hexToBytes hR)⟩

/-- Settles O15. -/
theorem rawStringOperations : Obligations.RawStringOperations :=
  ⟨rfl, rfl, fun _ S hseq hlen => ⟨S, exec_bytes2raw_of_seq hseq hlen, rfl, fun _ => rfl⟩,
    fun _ T hstr => ⟨T, exec_raw2bytes_of_str hstr, rfl, fun _ => rfl⟩⟩

end Machine

end Sys2Proof
end

section
/-! PROOFS. The checksum (41_checksum.md): both readings of the sum grow by one byte at the upper end, so they agree, and the
checksum is the one byte that brings the sum to 0 modulo 256. -/

namespace Sys2Proof.Machine

open Sys2Proof.Claims

/-! ### The sum of a range -/

section
variable {S : List Byte} {a b : Nat}

theorem sumRange_of_lt (h : b < a) : sumRange S a b = 0 := by
  rw [sumRange, Nat.sub_eq_zero_of_le h, List.take_zero, List.map_nil, List.sum_nil]

theorem byteSum_of_lt (h : b < a) : byteSum S a b = 0 := by
  rw [byteSum, Nat.sub_eq_zero_of_le h, List.range'_zero, List.map_nil, List.sum_nil]

/-- The range is inclusive at its upper end (41_checksum.md R104). -/
theorem sumRange_succ (h1 : 1 ≤ a) (h : a ≤ b + 1) :
    sumRange S a (b + 1) = sumRange S a b + ((memReadOpt S (b + 1)).getD 0).toNat := by
  have hlast : a - 1 + (b + 1 - a) = b := by omega
  have hread : memReadOpt S (b + 1) = S[b]? := rfl
  rw [sumRange, sumRange, Nat.sub_add_comm h, List.take_add_one, List.getElem?_drop, hlast, hread, List.map_append,
    List.sum_append]
  cases S[b]? <;> simp

theorem byteSum_succ (h : a ≤ b + 1) :
    byteSum S a (b + 1) = byteSum S a b + ((memReadOpt S (b + 1)).getD 0).toNat := by
  have hlast : a + (b + 1 - a) = b + 1 := by omega
  rw [byteSum, byteSum, Nat.sub_add_comm h, List.range'_1_concat, hlast, List.map_append, List.sum_append, List.map_singleton,
    List.sum_singleton]

/-- Reading byte by byte and cutting the range out of the sequence give one sum; bytes beyond the end count as 0 in both. -/
theorem byteSum_eq_sumRange (h1 : 1 ≤ a) : byteSum S a b = sumRange S a b := by
  induction b with
  | zero => rw [byteSum_of_lt h1, sumRange_of_lt h1]
  | succ b ih =>
    rcases lt_or_ge (b + 1) a with hempty | hle
    · rw [byteSum_of_lt hempty, sumRange_of_lt hempty]
    · rw [byteSum_succ hle, sumRange_succ h1 hle, ih]

/-! ### The checksum as a byte -/

/-- The checksum is the one byte that brings the sum to 0 modulo 256 (41_checksum.md R105). -/
theorem eq_cksum_iff {c : Byte} : c = cksum S a b ↔ (sumRange S a b + c.toNat) % 256 = 0 := by
  rw [← BitVec.toNat_inj, cksum_toNat]
  have hc : c.toNat < 256 := c.isLt
  omega

theorem cksum_eq_zero_iff : cksum S a b = 0x00 ↔ sumRange S a b % 256 = 0 := by
  rw [eq_comm, eq_cksum_iff]
  rfl

theorem cksum_of_lt (h : b < a) : cksum S a b = 0x00 := by
  rw [cksum_eq_zero_iff, sumRange_of_lt h]

/-- Reduction modulo 256 commutes with negation, so negating an 8-bit sum gives the checksum (41_checksum.md R101). -/
theorem cksum_eq_neg {c : Byte} (h : c.toNat = sumRange S a b % 256) : cksum S a b = -c := by
  rw [eq_comm, eq_cksum_iff, BitVec.toNat_neg, h]
  omega

/-- The checksum of one byte is its negation (41_checksum.md R104). -/
theorem cksum_single {x : Byte} (hx : memReadOpt S a = some x) : cksum S a a = 0 - x := by
  obtain ⟨k, rfl⟩ : ∃ k, a = k + 1 := ⟨a - 1, by have := (memReadOpt_isSome.mp (Option.isSome_of_eq_some hx)).1; omega⟩
  have hsum : sumRange S (k + 1) (k + 1) = x.toNat := by
    rw [sumRange_succ (by omega) (by omega), sumRange_of_lt (by omega), hx, Option.getD_some, Nat.zero_add]
  have hmod : x.toNat = sumRange S (k + 1) (k + 1) % 256 := by rw [hsum, Nat.mod_eq_of_lt x.isLt]
  exact (cksum_eq_neg hmod).trans (BitVec.zero_sub x).symm

end

/-- An 8-bit accumulator drops the carries and nothing else. -/
theorem foldl_add_toNat (L : List Byte) (acc : Byte) :
    (L.foldl (· + ·) acc).toNat = (acc.toNat + (L.map BitVec.toNat).sum) % 256 := by
  induction L generalizing acc with
  | nil => exact (Nat.mod_eq_of_lt acc.isLt).symm
  | cons x rest ih =>
    rw [List.foldl_cons, ih, BitVec.toNat_add, List.map_cons, List.sum_cons]
    omega

/-- The 8-bit adder holds the range's sum modulo 256 (41_checksum.md R101). -/
theorem adder_toNat (S : List Byte) (a b : Nat) :
    (((S.drop (a - 1)).take (b + 1 - a)).foldl (· + ·) (0 : Byte)).toNat = sumRange S a b % 256 := by
  rw [foldl_add_toNat, sumRange]
  exact congrArg (· % 256) (Nat.zero_add _)

/-! ### The instruction -/

theorem cksumIndexed_of_empty {S : List Byte} {a b : Int} (h : b < a) : cksumIndexed S a b = .ok 0x00 := if_pos h

theorem cksumIndexed_of_outside {S : List Byte} {a b : Int} (hle : a ≤ b) (h : a < 1 ∨ (S.length : Int) < b) :
    cksumIndexed S a b = refuse .cksumRange := by
  rw [cksumIndexed, if_neg (Int.not_lt.mpr hle), if_pos h]

/-- Inside the sequence an empty range is no special case: its sum is 0 (41_checksum.md R103). -/
theorem cksumIndexed_of_inside {S : List Byte} {a b : Int} (h1 : 1 ≤ a) (h2 : b ≤ S.length) :
    cksumIndexed S a b = .ok (cksum S a.toNat b.toNat) := by
  rcases lt_or_ge b a with hempty | hle
  · rw [cksumIndexed_of_empty hempty, cksum_of_lt (by omega)]
  · rw [cksumIndexed, if_neg (Int.not_lt.mpr hle), if_neg (by omega)]

section
variable {s : State} {S : List Byte} {a b : Int}

theorem exec_cksum_of_operands (hS : s.aSeq = some S) (ha : s.aFrom = some a) (hb : s.aTo = some b) (hl : S.length ≤ 256) :
    exec .cksum s = runOp (cksumIndexed S a b >>= fun c => .ok (s.completeByte c)) := by
  change execCksum s = _
  simp only [execCksum, hS, ha, hb, operand_some, bind_ok, checkLength_of_le hl, pure_eq_ok]

theorem exec_cksum_of_ok {c : Byte} (hS : s.aSeq = some S) (ha : s.aFrom = some a) (hb : s.aTo = some b)
    (hl : S.length ≤ 256) (hc : cksumIndexed S a b = .ok c) :
    exec .cksum s = .next (okWith s (some c) none none none none) := by
  rw [exec_cksum_of_operands hS ha hb hl, hc]
  rfl

theorem exec_cksum_of_refuse {r : Refusal} (hS : s.aSeq = some S) (ha : s.aFrom = some a) (hb : s.aTo = some b)
    (hl : S.length ≤ 256) (hr : cksumIndexed S a b = refuse r) : exec .cksum s = .refused r := by
  rw [exec_cksum_of_operands hS ha hb hl, hr, bind_refuse, runOp_refuse]

end

/-! ### The obligations -/

/-- Settles O16. -/
theorem cksumResult : Obligations.CksumResult := by
  refine ⟨rfl, fun s S a b hS ha hb hl h1 h2 => ⟨_, exec_cksum_of_ok hS ha hb hl (cksumIndexed_of_inside h1 h2), ?_⟩⟩
  rw [cksum_toNat, byteSum_eq_sumRange (by omega)]
  omega

/-- Settles O17. -/
theorem cksumIndexOperands : Obligations.CksumIndexOperands := fun _ _ _ _ hS ha hb hl =>
  ⟨fun hempty => exec_cksum_of_ok hS ha hb hl (cksumIndexed_of_empty hempty),
    fun hle hout => exec_cksum_of_refuse hS ha hb hl (cksumIndexed_of_outside hle hout)⟩

/-- Settles O18: the range is inside the sequence because its one byte is. -/
theorem cksumRangeIsInclusive : Obligations.CksumRangeIsInclusive := by
  refine ⟨fun s S a x hS ha hb hl hx => ?_, by decide, by decide⟩
  obtain ⟨h1, h2⟩ := memReadOpt_isSome.mp (Option.isSome_of_eq_some hx)
  refine exec_cksum_of_ok hS ha hb hl ?_
  rw [cksumIndexed_of_inside (by omega) (by omega), Int.toNat_natCast, cksum_single hx]

/-- Settles O19: in a frame the last byte closes the range, so the sum up to it is 0 exactly when it is the checksum of the
range before it. -/
theorem cksumVerificationIdentity : Obligations.CksumVerificationIdentity := by
  refine ⟨fun S a b c h1 _ _ => ?unique, fun F x h2 hx => ?frame⟩
  case unique => rw [byteSum_eq_sumRange h1, eq_cksum_iff]
  case frame =>
    obtain ⟨n, hn⟩ : ∃ n, F.length = n + 1 := ⟨F.length - 1, by omega⟩
    rw [hn] at hx ⊢
    rw [Nat.add_sub_cancel, eq_comm, eq_cksum_iff, cksum_eq_zero_iff, sumRange_succ (by omega) (by omega), hx,
      Option.getD_some]

/-- Settles O20: `NOT8(s) + 1` negates what the adder holds, which is the sum modulo 256. -/
theorem cksumByEightBitAdder : Obligations.CksumByEightBitAdder := by
  refine fun S a b h1 => ⟨?adder, fun _ hsum => ?zero, cksum_of_lt⟩
  case adder => exact (cksum_eq_neg (adder_toNat S a b)).trans (BitVec.neg_eq_not_add _)
  case zero => rwa [cksum_eq_zero_iff, ← byteSum_eq_sumRange h1]

end Sys2Proof.Machine
end

section
/-! PROOFS. CLAMP (42_clamp.md): only the value it works on depends on `A_VALID`; the bounds are applied to a default as to
any other value. -/

namespace Sys2Proof.Machine

open Sys2Proof.Claims

section
variable {s : State} {v : Int}

theorem clampValue_of_valid (h : s.aVal = some v) : s.clampValue true = .ok v := operand_eq_ok.mpr h

/-- A missing value is 0, and `A_VAL` is not read (42_clamp.md R110, R111; log 12). -/
theorem clampValue_of_missing (s : State) : s.clampValue false = .ok 0 := rfl

theorem exec_clamp_of_value {valid : Bool} {lo hi : Int} (hvalid : s.aValid = some valid) (hv : s.clampValue valid = .ok v)
    (hlo : s.aMin = some lo) (hhi : s.aMax = some hi) :
    exec .clamp s = .next (okWith s none (some (clampInto v lo hi)) none none none) := by
  change execClamp s = _
  simp only [execClamp, hvalid, hv, hlo, hhi, operand_some, bind_ok, pure_eq_ok, runOp_ok]
  rfl

end

/-! ### The obligation -/

/-- Settles O21: the value CLAMP works on is `A_VAL` when it is valid and 0 when it is missing. -/
theorem clampResult : Obligations.ClampResult :=
  ⟨rfl, fun s _ _ hlo hhi =>
    ⟨fun _ hvalid hval => exec_clamp_of_value hvalid (clampValue_of_valid hval) hlo hhi,
      fun hmissing => exec_clamp_of_value hmissing (clampValue_of_missing s) hlo hhi⟩⟩

end Sys2Proof.Machine
end

section
/-! PROOFS. What the conditions of a well-formed configuration (43_fieldmap.md R131) give the rows of the field tables: names that
are a map's keys, and the rows that are present. -/

namespace Sys2Proof.Machine

/-! ### Maps given as lists of pairs -/

/-- A map without a repeated key gives each key the value listed with it. -/
theorem lookup_of_mem {α β : Type} [BEq α] [LawfulBEq α] {l : List (α × β)} (hl : (l.map (·.1)).Nodup) {a : α} {b : β}
    (h : (a, b) ∈ l) : l.lookup a = some b := by
  obtain ⟨l₁, l₂, rfl⟩ := List.append_of_mem h
  refine List.lookup_eq_some_iff.mpr ⟨l₁, l₂, rfl, fun p hp => ?_⟩
  rw [List.map_append, List.nodup_append] at hl
  obtain ⟨-, -, hne⟩ := hl
  exact bne_iff_ne.mpr (hne p.1 (List.mem_map_of_mem hp) a (by simp)).symm

/-! ### Names and rows -/

theorem nodup_of_distinct {α : Type} [DecidableEq α] {l : List α} (h : Config.distinct l = true) : l.Nodup :=
  of_decide_eq_true h

section
variable {cfg : Config} (h : cfg.wellFormed = true)
include h

/-- No two rows of `DEC_STATUS` bear one name, and none is named as the two fields that the rows write besides (43_fieldmap.md
R131). -/
theorem wellFormed_decNames : (Config.decNames cfg.decStatus).Nodup
    ∧ ascii "mode" ∉ Config.decNames cfg.decStatus ∧ ascii "heat" ∉ Config.decNames cfg.decStatus := by
  simp only [Config.wellFormed, Config.namesOk, Bool.and_eq_true, Bool.not_eq_true'] at h
  obtain ⟨⟨-, ⟨⟨⟨-, hdistinct⟩, hmode⟩, hheat⟩, -⟩, -⟩ := h
  exact ⟨nodup_of_distinct hdistinct, by simpa using hmode, by simpa using hheat⟩

/-- The patterns of an `ENUM` row are distinct (43_fieldmap.md R123). -/
theorem wellFormed_patterns {name : Str} {off : Nat} {mask : Byte} {patterns : List (Byte × Str)} {vFallback : Str}
    (hrow : .enum name off mask patterns vFallback ∈ cfg.decStatus) : (patterns.map (·.1)).Nodup := by
  simp only [Config.wellFormed, Config.masksOk, Bool.and_eq_true, List.all_eq_true] at h
  obtain ⟨⟨⟨⟨⟨-, -, hmasks⟩, -⟩, -⟩, -⟩, -⟩ := h
  have hok := hmasks _ hrow
  simp only [Config.decMasksOk, Bool.and_eq_true] at hok
  obtain ⟨-, hdistinct⟩ := hok
  exact nodup_of_distinct hdistinct

/-- Rows of R126 to R130 that are present (43_fieldmap.md R131). -/
theorem wellFormed_knownRows : .bool (ascii "eplus") 13 0x01 ∈ cfg.encFull ∧ cfg.encFull.any Config.knownMode = true
    ∧ .flag (ascii "power") 13 0x01 0x01 (ascii "on") (ascii "off") none ∈ cfg.decStatus
    ∧ Config.heatdOk cfg.decStatus = true := by
  simp only [Config.wellFormed, Config.knownRowsOk, Bool.and_eq_true, List.contains_iff_mem] at h
  tauto

/-- There is one `MODE` row at most, and its table lists no name twice (43_fieldmap.md R118; log 18). -/
theorem wellFormed_mode : cfg.encFull.countP Config.isMode ≤ 1 ∧ ∀ row ∈ cfg.encFull, Config.modeNamesOk row = true := by
  simp only [Config.wellFormed, Config.namesOk, Bool.and_eq_true, decide_eq_true_eq, List.all_eq_true] at h
  tauto

end

theorem eq_of_countP_le_one {α : Type} {p : α → Bool} {l : List α} (hl : l.countP p ≤ 1) {x y : α}
    (hx : x ∈ l) (hpx : p x = true) (hy : y ∈ l) (hpy : p y = true) : x = y := by
  rw [List.countP_eq_length_filter] at hl
  have hx' : x ∈ l.filter p := List.mem_filter.mpr ⟨hx, hpx⟩
  have hy' : y ∈ l.filter p := List.mem_filter.mpr ⟨hy, hpy⟩
  match hf : l.filter p with
  | [] => simp [hf] at hx'
  | [z] => simp_all
  | _ :: _ :: _ => simp [hf] at hl

theorem mode_unique {cfg : Config} (h : cfg.wellFormed = true) {regions regions' : List (Nat × Nat)}
    {table table' : List (Str × ModeEnc)} (hrow : .mode regions table ∈ cfg.encFull)
    (hrow' : .mode regions' table' ∈ cfg.encFull) : regions' = regions ∧ table' = table := by
  obtain ⟨hone, -⟩ := wellFormed_mode h
  exact EncRow.mode.inj (eq_of_countP_le_one hone hrow' rfl hrow rfl)

/-- The `MODE` row of R127: both offsets lie in its regions, and "summer" is its bit `0x04` of offset 13. -/
theorem wellFormed_summer {cfg : Config} (h : cfg.wellFormed = true) {regions : List (Nat × Nat)}
    {table : List (Str × ModeEnc)} (hrow : .mode regions table ∈ cfg.encFull) :
    Config.inRegions regions 13 = true ∧ Config.inRegions regions 14 = true
      ∧ (ascii "summer", .bit 13 0x04) ∈ table := by
  obtain ⟨-, hknown, -⟩ := wellFormed_knownRows h
  obtain ⟨row, hmem, hk⟩ := List.any_eq_true.mp hknown
  cases row with
  | mode regions' table' =>
    obtain ⟨rfl, rfl⟩ := mode_unique h hrow hmem
    simp only [Config.knownMode, Bool.and_eq_true, beq_iff_eq] at hk
    obtain ⟨⟨h13, h14⟩, hsummer⟩ := hk
    exact ⟨h13, h14, mem_of_lookup hsummer⟩
  | bool _ _ _ | heat _ _ _ _ | numf _ _ _ _ => cases hk

end Sys2Proof.Machine
end

section
/-! PROOFS. The entries of `ENC_PART` (43_fieldmap.md R121, 44_assembler.md R147): only the first present one is executed, and
where it writes an offset last decides the byte there. -/

namespace Sys2Proof.Machine

open Sys2Proof.Claims

/-! ### The first present entry -/

/-- The search of `ENC_PART` executes the first entry whose field is present. -/
theorem execPart_of_first {rq : Request} {pre post : List PartEntry} {e : PartEntry} {v : Val}
    (hpre : ∀ p ∈ pre, rq.controlField p.name = none) (he : rq.controlField e.name = some v) (fb : FrameBuffer) :
    execPart rq (pre ++ e :: post) fb = execPartWrites v e.writes fb := by
  induction pre with
  | nil => rw [List.nil_append, execPart, he]
  | cons p rest ih =>
    rw [List.cons_append, execPart, hpre p (by simp)]
    exact ih fun q hq => hpre q (by simp [hq])

/-- An operation that writes a frame without looking at the request latch makes the same of two states that differ in it. -/
theorem emitFrame_with_rq {s : State} {branch : FrameBuffer → Except Stop FrameBuffer} (r r' : Request) :
    (∀ t, emitFrame { s with rq := some r } branch = .next t →
      emitFrame { s with rq := some r' } branch = .next { t with rq := some r' })
    ∧ ∀ x, emitFrame { s with rq := some r } branch = .refused x → emitFrame { s with rq := some r' } branch = .refused x := by
  simp only [emitFrame]
  cases checkConfig s.cfg with
  | error e => cases e <;> simp [runOp, Stop.outcome]
  | ok u =>
    cases buildFrame branch with
    | error e => cases e <;> simp [runOp, Stop.outcome]
    | ok fb =>
      refine ⟨fun t ht => ?_, fun x hx => by cases hx⟩
      cases ht
      rfl

/-- Settles O37: both requests make the same writes, those of the first present entry. -/
theorem partFrameIgnoresLaterFields : Obligations.PartFrameIgnoresLaterFields := by
  intro s r r' pre post e hcfg hpre he hsame
  obtain ⟨v, hv⟩ := Option.isSome_iff_exists.mp he
  have hbody : partBody s.cfg r = partBody s.cfg r' := by
    funext fb
    simp only [partBody, hcfg, execPart_of_first (fun p hp => (hpre p hp).1) hv,
      execPart_of_first (fun p hp => (hpre p hp).2) (hsame.trans hv)]
  have hrow : ∀ q, exec .txPart { s with rq := some q } = emitFrame { s with rq := some q } (controlThen (partBody s.cfg q)) :=
    fun q => emitControl_of_rq (s := { s with rq := some q }) rfl partBody
  rw [hrow, hrow, hbody]
  exact emitFrame_with_rq r r'

/-! ### The writes of an entry -/

theorem execPartWrites_append (v : Val) (before after : List (Nat × PartSrc)) (fb : FrameBuffer) :
    execPartWrites v (before ++ after) fb = execPartWrites v before fb >>= execPartWrites v after := by
  induction before generalizing fb with
  | nil => rfl
  | cons w rest ih =>
    simp only [List.cons_append, execPartWrites, bind_assoc]
    exact congrArg _ (funext ih)

section
variable {F G : List Byte} {off : Nat} (h : Inside F off)
include h

theorem memReadOpt_of_set {b : Byte} (hG : (FrameBuffer.ofSeq F).set off b = .ok (.ofSeq G)) : memReadOpt G off = some b := by
  obtain ⟨G', hG', -, hr⟩ := set_reads b h
  obtain rfl : G' = G := ofSeq_inj (Except.ok.inj (hG'.symm.trans hG))
  rw [hr, if_pos rfl]

/-- A number is copied verbatim, or it does not fit a byte and is refused (44_assembler.md R152). -/
theorem memReadOpt_of_setNum {n : Nat} (hG : setNum (.ofSeq F) off n = .ok (.ofSeq G)) :
    (memReadOpt G off).map BitVec.toNat = some n := by
  rcases numByte_cases n with ⟨hn, hb⟩ | ⟨-, hb⟩
  · rw [setNum, hb, bind_ok] at hG
    rw [memReadOpt_of_set h hG, Option.map_some, BitVec.toNat_ofNat, Nat.mod_eq_of_lt (by omega)]
  · rw [setNum, hb, bind_refuse] at hG
    cases hG

end

/-- The writes of an entry that answer are in place. -/
theorem execPartWrites_inPlace {v : Val} {writes : List (Nat × PartSrc)} {F : List Byte} {fb : FrameBuffer}
    (h : ∀ w ∈ writes, Inside F w.1) (hfb : execPartWrites v writes (.ofSeq F) = .ok fb) :
    ∃ G, fb = .ofSeq G ∧ G.length = F.length ∧ ∀ a, (∀ w ∈ writes, w.1 ≠ a) → memReadOpt G a = memReadOpt F a := by
  rcases execPartWrites_cases v writes h with ⟨-, G, hG, hl, hkeep⟩ | ⟨-, hrefuse⟩
  · exact ⟨G, Except.ok.inj (hfb.symm.trans hG), hl, fun a ha => hkeep a fun ⟨w, hw, e⟩ => ha w hw e.symm⟩
  · cases hrefuse.symm.trans hfb

/-- The writes of an entry taken apart around one of them that is the last to its offset. -/
theorem execPartWrites_around {v : Val} {before after : List (Nat × PartSrc)} {off : Nat} {src : PartSrc} {F G : List Byte}
    (h : ∀ w ∈ before ++ (off, src) :: after, Inside F w.1) (hafter : ∀ w ∈ after, w.1 ≠ off)
    (hG : execPartWrites v (before ++ (off, src) :: after) (.ofSeq F) = .ok (.ofSeq G)) :
    ∃ F₁ F₂, Inside F₁ off ∧ ((∀ w ∈ before, w.1 ≠ off) → memReadOpt F₁ off = memReadOpt F off)
      ∧ execPartWrite v off src (.ofSeq F₁) = .ok (.ofSeq F₂) ∧ memReadOpt G off = memReadOpt F₂ off := by
  rw [← List.singleton_append, execPartWrites_append] at hG
  obtain ⟨fb₁, h₁, hG⟩ := bind_eq_ok.mp hG
  obtain ⟨F₁, rfl, hl₁, hk₁⟩ := execPartWrites_inPlace (fun w hw => h w (by simp [hw])) h₁
  rw [execPartWrites_append] at hG
  obtain ⟨fb₂, h₂, hG⟩ := bind_eq_ok.mp hG
  have hoff : Inside F₁ off := (h (off, src) (by simp)).of_length hl₁
  obtain ⟨F₂, rfl, hl₂, -⟩ := execPartWrites_inPlace (by simpa using hoff) h₂
  obtain ⟨G', hG', -, hk⟩ :=
    execPartWrites_inPlace (fun w hw => (h w (by simp [hw])).of_length (hl₂.trans hl₁)) hG
  obtain rfl := ofSeq_inj hG'
  obtain ⟨fb, hw, hfb⟩ := bind_eq_ok.mp h₂
  exact ⟨F₁, F₂, hoff, hk₁ off, hfb ▸ hw, hk off hafter⟩

/-- TX_PART with a first present entry: its writes on the zero window, then the final step. -/
theorem execTxPart_of_first {s : State} {rq : Request} {pre post : List PartEntry} {e : PartEntry} {v : Val}
    (hs : s.cfg.wellFormed = true) (hrq : s.rq = some rq) (hf : partFits s.cfg rq = true)
    (hcfg : s.cfg.encPart = pre ++ e :: post) (hpre : ∀ p ∈ pre, rq.controlField p.name = none)
    (he : rq.controlField e.name = some v) :
    ∃ G, exec .txPart s = .next (frameOf s (finished G)) ∧ G.length = s.cfg.partHi
      ∧ execPartWrites v e.writes (.ofSeq (windowStart Config.subPart s.cfg.partHi)) = .ok (.ofSeq G) := by
  obtain ⟨G, hG, hl, -⟩ := execPart_of_fits hs hf
  refine ⟨G, execTxPart_eq hs hrq hl hG, hl, ?_⟩
  rwa [hcfg, execPart_of_first hpre he] at hG

/-- Settles O36: an offset holds what its last write put there, and zero where the entry does not write. -/
theorem partEntryBytes : Obligations.PartEntryBytes := by
  intro s r pre post e v before after off src hs hrq hf hcfg hpre he hwrites hafter
  obtain ⟨-, -, hhi, -⟩ := wellFormed_windows hs
  have hmem : e ∈ s.cfg.encPart := by simp [hcfg]
  obtain ⟨G, hexec, hl, hG⟩ := execTxPart_of_first hs hrq hf hcfg hpre he
  have hin := wellFormed_partInside hs (windowStart_length Config.subPart hhi) e hmem
  obtain ⟨G', hG', -, hkeep⟩ := execPartWrites_inPlace hin hG
  obtain rfl := ofSeq_inj hG'
  refine ⟨finished G, hexec, ?written, fun a h0 h1 ha => ?zero⟩
  case zero => rw [memReadOpt_finished_window h0 (by omega), hkeep a ha, windowStart_zero _ h0 h1]
  case written =>
    have hoff : 12 ≤ off := partWrites_ge hs e hmem (off, src) (by simp [hwrites])
    have hinside : Inside (windowStart Config.subPart s.cfg.partHi) off := hin (off, src) (by simp [hwrites])
    have hoff' : off ≤ s.cfg.partHi := windowStart_length Config.subPart hhi ▸ hinside.2.1
    rw [hwrites] at hG hin
    obtain ⟨F₁, F₂, hi₁, hbefore, hw, hread⟩ := execPartWrites_around hin hafter hG
    rw [memReadOpt_finished_window hoff (by omega), hread]
    match src, v with
    | .const b, _ => exact memReadOpt_of_set hi₁ hw
    | .sel bOn bOff, v => exact memReadOpt_of_set hi₁ hw
    | .val, .num n => exact memReadOpt_of_setNum hi₁ hw
    | .val, .txt t =>
      obtain rfl : F₁ = F₂ := ofSeq_inj (Except.ok.inj hw)
      exact fun hb => (hbefore hb).trans (windowStart_zero _ hoff hoff')

end Sys2Proof.Machine
end

section
/-! PROOFS. The rows of `ENC_FULL` byte by byte (43_fieldmap.md R117 to R120): each shared write is a function of the offset and
the byte there, a row is a composition of such functions, and what it leaves stands in the frame where no later row changes
it. -/

namespace Sys2Proof.Machine

open Sys2Proof.Claims

/-! ### Writes as functions of offset and byte -/

/-- `r` holds the bytes of `F`, each changed by `f`. -/
def Maps (f : Nat → Byte → Byte) (F : List Byte) (r : Except Stop FrameBuffer) : Prop :=
  ∃ F', r = .ok (.ofSeq F') ∧ F'.length = F.length ∧ ∀ a b, memReadOpt F a = some b → memReadOpt F' a = some (f a b)

/-- The byte `b` at offset `a` after `FBSet(o, v)`. -/
def setByte (o : Nat) (v : Byte) (a : Nat) (b : Byte) : Byte := if a = o then v else b

/-- The byte `b` at offset `a` after `FBOr(o, m)`. -/
def orByte (o : Nat) (m : Byte) (a : Nat) (b : Byte) : Byte := if a = o then b ||| m else b

/-- The byte `b` at offset `a` after `FBAndNot(o, m)`. -/
def andNotByte (o : Nat) (m : Byte) (a : Nat) (b : Byte) : Byte := if a = o then b &&& ~~~m else b

/-- The byte `b` at offset `a` after the regions were cleared. -/
def clearByte (regions : List (Nat × Nat)) (a : Nat) (b : Byte) : Byte := if Config.inRegions regions a then 0x00 else b

/-- The byte `b` at offset `a` after what a mode name stands for was set. -/
def setModeByte : ModeEnc → Nat → Byte → Byte
  | .bit o m => orByte o m
  | .byte o v => setByte o v

/-- The byte `b` at offset `a` after what a mode name stands for was cleared. -/
def clearModeByte : ModeEnc → Nat → Byte → Byte
  | .bit o m => andNotByte o m
  | .byte o _ => setByte o 0x00

/-- The byte `b` at offset `a` after a write that is made on a condition. -/
def ifByte (c : Bool) (f : Nat → Byte → Byte) (a : Nat) (b : Byte) : Byte := if c then f a b else b

/-- The byte `b` at offset `a` after one write and then another. -/
def thenByte (f g : Nat → Byte → Byte) (a : Nat) (b : Byte) : Byte := g a (f a b)

section
variable {F : List Byte}

theorem Maps.refl : Maps (fun _ b => b) F (.ok (.ofSeq F)) := ⟨F, rfl, rfl, fun _ _ hb => hb⟩

theorem Maps.bind {f g : Nat → Byte → Byte} {r : Except Stop FrameBuffer} {k : FrameBuffer → Except Stop FrameBuffer}
    (h : Maps f F r) (hk : ∀ F', F'.length = F.length → Maps g F' (k (.ofSeq F'))) :
    Maps (thenByte f g) F (r >>= k) := by
  obtain ⟨F₁, rfl, hl₁, hr₁⟩ := h
  obtain ⟨F₂, h₂, hl₂, hr₂⟩ := hk F₁ hl₁
  exact ⟨F₂, h₂, hl₂.trans hl₁, fun a b hb => hr₂ a _ (hr₁ a b hb)⟩

/-- What a write that answered left at an offset. -/
theorem Maps.read {f : Nat → Byte → Byte} {r : Except Stop FrameBuffer} (h : Maps f F r) {G : List Byte}
    (hG : r = .ok (.ofSeq G)) {a : Nat} {b : Byte} (hb : memReadOpt F a = some b) : memReadOpt G a = some (f a b) := by
  obtain ⟨F', hF', -, hr⟩ := h
  obtain rfl : F' = G := ofSeq_inj (Except.ok.inj (hF'.symm.trans hG))
  exact hr a b hb

theorem set_maps {o : Nat} (v : Byte) (h : Inside F o) : Maps (setByte o v) F ((FrameBuffer.ofSeq F).set o v) := by
  obtain ⟨F', he, hl, hr⟩ := set_reads v h
  exact ⟨F', he, hl, fun a b hb => by rw [hr, hb, setByte, apply_ite some]⟩

theorem or_maps {o : Nat} (m : Byte) (h : Inside F o) : Maps (orByte o m) F ((FrameBuffer.ofSeq F).or o m) := by
  obtain ⟨b₀, hb₀⟩ := exists_byte h
  obtain ⟨F', he, hl, hr⟩ := or_reads m h hb₀
  refine ⟨F', he, hl, fun a b hb => ?_⟩
  rw [hr, orByte]
  split
  · subst a
    rw [Option.some.inj (hb₀.symm.trans hb)]
  · exact hb

theorem andNot_maps {o : Nat} (m : Byte) (h : Inside F o) : Maps (andNotByte o m) F ((FrameBuffer.ofSeq F).andNot o m) := by
  obtain ⟨b₀, hb₀⟩ := exists_byte h
  obtain ⟨F', he, hl, hr⟩ := andNot_reads m h hb₀
  refine ⟨F', he, hl, fun a b hb => ?_⟩
  rw [hr, andNotByte]
  split
  · subst a
    rw [Option.some.inj (hb₀.symm.trans hb)]
  · exact hb

theorem applyIf_maps {f : Nat → Byte → Byte} {g : FrameBuffer → Except Stop FrameBuffer} (c : Bool)
    (h : Maps f F (g (.ofSeq F))) : Maps (ifByte c f) F (applyIf c g (.ofSeq F)) := by
  cases c with
  | false => exact Maps.refl
  | true => exact h

theorem clear_maps {lo hi : Nat} (h0 : 1 ≤ lo) (h1 : hi ≤ F.length) (h2 : F.length ≤ Config.fbMax) :
    Maps (clearByte [(lo, hi)]) F ((FrameBuffer.ofSeq F).clear lo hi) := by
  obtain ⟨F', he, hl, hkeep⟩ := clear_inPlace h0 h1 h2
  refine ⟨F', he, hl, fun a b hb => ?_⟩
  rw [clearByte, Config.inRegions, List.any_cons, List.any_nil, Bool.or_false]
  split
  · rename_i hin
    obtain ⟨hlo, hhi⟩ := within_iff.mp hin
    exact clear_reads_zero h0 h1 h2 he a hlo hhi
  · rename_i hout
    exact (hkeep a (mt within_iff.mpr hout)).trans hb

theorem clearByte_cons (r : Nat × Nat) (rest : List (Nat × Nat)) (a : Nat) (b : Byte) :
    thenByte (clearByte [r]) (clearByte rest) a b = clearByte (r :: rest) a b := by
  simp only [thenByte, clearByte, Config.inRegions, List.any_cons, List.any_nil, Bool.or_false, Bool.or_eq_true]
  split <;> simp [*]

theorem clearRegions_maps {regions : List (Nat × Nat)} (h : RegionsInside F regions) :
    Maps (clearByte regions) F (clearRegions (.ofSeq F) regions) := by
  induction regions generalizing F with
  | nil => exact Maps.refl
  | cons r rest ih =>
    obtain ⟨hmax, hin⟩ := h
    obtain ⟨h0, h1⟩ := hin r (by simp)
    rw [← funext fun a => funext (clearByte_cons r rest a)]
    exact (clear_maps h0 h1 hmax).bind fun F' hl => ih ⟨hl ▸ hmax, fun r' hr' => hl ▸ hin r' (by simp [hr'])⟩

theorem setModeEnc_maps {enc : ModeEnc} (h : Inside F (Config.modeEncOff enc)) :
    Maps (setModeByte enc) F (setModeEnc (.ofSeq F) enc) := by
  cases enc with
  | bit o m => exact or_maps m h
  | byte o v => exact set_maps v h

theorem clearModeEnc_maps {enc : ModeEnc} (h : Inside F (Config.modeEncOff enc)) :
    Maps (clearModeByte enc) F (clearModeEnc (.ofSeq F) enc) := by
  cases enc with
  | bit o m => exact andNot_maps m h
  | byte o v => exact set_maps 0x00 h

end

/-! ### The window -/

/-- The offset lies in the window of the full frame. -/
def InWindow (cfg : Config) (a : Nat) : Prop := 12 ≤ a ∧ a ≤ cfg.fullHi

theorem inside_of_inRegions {F : List Byte} {regions : List (Nat × Nat)} (h : RegionsInside F regions) {a : Nat}
    (ha : Config.inRegions regions a = true) : Inside F a := by
  obtain ⟨r, hr, hin⟩ := List.any_eq_true.mp ha
  obtain ⟨hlo, hhi⟩ := within_iff.mp hin
  obtain ⟨h0, h1⟩ := h.2 r hr
  exact ⟨by omega, by omega, h.1⟩

theorem inside_of_rowWrites {F : List Byte} {rows : List EncRow} {row : EncRow} (h : RowInside F row)
    (ht : TableInside F (modeTable rows)) {a : Nat} (ha : rowWrites rows row a) : Inside F a := by
  cases row with
  | bool name off mask => exact ha ▸ h
  | mode regions table =>
    rcases ha with ha | ⟨e, he, rfl⟩
    · exact inside_of_inRegions h.1 ha
    · exact h.2 e he
  | heat ho hm wo wm => rcases ha with rfl | rfl; exacts [h.1, h.2]
  | numf name off fallback clearsMode =>
    rcases ha with rfl | ⟨-, e, he, rfl⟩
    · exact h
    · exact ht e he

/-- Every offset that a row may write lies in the window (43_fieldmap.md R131). -/
theorem inWindow_of_rowWrites {cfg : Config} (h : cfg.wellFormed = true) {row : EncRow} (hrow : row ∈ cfg.encFull) {a : Nat}
    (ha : rowWrites cfg.encFull row a) : InWindow cfg a := by
  have hl := fullStart_length h
  obtain ⟨-, hle, -⟩ := inside_of_rowWrites (wellFormed_rowInside h hl row hrow) (wellFormed_tableInside h hl) ha
  exact ⟨rowWrites_ge h row hrow a ha, hl ▸ hle⟩

/-! ### A row in the full frame -/

theorem bitsAt_eq_some {F : List Byte} {off : Nat} {mask x : Byte} :
    bitsAt F off mask = some x ↔ ∃ b, memReadOpt F off = some b ∧ b &&& mask = x := by
  rw [bitsAt, Option.map_eq_some_iff]

/-- Bits under two masks that agree, agree under the masks together. -/
theorem bitsAt_or_congr {F G : List Byte} {off : Nat} {m m' : Byte} (h : bitsAt F off m = bitsAt G off m)
    (h' : bitsAt F off m' = bitsAt G off m') : bitsAt F off (m ||| m') = bitsAt G off (m ||| m') := by
  unfold bitsAt at *
  cases hF : memReadOpt F off <;> cases hG : memReadOpt G off <;> simp_all [BitVec.and_or_distrib_left]

/-- The bytes before and after one row of `ENC_FULL` in the making of the frame `F` on the request. -/
structure RowRun (cfg : Config) (rq : Request) (pre : List EncRow) (row : EncRow) (post : List EncRow) (F₁ F₂ F : List Byte) :
    Prop where
  wf : cfg.wellFormed = true
  mem : row ∈ cfg.encFull
  before_inside : RowInside F₁ row ∧ TableInside F₁ (modeTable cfg.encFull)
  before_reads : ∀ a, InWindow cfg a → ∃ b, memReadOpt F₁ a = some b
  before_bits : ∀ off mask, InWindow cfg off → rowsKeep cfg.encFull pre rq off mask = true → bitsAt F₁ off mask = some 0x00
  run : execEncRow cfg.encFull rq row (.ofSeq F₁) = .ok (.ofSeq F₂)
  after_reads : ∀ a, InWindow cfg a → ∃ b, memReadOpt F a = some b
  after_bits : ∀ off mask, InWindow cfg off → rowsKeep cfg.encFull post rq off mask = true →
    bitsAt F off mask = bitsAt F₂ off mask

/-- TX_FULL taken apart around one row: what the rows before it keep is zero before it, and what the rows after it keep stands in
the frame as the row left it. -/
theorem execTxFull_rowRun {s : State} {rq : Request} (hs : s.cfg.wellFormed = true) (hrq : s.rq = some rq)
    (hf : fullFits s.cfg rq = true) {pre post : List EncRow} {row : EncRow} (hrows : s.cfg.encFull = pre ++ row :: post) :
    ∃ F₁ F₂ F, exec .txFull s = .next (frameOf s F) ∧ RowRun s.cfg rq pre row post F₁ F₂ F := by
  have hw := wellFormed_windows hs
  obtain ⟨F₁, F₂, F₃, e₁, l₁, e₂, l₂, e₃, l₃, hexec⟩ := execTxFull_around hs hrq hf hrows
  have hreads : ∀ {F : List Byte}, s.cfg.fullHi ≤ F.length → ∀ a, InWindow s.cfg a → ∃ b, memReadOpt F a = some b :=
    fun hl a ha => Option.isSome_iff_exists.mp (memReadOpt_isSome.mpr ⟨by have := ha.1; omega, ha.2.trans hl⟩)
  refine ⟨F₁, F₂, finished F₃, completeFrame_ofSeq s _ ▸ hexec, ?_⟩
  constructor
  case wf => exact hs
  case mem => simp [hrows]
  case before_inside => exact ⟨wellFormed_rowInside hs l₁ row (by simp [hrows]), wellFormed_tableInside hs l₁⟩
  case before_reads => exact hreads l₁.ge
  case before_bits =>
    intro off mask hoff hk
    have hl₀ := fullStart_length hs
    have hpre : ∀ r ∈ pre, r ∈ s.cfg.encFull := fun r hr => by simp [hrows, hr]
    have hfits : pre.all (rowFits rq) = true :=
      List.all_eq_true.mpr fun r hr => List.all_eq_true.mp hf r (hpre r hr)
    obtain ⟨F', e, -, hbits⟩ := execEncRows_keeps s.cfg.encFull rq pre
      (fun r hr => wellFormed_rowInside hs hl₀ r (hpre r hr)) (wellFormed_tableInside hs hl₀) hfits hk
    obtain rfl : F' = F₁ := ofSeq_inj (Except.ok.inj (e.symm.trans e₁))
    exact hbits.trans (fullStart_bits mask hoff.1 hoff.2)
  case run => exact e₂
  case after_reads => exact hreads (by rw [finished_length]; omega)
  case after_bits =>
    intro off mask hoff hk
    exact (bitsAt_congr (memReadOpt_finished_window hoff.1 (l₃ ▸ hoff.2))).trans (bits_after hs hf hrows l₂ e₃ hk)

section
variable {cfg : Config} {rq : Request} {pre post : List EncRow} {row : EncRow} {F₁ F₂ F : List Byte}
  (h : RowRun cfg rq pre row post F₁ F₂ F)
include h

theorem RowRun.inWindow {a : Nat} (ha : rowWrites cfg.encFull row a) : InWindow cfg a := inWindow_of_rowWrites h.wf h.mem ha

/-- What a row left in bits that no later row changes, read in the frame. -/
theorem RowRun.after_eq {off : Nat} {mask x : Byte} (hoff : InWindow cfg off)
    (hk : rowsKeep cfg.encFull post rq off mask = true) (hx : bitsAt F₂ off mask = some x) :
    ∃ b, memReadOpt F off = some b ∧ b &&& mask = x :=
  bitsAt_eq_some.mp ((h.after_bits off mask hoff hk).trans hx)

/-- What a row left in a byte that no later row changes, read in the frame. -/
theorem RowRun.after_byte {a : Nat} (ha : InWindow cfg a) (hk : rowsKeep cfg.encFull post rq a 0xFF = true) :
    memReadOpt F a = memReadOpt F₂ a := by
  simpa only [bitsAt_full] using h.after_bits a 0xFF ha hk

/-- What a row leaves, where it is known what it makes of each byte. -/
theorem RowRun.reads {f : Nat → Byte → Byte} (hf : Maps f F₁ (execEncRow cfg.encFull rq row (.ofSeq F₁))) {a : Nat}
    (ha : InWindow cfg a) : ∃ b, memReadOpt F₂ a = some (f a b) := by
  obtain ⟨b, hb⟩ := h.before_reads a ha
  exact ⟨b, hf.read h.run hb⟩

end

/-! ### Bits -/

theorem or_and_self (b m : Byte) : (b ||| m) &&& m = m := by grind

theorem andNot_and_self (b m : Byte) : b &&& ~~~m &&& m = 0 := by ext i hi; simp

/-! ### `BOOL` rows -/

theorem boolIsSet_some (v : Val) (st : Option Val) : boolIsSet (some v) st = isOn (some v) := by simp [boolIsSet]

theorem boolIsSet_none (st : Option Val) : boolIsSet none st = isOn st := by simp [boolIsSet]

section
variable {cfg : Config} {rq : Request} {pre post : List EncRow} {name : Str} {off : Nat} {mask : Byte} {F₁ F₂ F : List Byte}
  (h : RowRun cfg rq pre (.bool name off mask) post F₁ F₂ F)
include h

theorem RowRun.bool_maps : Maps (ifByte (boolIsSet (rq.controlField name) (rq.statusField name)) (orByte off mask)) F₁
    (execEncRow cfg.encFull rq (.bool name off mask) (.ofSeq F₁)) :=
  applyIf_maps (g := (·.or off mask)) _ (or_maps mask h.before_inside.1)

/-- A `BOOL` row whose value is on sets its bits. -/
theorem RowRun.bool_on (hoff : InWindow cfg off) (hset : boolIsSet (rq.controlField name) (rq.statusField name) = true) :
    bitsAt F₂ off mask = some mask := by
  obtain ⟨b, hb⟩ := h.reads h.bool_maps hoff
  rw [bitsAt_of_read hb, hset, ifByte, if_pos rfl, orByte, if_pos rfl, or_and_self]

/-- A `BOOL` row whose value is not on leaves its bits as they were. -/
theorem RowRun.bool_off (hclear : boolIsSet (rq.controlField name) (rq.statusField name) = false) :
    bitsAt F₂ off mask = bitsAt F₁ off mask := by
  have hrun := h.run
  rw [execEncRow, hclear, applyIf_false] at hrun
  rw [ofSeq_inj (Except.ok.inj hrun)]

end

/-- Settles O39: a row that is on sets its bits; one that is not leaves them as the rows before it did, which is zero where none
of them sets them. -/
theorem boolRowsFollowControlThenStatus : Obligations.BoolRowsFollowControlThenStatus := by
  intro s r hs hrq hf
  obtain ⟨heplus, -⟩ := wellFormed_knownRows hs
  refine ⟨heplus, fun pre post name off mask hrows hpost => ?_⟩
  obtain ⟨F₁, F₂, F, hexec, hrun⟩ := execTxFull_rowRun hs hrq hf hrows
  have hoff : InWindow s.cfg off := hrun.inWindow rfl
  obtain ⟨b, hb⟩ := hrun.after_reads off hoff
  have hbits : bitsAt F₂ off mask = some (b &&& mask) :=
    (hrun.after_bits off mask hoff hpost).symm.trans (bitsAt_of_read hb)
  have hset : boolIsSet (r.controlField name) (r.statusField name) = true → b &&& mask = mask := fun hon =>
    Option.some.inj (hbits.symm.trans (hrun.bool_on hoff hon))
  have hclear : rowsKeep s.cfg.encFull pre r off mask = true →
      boolIsSet (r.controlField name) (r.statusField name) = false → b &&& mask = 0x00 := fun hpre hnot =>
    Option.some.inj (hbits.symm.trans ((hrun.bool_off hnot).trans (hrun.before_bits off mask hoff hpre)))
  exact ⟨F, b, hexec, hb, fun v hv hon => hset (by rw [hv, boolIsSet_some, hon]),
    fun hnone hon => hset (by rw [hnone, boolIsSet_none, hon]), fun hpre =>
    ⟨fun v hv hnot => hclear hpre (by rw [hv, boolIsSet_some, hnot]),
      fun hnone hnot => hclear hpre (by rw [hnone, boolIsSet_none, hnot])⟩⟩

/-! ### The `HEAT` row -/

/-- The byte `b` at offset `a` after the `HEAT` row on the value `v`. -/
def heatByte (ho : Nat) (hm : Byte) (wo : Nat) (wm : Byte) (v : Val) : Nat → Byte → Byte :=
  thenByte (andNotByte ho hm) <| thenByte (andNotByte wo wm) <|
    thenByte (ifByte (v == .txt (ascii "half")) (orByte ho hm)) (ifByte (v == .txt (ascii "whole")) (orByte wo wm))

theorem execHeatRow_maps {F : List Byte} {ho wo : Nat} (hm wm : Byte) (v : Val) (hho : Inside F ho) (hwo : Inside F wo) :
    Maps (heatByte ho hm wo wm v) F (execHeatRow ho hm wo wm v (.ofSeq F)) :=
  (andNot_maps hm hho).bind fun _ h₁ =>
  (andNot_maps wm (hwo.of_length h₁)).bind fun _ h₂ =>
  (applyIf_maps _ (or_maps hm (hho.of_length (h₂.trans h₁)))).bind fun _ h₃ =>
  applyIf_maps _ (or_maps wm (hwo.of_length (h₃.trans (h₂.trans h₁))))

theorem half_ne_whole : ascii "half" ≠ ascii "whole" := by decide

/-- At an offset of its own the half-power mask is set or cleared as the value says. -/
theorem heatByte_half {ho wo : Nat} (hne : ho ≠ wo) (hm wm : Byte) (v : Val) (b : Byte) :
    heatByte ho hm wo wm v ho b &&& hm = if v = .txt (ascii "half") then hm else 0x00 := by
  by_cases hv : v = .txt (ascii "half")
  · simp [heatByte, thenByte, ifByte, orByte, andNotByte, hne, hv, or_and_self]
  · simp [heatByte, thenByte, ifByte, orByte, andNotByte, hne, hv, andNot_and_self]

theorem heatByte_whole {ho wo : Nat} (hne : ho ≠ wo) (hm wm : Byte) (v : Val) (b : Byte) :
    heatByte ho hm wo wm v wo b &&& wm = if v = .txt (ascii "whole") then wm else 0x00 := by
  by_cases hv : v = .txt (ascii "whole")
  · simp [heatByte, thenByte, ifByte, orByte, andNotByte, hne.symm, hv, half_ne_whole.symm, or_and_self]
  · simp [heatByte, thenByte, ifByte, orByte, andNotByte, hne.symm, hv, andNot_and_self]

/-- At one offset both masks are cleared before one of them is set, so exactly its bits remain. -/
theorem heatByte_both (o : Nat) (hm wm : Byte) (v : Val) (b : Byte) :
    heatByte o hm o wm v o b &&& (hm ||| wm)
      = if v = .txt (ascii "half") then hm else if v = .txt (ascii "whole") then wm else 0x00 := by
  have hclear : b &&& ~~~hm &&& ~~~wm &&& (hm ||| wm) = 0x00 := by ext i hi; simp; grind
  have hhalf : hm &&& (hm ||| wm) = hm := by grind
  have hwhole : wm &&& (hm ||| wm) = wm := by grind
  by_cases hh : v = .txt (ascii "half")
  · simp [heatByte, thenByte, ifByte, orByte, andNotByte, hh, half_ne_whole, BitVec.and_or_distrib_right, hclear, hhalf]
  · by_cases hw : v = .txt (ascii "whole")
    · simp [heatByte, thenByte, ifByte, orByte, andNotByte, hw, half_ne_whole.symm, BitVec.and_or_distrib_right, hclear, hwhole]
    · simp [heatByte, thenByte, ifByte, andNotByte, hh, hw, hclear]

/-- Settles O42: the row clears both masks and then sets the one its value names. -/
theorem heatControlSetsTheNamedBits : Obligations.HeatControlSetsTheNamedBits := by
  intro s r pre post ho wo hm wm v hs hrq hf hrows hv hhalf hwhole
  obtain ⟨F₁, F₂, F, hexec, hrun⟩ := execTxFull_rowRun hs hrq hf hrows
  have hho : InWindow s.cfg ho := hrun.inWindow (.inl rfl)
  have hwo : InWindow s.cfg wo := hrun.inWindow (.inr rfl)
  obtain ⟨⟨hi, wi⟩, -⟩ := hrun.before_inside
  have hmaps : Maps (heatByte ho hm wo wm v) F₁ (execEncRow s.cfg.encFull r (.heat ho hm wo wm) (.ofSeq F₁)) := by
    rw [execEncRow, hv]
    exact execHeatRow_maps hm wm v hi wi
  obtain ⟨b, hb⟩ := hrun.after_reads ho hho
  obtain ⟨c, hc⟩ := hrun.after_reads wo hwo
  obtain ⟨b', hb'⟩ := hrun.reads hmaps hho
  obtain ⟨c', hc'⟩ := hrun.reads hmaps hwo
  have hbits := hrun.after_bits ho hm hho hhalf
  have hcits := hrun.after_bits wo wm hwo hwhole
  refine ⟨F, b, c, hexec, hb, hc, fun hne => ⟨?_, ?_⟩, fun heq => ?_⟩
  · rw [bitsAt_of_read hb, bitsAt_of_read hb', heatByte_half hne] at hbits
    exact Option.some.inj hbits
  · rw [bitsAt_of_read hc, bitsAt_of_read hc', heatByte_whole hne] at hcits
    exact Option.some.inj hcits
  · subst heq
    have hboth := bitsAt_or_congr hbits hcits
    rw [bitsAt_of_read hb, bitsAt_of_read hb', heatByte_both] at hboth
    exact Option.some.inj hboth

/-! ### The `MODE` row -/

section
variable {F : List Byte} {regions : List (Nat × Nat)} {table : List (Str × ModeEnc)} (hr : RegionsInside F regions)
include hr

/-- The `MODE` row on a name of its table: the regions are cleared, then what the name stands for is set. -/
theorem execModeRow_maps_of_mem (ht : TableInside F table) (hnd : (table.map (·.1)).Nodup) {name : Str} {enc : ModeEnc}
    (hmem : (name, enc) ∈ table) :
    Maps (thenByte (clearByte regions) (setModeByte enc)) F (execModeRow regions table (.txt name) (.ofSeq F)) := by
  have hset : execModeRow regions table (.txt name) (.ofSeq F) = clearRegions (.ofSeq F) regions >>= (setModeEnc · enc) := by
    simp only [execModeRow, lookup_of_mem hnd hmem]
  rw [hset]
  exact (clearRegions_maps hr).bind fun F' hl => setModeEnc_maps ((ht _ hmem).of_length hl)

/-- The `MODE` row on a number or on a name that is not in its table: the regions are cleared, and nothing is set. -/
theorem execModeRow_maps_of_not_mem {m : Val} (hm : ∀ e ∈ table, m ≠ .txt e.1) :
    Maps (clearByte regions) F (execModeRow regions table m (.ofSeq F)) := by
  have hclear : execModeRow regions table m (.ofSeq F) = clearRegions (.ofSeq F) regions >>= Except.ok := by
    cases m with
    | num n => rfl
    | txt name =>
      have hnone : table.lookup name = none :=
        List.lookup_eq_none_iff.mpr fun e he => bne_iff_ne.mpr fun heq => hm e he (congrArg Val.txt heq)
      simp only [execModeRow, hnone]
  rw [hclear]
  exact (clearRegions_maps hr).bind fun F' _ => Maps.refl

end

section
variable {cfg : Config} {rq : Request} {pre post : List EncRow} {regions : List (Nat × Nat)} {table : List (Str × ModeEnc)}
  {F₁ F₂ F : List Byte} (h : RowRun cfg rq pre (.mode regions table) post F₁ F₂ F)
include h

/-- What a `control.mode` that names an entry leaves at an offset of the window. -/
theorem RowRun.mode_listed {name : Str} {enc : ModeEnc} (hm : rq.controlField (ascii "mode") = some (.txt name))
    (he : (name, enc) ∈ table) {a : Nat} (ha : InWindow cfg a) :
    ∃ b, memReadOpt F₂ a = some (setModeByte enc a (clearByte regions a b)) := by
  obtain ⟨⟨hr, ht⟩, -⟩ := h.before_inside
  have hnd : (table.map (·.1)).Nodup := nodup_of_distinct ((wellFormed_mode h.wf).2 _ h.mem)
  refine h.reads (f := thenByte (clearByte regions) (setModeByte enc)) ?_ ha
  rw [execEncRow, hm]
  exact execModeRow_maps_of_mem hr ht hnd he

/-- In the frame, an offset of a region holds what the entry sets on a zero byte. -/
theorem RowRun.mode_listed_region {name : Str} {enc : ModeEnc} (hm : rq.controlField (ascii "mode") = some (.txt name))
    (he : (name, enc) ∈ table) {a : Nat} (ha : Config.inRegions regions a = true)
    (hk : rowsKeep cfg.encFull post rq a 0xFF = true) : memReadOpt F a = some (setModeByte enc a 0x00) := by
  have hin : InWindow cfg a := h.inWindow (.inl ha)
  obtain ⟨b, hb⟩ := h.mode_listed hm he hin
  rw [h.after_byte hin hk, hb, clearByte, if_pos ha]

/-- In the frame, an offset of a region is zero when `control.mode` names no entry. -/
theorem RowRun.mode_unlisted_region {m : Val} (hm : rq.controlField (ascii "mode") = some m) (hnot : ∀ e ∈ table, m ≠ .txt e.1)
    {a : Nat} (ha : Config.inRegions regions a = true) (hk : rowsKeep cfg.encFull post rq a 0xFF = true) :
    memReadOpt F a = some 0x00 := by
  obtain ⟨⟨hr, -⟩, -⟩ := h.before_inside
  have hin : InWindow cfg a := h.inWindow (.inl ha)
  have hmaps : Maps (clearByte regions) F₁ (execEncRow cfg.encFull rq (.mode regions table) (.ofSeq F₁)) := by
    rw [execEncRow, hm]
    exact execModeRow_maps_of_not_mem hr hnot
  obtain ⟨b, hb⟩ := h.reads hmaps hin
  rw [h.after_byte hin hk, hb, clearByte, if_pos ha]

end

/-- Settles O40: at an offset of a region the row leaves what the entry sets on a zero byte, whatever stood there before. -/
theorem modePrecedence : Obligations.ModePrecedence := by
  intro s r pre post regions table m hs hrq hf hm hrows
  obtain ⟨F₁, F₂, F, hexec, hrun⟩ := execTxFull_rowRun hs hrq hf hrows
  have hentry : ∀ {name enc}, (name, enc) ∈ table → InWindow s.cfg (Config.modeEncOff enc) := fun he =>
    hrun.inWindow (.inr ⟨_, he, rfl⟩)
  have hbit : ∀ name o mask, m = .txt name → (name, .bit o mask) ∈ table →
      ∀ a, Config.inRegions regions a = true → rowsKeep s.cfg.encFull post r a 0xFF = true →
        memReadOpt F a = some (if a = o then mask else 0x00) := by
    rintro name o mask rfl he a ha hk
    rw [hrun.mode_listed_region hm he ha hk, setModeByte, orByte, show (0x00 : Byte) ||| mask = mask from BitVec.zero_or]
  refine ⟨F, hexec, fun name o mask hname he => ⟨fun hk => ?bits, hbit name o mask hname he⟩,
    fun name o v hname he => ⟨fun hk => ?byte, fun a ha hne hk => ?other⟩,
    fun hnot a ha hk => hrun.mode_unlisted_region hm hnot ha hk, fun hsummer h13 h14 => ?summer⟩
  case bits =>
    have ho : InWindow s.cfg o := hentry he
    obtain ⟨b, hb⟩ := hrun.mode_listed (hname ▸ hm) he ho
    refine hrun.after_eq ho hk ?_
    rw [bitsAt_of_read hb, setModeByte, orByte, if_pos rfl, or_and_self]
  case byte =>
    have ho : InWindow s.cfg o := hentry he
    obtain ⟨b, hb⟩ := hrun.mode_listed (hname ▸ hm) he ho
    rw [hrun.after_byte ho hk, hb, setModeByte, setByte, if_pos rfl]
  case other => rw [hrun.mode_listed_region (hname ▸ hm) he ha hk, setModeByte, setByte, if_neg hne]
  case summer =>
    obtain ⟨r13, r14, he⟩ := wellFormed_summer hs hrun.mem
    exact ⟨hbit _ _ _ hsummer he 13 r13 h13, hbit _ _ _ hsummer he 14 r14 h14⟩

/-! ### `NUMF` rows -/

/-- The bits that clearing an entry of a `MODE` table clears. -/
def clearedMask : ModeEnc → Byte
  | .bit _ mask => mask
  | .byte _ _ => 0xFF

/-- Clearing an entry leaves none of its bits. -/
theorem clearModeByte_and (enc : ModeEnc) (b : Byte) :
    clearModeByte enc (Config.modeEncOff enc) b &&& clearedMask enc = 0x00 := by
  cases enc with
  | bit o m => rw [clearModeByte, Config.modeEncOff, andNotByte, if_pos rfl, clearedMask, andNot_and_self]
  | byte o v => exact (congrArg (· &&& _) (if_pos rfl)).trans BitVec.zero_and

/-- Clearing an entry sets no bit. -/
theorem clearModeByte_zero (enc : ModeEnc) {a : Nat} {b mask : Byte} (h : b &&& mask = 0x00) :
    clearModeByte enc a b &&& mask = 0x00 := by
  cases enc with
  | bit o m =>
    rw [clearModeByte, andNotByte]
    split
    · rw [BitVec.and_assoc, BitVec.and_comm (~~~m), ← BitVec.and_assoc, h]
      exact BitVec.zero_and
    · exact h
  | byte o v =>
    rw [clearModeByte, setByte]
    split
    · exact BitVec.zero_and
    · exact h

/-- `ModeSelClear()` leaves no bit of any entry of the table and sets none (43_fieldmap.md R120). -/
theorem clearModeTable_clears {table : List (Str × ModeEnc)} {F : List Byte} (h : TableInside F table) :
    ∃ G, clearModeTable (.ofSeq F) table = .ok (.ofSeq G) ∧ G.length = F.length
      ∧ (∀ e ∈ table, bitsAt G (Config.modeEncOff e.2) (clearedMask e.2) = some 0x00)
      ∧ ∀ a mask, bitsAt F a mask = some 0x00 → bitsAt G a mask = some 0x00 := by
  induction table generalizing F with
  | nil => exact ⟨F, rfl, rfl, by simp, fun _ _ hz => hz⟩
  | cons e rest ih =>
    have he := h e (by simp)
    obtain ⟨F', hF', hl', hread⟩ := clearModeEnc_maps he
    obtain ⟨G, hG, hl, hcleared, hkeep⟩ := ih (F := F') fun e' he' => (h e' (by simp [he'])).of_length hl'
    refine ⟨G, by rw [clearModeTable, hF', bind_ok, hG], hl.trans hl', fun e' he' => ?_, fun a mask hz => hkeep a mask ?_⟩
    · rcases List.mem_cons.mp he' with rfl | he'
      · obtain ⟨b, hb⟩ := exists_byte he
        exact hkeep _ _ (by rw [bitsAt_of_read (hread _ b hb), clearModeByte_and])
      · exact hcleared e' he'
    · obtain ⟨b, hb, hb0⟩ := bitsAt_eq_some.mp hz
      rw [bitsAt_of_read (hread a b hb), clearModeByte_zero e.2 hb0]

/-- The table that `ModeSelClear()` clears is the `MODE` row's. -/
theorem exists_mode_modeTable {rows : List EncRow} {regions : List (Nat × Nat)} {table : List (Str × ModeEnc)}
    (h : .mode regions table ∈ rows) : ∃ regions', .mode regions' (modeTable rows) ∈ rows := by
  induction rows with
  | nil => simp at h
  | cons row rest ih =>
    cases row with
    | mode regions' table' => exact ⟨regions', by simp [modeTable]⟩
    | bool _ _ _ | heat _ _ _ _ | numf _ _ _ _ =>
      obtain ⟨regions', h'⟩ := ih (by simpa using h)
      exact ⟨regions', List.mem_cons_of_mem _ h'⟩

section
variable {cfg : Config} {rq : Request} {pre post : List EncRow} {name : Str} {off : Nat} {fallback clearsMode : Bool}
  {F₁ F₂ F : List Byte} (h : RowRun cfg rq pre (.numf name off fallback clearsMode) post F₁ F₂ F)
include h

/-- A numeric control value: the table is cleared where the row says so, then the number is copied (43_fieldmap.md R120). -/
theorem RowRun.numf_control {n : Nat} (hc : rq.controlField name = some (.num n)) :
    ∃ G, Inside G off ∧ setNum (.ofSeq G) off n = .ok (.ofSeq F₂)
      ∧ (clearsMode = true → ∀ e ∈ modeTable cfg.encFull, bitsAt G (Config.modeEncOff e.2) (clearedMask e.2) = some 0x00) := by
  obtain ⟨hoff, ht⟩ := h.before_inside
  have hrun := h.run
  rw [execEncRow, hc, execNumfRow] at hrun
  cases clearsMode with
  | false => exact ⟨F₁, hoff, hrun, by simp⟩
  | true =>
    obtain ⟨G, hG, hl, hcleared, -⟩ := clearModeTable_clears ht
    rw [applyIf_true, modeSelClear, hG, bind_ok] at hrun
    exact ⟨G, Inside.of_length hoff hl, hrun, fun _ => hcleared⟩

/-- A numeric control value is copied verbatim. -/
theorem RowRun.numf_copies_control {n : Nat} (hc : rq.controlField name = some (.num n)) :
    (memReadOpt F₂ off).map BitVec.toNat = some n := by
  obtain ⟨G, hoff, hset, -⟩ := h.numf_control hc
  exact memReadOpt_of_setNum hoff hset

/-- A row that falls back copies a numeric status value verbatim when there is no control value. -/
theorem RowRun.numf_copies_status {n : Nat} (hfb : fallback = true) (hc : rq.controlField name = none)
    (hst : rq.statusField name = some (.num n)) : (memReadOpt F₂ off).map BitVec.toNat = some n := by
  obtain ⟨hoff, -⟩ := h.before_inside
  have hrun := h.run
  rw [execEncRow, hc, hst, execNumfRow, hfb, applyIf_true] at hrun
  exact memReadOpt_of_setNum hoff hrun

/-- A row with `clears_mode` and a numeric control value leaves no bit of the `MODE` table but at its own offset. -/
theorem RowRun.numf_clears {n : Nat} (hc : rq.controlField name = some (.num n))
    (hcm : clearsMode = true) {regions : List (Nat × Nat)} {table : List (Str × ModeEnc)}
    (hrow : .mode regions table ∈ cfg.encFull) {e : Str × ModeEnc} (he : e ∈ table) (hne : Config.modeEncOff e.2 ≠ off) :
    bitsAt F₂ (Config.modeEncOff e.2) (clearedMask e.2) = some 0x00 := by
  obtain ⟨regions', hrow'⟩ := exists_mode_modeTable hrow
  obtain ⟨-, htable⟩ := mode_unique h.wf hrow hrow'
  obtain ⟨G, hoff, hset, hcleared⟩ := h.numf_control hc
  rcases setNum_cases n hoff with ⟨-, F', hF', -, hkeep⟩ | ⟨-, hrefuse⟩
  · obtain rfl : F' = F₂ := ofSeq_inj (Except.ok.inj (hF'.symm.trans hset))
    rw [bitsAt_congr (hkeep _ hne)]
    exact hcleared hcm e (htable ▸ he)
  · cases hrefuse.symm.trans hset

end

/-- Settles O41: the row's last write is the number at its own offset, and before it the table is cleared. -/
theorem numericFieldIsCopied : Obligations.NumericFieldIsCopied := by
  intro s r pre post name off fallback clearsMode hs hrq hf hrows
  obtain ⟨F₁, F₂, F, hexec, hrun⟩ := execTxFull_rowRun hs hrq hf hrows
  have hoff : InWindow s.cfg off := hrun.inWindow (.inl rfl)
  refine ⟨F, hexec, fun hk => ?copied, fun n regions table hc hcm hrow modeName => ?cleared⟩
  case copied =>
    rw [hrun.after_byte hoff hk]
    exact ⟨fun n hc => hrun.numf_copies_control hc, fun n hc hfb hst => hrun.numf_copies_status hfb hc hst⟩
  case cleared =>
    have hentry : ∀ {enc}, (modeName, enc) ∈ table → Config.modeEncOff enc ≠ off →
        InWindow s.cfg (Config.modeEncOff enc) ∧ bitsAt F₂ (Config.modeEncOff enc) (clearedMask enc) = some 0x00 :=
      fun he hne => ⟨inWindow_of_rowWrites hs hrow (.inr ⟨_, he, rfl⟩), hrun.numf_clears hc hcm hrow he hne⟩
    refine ⟨fun o mask he hne hk => ?_, fun o v he hne hk => ?_⟩
    · obtain ⟨ho, hz⟩ := hentry he hne
      exact hrun.after_eq ho hk hz
    · obtain ⟨ho, hz⟩ := hentry he hne
      exact (hrun.after_byte ho hk).trans ((bitsAt_full F₂ o).symm.trans hz)

end Sys2Proof.Machine
end

section
/-! PROOFS. The fields of a status report (43_fieldmap.md R122 to R125, 45_parser.md R173 to R179): which row of `DEC_STATUS`
writes a field last, and what that row leaves there. -/

namespace Sys2Proof.Machine

open Sys2Proof.Claims

/-! ### The text of an `ENUM` row -/

/-- The one pattern that the masked byte equals decides the text (43_fieldmap.md R123). -/
theorem enumText_of_mem {mask b p : Byte} {patterns : List (Byte × Str)} {vFallback text : Str}
    (hnd : (patterns.map (·.1)).Nodup) (h : (p, text) ∈ patterns) (hb : b &&& mask = p) :
    enumText mask patterns vFallback b = text := by
  rw [enumText, hb, lookup_of_mem hnd h, Option.getD_some]

theorem enumText_of_no_match {mask b : Byte} {patterns : List (Byte × Str)} {vFallback : Str}
    (h : ∀ p text, (p, text) ∈ patterns → b &&& mask ≠ p) : enumText mask patterns vFallback b = vFallback := by
  have hnone : patterns.lookup (b &&& mask) = none :=
    List.lookup_eq_none_iff.mpr fun p hp => bne_iff_ne.mpr (h p.1 p.2 hp)
  rw [enumText, hnone, Option.getD_none]

/-! ### Which rows write a field -/

/-- A row writes its own field; besides it a `FLAG` row may write `mode`, and the `HEATD` row writes `heat`. -/
theorem decWrites_cases {row : DecRow} {m : Str} (h : decWrites row m) :
    m ∈ Config.decNames [row] ∨ m = ascii "mode" ∨ (row = .heatd ∧ m = ascii "heat") := by
  cases row with
  | flag name off mask pat vSet vClr modeName =>
    rcases h with h | ⟨-, h⟩
    · exact .inl (List.mem_singleton.mpr h)
    · exact .inr (.inl h)
  | enum name off mask patterns vFallback => exact .inl (List.mem_singleton.mpr h)
  | num name off => exact .inl (List.mem_singleton.mpr h)
  | heatd => exact .inr (.inr ⟨rfl, h⟩)

theorem decNames_append (rows rows' : List DecRow) :
    Config.decNames (rows ++ rows') = Config.decNames rows ++ Config.decNames rows' := List.filterMap_append

theorem decNames_subset {row : DecRow} {rows : List DecRow} (h : row ∈ rows) {m : Str} (hm : m ∈ Config.decNames [row]) :
    m ∈ Config.decNames rows := by
  obtain ⟨pre, post, rfl⟩ := List.append_of_mem h
  rw [decNames_append, ← List.singleton_append (l := post), decNames_append]
  simp [hm]

/-- A field that is no row's own, and is neither `mode` nor `heat`, is left alone. -/
theorem docGet_execDecRows_of_no_name (free : Bool) (S : List Byte) {rows : List DecRow} (d : Doc) {m : Str}
    (hm : m ∉ Config.decNames rows) (hmode : m ≠ ascii "mode") (hheat : m ≠ ascii "heat") :
    docGet (execDecRows free S rows d) m = docGet d m :=
  docGet_execDecRows_other free S rows d fun row hrow hw => by
    rcases decWrites_cases hw with h | h | ⟨-, h⟩
    · exact hm (decNames_subset hrow h)
    · exact hmode h
    · exact hheat h

/-! ### What a row leaves in its own field -/

section
variable (free : Bool) {S : List Byte} (d : Doc) {name : Str} {off : Nat} {b : Byte} (hb : memReadOpt S off = some b)
include hb

theorem docGet_flagRow {mask pat : Byte} {vSet vClr : Str} {modeName : Option Str} (hname : name ≠ ascii "mode") :
    docGet (execDecRow free S (.flag name off mask pat vSet vClr modeName) d) name
      = some (.txt (if b &&& mask = pat then vSet else vClr)) := by
  simp only [execDecRow, hb, execFlagRow, flagMatches, beq_iff_eq]
  split
  · cases modeName with
    | none => exact docGet_docSet_same d name _
    | some m => exact (docGet_docSet_other _ _ hname).trans (docGet_docSet_same d name _)
  · exact docGet_docSet_same d name _

theorem docGet_enumRow {mask : Byte} {patterns : List (Byte × Str)} {vFallback : Str} :
    docGet (execDecRow free S (.enum name off mask patterns vFallback) d) name
      = some (.txt (enumText mask patterns vFallback b)) := by
  simp only [execDecRow, hb, docGet_docSet_same]

theorem docGet_numRow : docGet (execDecRow free S (.num name off) d) name = some (.num b.toNat) := by
  simp only [execDecRow, hb, docGet_docSet_same]

end

/-- The field of a row stands in the report as the row left it: no other row writes it. -/
theorem docGet_parseStatus_of_row {cfg : Config} (h : cfg.wellFormed = true) (S : List Byte) {row : DecRow}
    (hrow : row ∈ cfg.decStatus) {name : Str} (hname : Config.decNames [row] = [name]) :
    name ≠ ascii "mode" ∧ ∃ d, docGet (parseStatus cfg S) name
      = docGet (execDecRow (cfg.freeHeat (readPart S)) S row d) name := by
  obtain ⟨hnd, hmode, hheat⟩ := wellFormed_decNames h
  have hmem : name ∈ Config.decNames cfg.decStatus := decNames_subset hrow (by simp [hname])
  have hne : name ≠ ascii "mode" := ne_of_mem_of_not_mem hmem hmode
  obtain ⟨pre, post, hrows⟩ := List.append_of_mem hrow
  rw [hrows, decNames_append, ← List.singleton_append (l := post), decNames_append, hname] at hnd
  have hpost : name ∉ Config.decNames post := by simp_all [List.nodup_append]
  refine ⟨hne, execDecRows (cfg.freeHeat (readPart S)) S pre (startDoc cfg), ?_⟩
  rw [parseStatus, hrows, execDecRows_append, execDecRows,
    docGet_execDecRows_of_no_name _ _ _ hpost hne (ne_of_mem_of_not_mem hmem hheat), withModeDefault_eq]

/-- Settles O49: each row's field stands as its row left it, and `power` is a `FLAG` row (43_fieldmap.md R128). -/
theorem statusFieldsFollowTheirRows : Obligations.StatusFieldsFollowTheirRows := by
  intro cfg S hcfg
  obtain ⟨-, -, hpower, -⟩ := wellFormed_knownRows hcfg
  have hflag : ∀ name off mask pat vSet vClr modeName b, .flag name off mask pat vSet vClr modeName ∈ cfg.decStatus →
      memReadOpt S off = some b →
      docGet (parseStatus cfg S) name = some (.txt (if b &&& mask = pat then vSet else vClr)) := by
    intro name off mask pat vSet vClr modeName b hrow hb
    obtain ⟨hne, d, hd⟩ := docGet_parseStatus_of_row hcfg S hrow rfl
    exact hd.trans (docGet_flagRow _ d hb hne)
  refine ⟨hflag, fun name off mask patterns vFallback b hrow hb => ?enum, fun name off b hrow hb => ?num, fun b hb => ?power⟩
  case enum =>
    obtain ⟨-, d, hd⟩ := docGet_parseStatus_of_row hcfg S hrow rfl
    rw [hd, docGet_enumRow _ d hb]
    exact ⟨fun p text hp he => by rw [enumText_of_mem (wellFormed_patterns hcfg hrow) hp he],
      fun hno => by rw [enumText_of_no_match hno]⟩
  case num =>
    obtain ⟨-, d, hd⟩ := docGet_parseStatus_of_row hcfg S hrow rfl
    exact hd.trans (docGet_numRow _ d hb)
  case power => exact hflag _ _ _ _ _ _ _ b hpower hb

/-! ### The field `mode` -/

/-- What a row makes of `mode` (43_fieldmap.md R122). -/
theorem docGet_mode_execDecRow (free : Bool) (S : List Byte) {row : DecRow} (d : Doc)
    (h : ascii "mode" ∉ Config.decNames [row]) :
    docGet (execDecRow free S row d) (ascii "mode") = ((raisedMode S row).map Val.txt).or (docGet d (ascii "mode")) := by
  cases row with
  | flag name off mask pat vSet vClr modeName =>
    have hne : ascii "mode" ≠ name := by simpa [Config.decNames] using h
    simp only [execDecRow, raisedMode]
    cases memReadOpt S off with
    | none => rfl
    | some b =>
      simp only [execFlagRow, flagMatches, beq_iff_eq]
      split
      · cases modeName with
        | none => exact docGet_docSet_other d _ hne
        | some m => exact docGet_docSet_same _ _ _
      · exact docGet_docSet_other d _ hne
  | enum name off mask patterns vFallback => exact docGet_execDecRow_other free S _ d fun hw => h (List.mem_singleton.mpr hw)
  | num name off => exact docGet_execDecRow_other free S _ d fun hw => h (List.mem_singleton.mpr hw)
  | heatd => exact docGet_execDecRow_other free S .heatd d (show ascii "mode" ≠ ascii "heat" by decide)

/-- The last raised flag decides `mode`; without one it stays as it was. -/
theorem docGet_mode_execDecRows (free : Bool) (S : List Byte) {rows : List DecRow} (d : Doc)
    (h : ascii "mode" ∉ Config.decNames rows) : docGet (execDecRows free S rows d) (ascii "mode")
      = (((rows.filterMap (raisedMode S)).getLast?).map Val.txt).or (docGet d (ascii "mode")) := by
  induction rows generalizing d with
  | nil => rfl
  | cons row rest ih =>
    rw [← List.singleton_append, decNames_append, List.mem_append, not_or] at h
    rw [execDecRows, ih _ h.2, docGet_mode_execDecRow free S d h.1, List.filterMap_cons]
    cases raisedMode S row with
    | none => rfl
    | some m =>
      rw [List.getLast?_cons]
      cases (rest.filterMap (raisedMode S)).getLast? <;> rfl

/-- Settles O50: before the rows `mode` is absent, and no row writes it as its own field. -/
theorem modeNamesTheLastFlagSet : Obligations.ModeNamesTheLastFlagSet := by
  intro cfg S hcfg
  obtain ⟨-, hmode, -⟩ := wellFormed_decNames hcfg
  have hstart : docGet (startDoc cfg) (ascii "mode") = none := by
    rw [docGet_startDoc, if_neg (by decide)]
  rw [parseStatus, docGet_mode_execDecRows _ _ _ hmode, withModeDefault_eq, hstart, Option.or_none]

/-! ### The field `heat` -/

theorem takeWhile_prefix_of_eq {α : Type} [DecidableEq α] {l pre post : List α} {a : α} (h : l = pre ++ a :: post)
    (ha : a ∉ pre) : l.takeWhile (· != a) = pre := by
  subst h
  rw [List.takeWhile_append_of_pos fun x hx => bne_iff_ne.mpr (ne_of_mem_of_not_mem hx ha)]
  simp

/-- A `FLAG` row of a name writes it as its own field. -/
theorem mem_decNames_of_isFlag {rows : List DecRow} {name : Str} (h : rows.any (Config.isFlag name) = true) :
    name ∈ Config.decNames rows := by
  obtain ⟨row, hrow, hflag⟩ := List.any_eq_true.mp h
  refine decNames_subset hrow ?_
  cases row with
  | flag n off mask pat vSet vClr modeName =>
    obtain rfl : n = name := by simpa [Config.isFlag] using hflag
    simp [Config.decNames]
  | enum _ _ _ _ _ | num _ _ | heatd => cases hflag

/-- `DEC_STATUS` around its one `HEATD` row, which stands after the two raw flags (43_fieldmap.md R125, R130; log 18). -/
theorem decStatus_around_heatd {cfg : Config} (h : cfg.wellFormed = true) :
    ∃ pre post, cfg.decStatus = pre ++ .heatd :: post ∧ .heatd ∉ pre ∧ .heatd ∉ post
      ∧ ascii "half_heat" ∈ Config.decNames pre ∧ ascii "whole_heat" ∈ Config.decNames pre := by
  obtain ⟨-, -, -, hok⟩ := wellFormed_knownRows h
  simp only [Config.heatdOk, Bool.and_eq_true, beq_iff_eq] at hok
  obtain ⟨⟨hcount, hhalf⟩, hwhole⟩ := hok
  obtain ⟨pre, post, hrows⟩ := List.append_of_mem (List.count_pos_iff.mp (by omega : 0 < cfg.decStatus.count .heatd))
  rw [hrows, List.count_append, List.count_cons_self] at hcount
  have hpre : DecRow.heatd ∉ pre := List.count_eq_zero.mp (by omega)
  have hpost : DecRow.heatd ∉ post := List.count_eq_zero.mp (by omega)
  rw [takeWhile_prefix_of_eq hrows hpre] at hhalf hwhole
  exact ⟨pre, post, hrows, hpre, hpost, mem_decNames_of_isFlag hhalf, mem_decNames_of_isFlag hwhole⟩

/-- Rows that are no `HEATD` and are not named so leave `heat` alone. -/
theorem docGet_heat_execDecRows (free : Bool) (S : List Byte) {rows : List DecRow} (d : Doc)
    (hname : ascii "heat" ∉ Config.decNames rows) (hheatd : .heatd ∉ rows) :
    docGet (execDecRows free S rows d) (ascii "heat") = docGet d (ascii "heat") :=
  docGet_execDecRows_other free S rows d fun row hrow hw => by
    rcases decWrites_cases hw with h | h | ⟨rfl, -⟩
    · exact hname (decNames_subset hrow h)
    · exact absurd h (by decide)
    · exact hheatd hrow

/-- The report's `heat` is what the `HEATD` row makes of the two raw fields as they stand in the report. -/
theorem docGet_parseStatus_heat {cfg : Config} (h : cfg.wellFormed = true) (S : List Byte) :
    ∃ d, docGet d (ascii "heat") = none
      ∧ docGet d (ascii "half_heat") = docGet (parseStatus cfg S) (ascii "half_heat")
      ∧ docGet d (ascii "whole_heat") = docGet (parseStatus cfg S) (ascii "whole_heat")
      ∧ docGet (parseStatus cfg S) (ascii "heat")
        = docGet (execHeatdRow (cfg.freeHeat (readPart S)) d) (ascii "heat") := by
  obtain ⟨pre, post, hrows, hpre, hpost, hhalf, hwhole⟩ := decStatus_around_heatd h
  obtain ⟨hnd, -, hheat⟩ := wellFormed_decNames h
  have hnames : Config.decNames cfg.decStatus = Config.decNames pre ++ Config.decNames post := by
    rw [hrows, decNames_append]
    rfl
  rw [hnames] at hnd hheat
  rw [List.mem_append, not_or] at hheat
  obtain ⟨-, -, hdisjoint⟩ := List.nodup_append.mp hnd
  have hraw : ∀ name, name ∈ Config.decNames pre → name ≠ ascii "mode" → name ≠ ascii "heat" →
      docGet (execDecRows (cfg.freeHeat (readPart S)) S pre (startDoc cfg)) name = docGet (parseStatus cfg S) name := by
    intro name hname hmode hne
    have hlater : name ∉ Config.decNames post := fun hp => hdisjoint name hname name hp rfl
    rw [parseStatus, hrows, execDecRows_append, execDecRows, docGet_execDecRows_of_no_name _ _ _ hlater hmode hne,
      docGet_execDecRow_other _ _ .heatd _ hne, withModeDefault_eq]
  refine ⟨execDecRows (cfg.freeHeat (readPart S)) S pre (startDoc cfg), ?_, hraw _ hhalf (by decide) (by decide),
    hraw _ hwhole (by decide) (by decide), ?_⟩
  · rw [docGet_heat_execDecRows _ _ _ hheat.1 hpre, docGet_startDoc, if_neg (by decide)]
  · rw [parseStatus, hrows, execDecRows_append, execDecRows, docGet_heat_execDecRows _ _ _ hheat.2 hpost, withModeDefault_eq]
    rfl

/-- The text of `heat`, raw value by raw value (43_fieldmap.md R125). -/
theorem heatText_cases (bothOn : Bool) (h w : Val) :
    (w = .txt (ascii "on") → h ≠ .txt (ascii "on") → heatText bothOn h w = ascii "whole")
      ∧ (h = .txt (ascii "on") → w ≠ .txt (ascii "on") → heatText bothOn h w = ascii "half")
      ∧ (h ≠ .txt (ascii "on") → w ≠ .txt (ascii "on") → heatText bothOn h w = ascii "none")
      ∧ (h = .txt (ascii "on") → w = .txt (ascii "on") →
        heatText bothOn h w = ascii "whole" ∨ heatText bothOn h w = ascii "half") := by
  unfold heatText
  refine ⟨fun hw hh => ?_, fun hh hw => ?_, fun hh hw => ?_, fun hh hw => ?_⟩
  · simp [hw, hh]
  · simp [hw, hh]
  · simp [hw, hh]
  · cases bothOn <;> simp [hw, hh]

/-- Settles O52: no row after `HEATD` changes `heat` or a raw field, and none before it writes `heat`. -/
theorem heatFollowsTheRawBits : Obligations.HeatFollowsTheRawBits := by
  intro cfg S hcfg
  obtain ⟨d, hnone, hhalf, hwhole, hheat⟩ := docGet_parseStatus_heat hcfg S
  rw [hheat, ← hhalf, ← hwhole, execHeatdRow]
  cases docGet d (ascii "half_heat") with
  | none => exact hnone
  | some h =>
    cases docGet d (ascii "whole_heat") with
    | none => exact hnone
    | some w =>
      obtain ⟨hw, hh, hn, hb⟩ := heatText_cases (cfg.freeHeat (readPart S)) h w
      simp only [docGet_docSet_same, Option.some.injEq, Val.txt.injEq]
      exact ⟨hw, hh, hn, hb⟩

end Sys2Proof.Machine
end

section
/-! PROOFS. Ill-formed configurations (43_fieldmap.md R131) and DECODE (46_entry_points.md R198, R200): the order of the checks
before a document is made. -/

namespace Sys2Proof.Machine

open Sys2Proof.Claims

/-! ### The check of the configuration -/

/-- A frame shape is refused before its first write. -/
theorem emitFrame_of_illFormed {s : State} (h : s.cfg.wellFormed = false)
    (branch : FrameBuffer → Except Stop FrameBuffer) : emitFrame s branch = .refused .badConfig := by
  rw [emitFrame, checkConfig_of_illFormed h, bind_refuse, runOp_refuse]

theorem emitControl_of_illFormed {s : State} {rq : Request} (h : s.cfg.wellFormed = false) (hrq : s.rq = some rq)
    (body : Config → Request → FrameBuffer → Except Stop FrameBuffer) : emitControl s body = .refused .badConfig := by
  rw [emitControl_of_rq hrq, emitFrame_of_illFormed h]

theorem extract_of_illFormed {s : State} {S : List Byte} (h : s.cfg.wellFormed = false) (hseq : s.aSeq = some S)
    (hlen : S.length ≤ 256) (parse : Config → List Byte → Doc) : extract s parse = .refused .badConfig := by
  have hread : s.readSeq = .ok S := readSeq_eq_ok.mpr ⟨hseq, hlen⟩
  rw [extract, hread, bind_ok, checkConfig_of_illFormed h, bind_refuse, runOp_refuse]

theorem execAssemble_of_illFormed {s : State} {rq : Request} (h : s.cfg.wellFormed = false) (hrq : s.rq = some rq) :
    execAssemble s = .refused .badConfig := by
  rw [execAssemble, hrq, operand_some, bind_ok, checkConfig_of_illFormed h, bind_refuse, runOp_refuse]

theorem execEncode_of_illFormed {s : State} {rq : Request} (h : s.cfg.wellFormed = false) (hok : s.aOk = some true)
    (hrq : s.rq = some rq) : execEncode s = .refused .badConfig := by
  rw [execEncode, hok, operand_some, bind_ok, if_pos rfl, encodeRequest, hrq, operand_some, bind_ok,
    checkConfig_of_illFormed h, bind_refuse, runOp_refuse]

/-! ### DECODE -/

section
variable {s : State} {T : Str} (hok : s.aOk = some true) (hstr : s.aStr = some (some T))
include hok hstr

/-- DECODE of a string: the conversion, the check of its length, the check of the configuration, the document
(46_entry_points.md R198, R200; log 21). -/
theorem exec_decode_of_str : exec .decode s = runOp do
    let S ← hexToBytes T
    let S ← checkLength S
    checkConfig s.cfg
    return s.completeDoc (parseFrame s.cfg S) := by
  change execDecode s = _
  rw [execDecode, hok, operand_some, bind_ok, if_pos rfl, decodeReport, hstr, operand_some, bind_ok]

theorem exec_decode_of_nonHex (h : hexToBytes T = refuse .nonHexChar) : exec .decode s = .refused .nonHexChar := by
  rw [exec_decode_of_str hok hstr, h, bind_refuse, runOp_refuse]

variable {S : List Byte} (hS : hexToBytes T = .ok S)
include hS

theorem exec_decode_of_long (hlong : 256 < S.length) : exec .decode s = .refused .seqLong := by
  rw [exec_decode_of_str hok hstr, hS, bind_ok, checkLength_of_lt hlong, bind_refuse, runOp_refuse]

theorem exec_decode_of_illFormed (hlen : S.length ≤ 256) (hcfg : s.cfg.wellFormed = false) :
    exec .decode s = .refused .badConfig := by
  rw [exec_decode_of_str hok hstr, hS, bind_ok, checkLength_of_le hlen, bind_ok, checkConfig_of_illFormed hcfg, bind_refuse,
    runOp_refuse]

theorem exec_decode_of_ok (hlen : S.length ≤ 256) (hcfg : s.cfg.wellFormed = true) :
    exec .decode s = .next (okWith s none none none none (some (parseFrame s.cfg S))) := by
  rw [exec_decode_of_str hok hstr, hS, bind_ok, checkLength_of_le hlen, bind_ok, checkConfig_of_wellFormed hcfg]
  rfl

end

/-- HEX2BYTES completes with the bytes of its string only. -/
theorem hexToBytes_of_exec {s : State} {T : Str} {S : List Byte} (hstr : s.aStr = some (some T))
    (h : exec .hex2bytes s = .next (okWith s none none (some S) none none)) : hexToBytes T = .ok S := by
  obtain ⟨R, hR, heq⟩ := (exec_hex2bytes_eq_next hstr).mp h
  obtain rfl : S = R := Option.some.inj (congrArg State.rSeq heq)
  exact hR

/-- Reading a report completes only on a well-formed configuration and an input that is not too long, with the document of the
input. -/
theorem extract_eq_next {s t : State} {parse : Config → List Byte → Doc} (h : extract s parse = .next t) :
    ∃ S, s.aSeq = some S ∧ S.length ≤ 256 ∧ s.cfg.wellFormed = true ∧ t = s.completeDoc (parse s.cfg S) := by
  rw [extract, runOp_eq_next] at h
  obtain ⟨S, hS, h⟩ := bind_eq_ok.mp h
  obtain ⟨u, hu, h⟩ := bind_eq_ok.mp h
  obtain ⟨hseq, hlen⟩ := readSeq_eq_ok.mp hS
  exact ⟨S, hseq, hlen, checkConfig_eq_ok.mp hu, (Except.ok.inj h).symm⟩

/-! ### The obligations -/

/-- Settles O59: HEX2BYTES converts as DECODE does, and where PARSE completes the two checks of DECODE pass. -/
theorem decodeIsHexThenParse : Obligations.DecodeIsHexThenParse := by
  refine ⟨rfl, fun s T hok hstr => ⟨fun S hhex => ?converted, fun hhex => ?nonHex⟩⟩
  case converted =>
    have hS := hexToBytes_of_exec hstr hhex
    refine ⟨fun d hparse => ?_, exec_decode_of_long hok hstr hS, exec_decode_of_illFormed hok hstr hS⟩
    obtain ⟨S', hseq, hlen, hcfg, ht⟩ := extract_eq_next hparse
    obtain rfl : S = S' := Option.some.inj hseq
    obtain rfl : d = parseFrame s.cfg S := Option.some.inj (congrArg State.sd ht)
    exact exec_decode_of_ok hok hstr hS hlen hcfg
  case nonHex => exact exec_decode_of_nonHex hok hstr ((exec_hex2bytes_eq_refused hstr).mp hhex)

/-- Settles O9: the configuration is checked as soon as the operands are read, and 513 characters give 256 bytes. -/
theorem illFormedConfigurationIsRefused : Obligations.IllFormedConfigurationIsRefused := by
  intro s hs
  refine ⟨fun i hi => ?fixed, fun r hrq i hi => ?request, fun S hseq hlen i hi => ?report,
    fun r hok hrq => execEncode_of_illFormed hs hok hrq, fun T hok hstr hlen hhex => ?decode⟩
  case fixed =>
    simp only [List.mem_cons, List.not_mem_nil, or_false] at hi
    rcases hi with rfl | rfl | rfl | rfl <;> exact emitFrame_of_illFormed hs _
  case request =>
    simp only [List.mem_cons, List.not_mem_nil, or_false] at hi
    rcases hi with rfl | rfl | rfl | rfl | rfl | rfl
    · exact execAssemble_of_illFormed hs hrq
    all_goals exact emitControl_of_illFormed hs hrq _
  case report =>
    rw [List.append_assoc, List.singleton_append] at hi
    rcases List.mem_cons.mp hi with rfl | hi
    · exact extract_of_illFormed hs hseq hlen parseFrame
    · obtain ⟨parse, hrow⟩ := exec_reportRow hi
      rw [hrow, extract_of_illFormed hs hseq hlen]
  case decode =>
    obtain ⟨S, hS⟩ := hexToBytes_of_hex hhex
    exact exec_decode_of_illFormed hok hstr hS (by rw [hexToBytes_length hS]; omega) hs

end Sys2Proof.Machine
end

section
/-! PROOFS. ASSEMBLE (44_assembler.md R141 to R145, R158): a query and a control section each select one branch, which the
row of the selected shape runs too; a request with neither has no frame. -/

namespace Sys2Proof.Machine

open Sys2Proof.Claims

/-! ### The branch that ASSEMBLE runs -/

section
variable {s : State} {rq : Request} (hrq : s.rq = some rq)
include hrq

/-- A request for which a frame is built is emitted like a frame shape. -/
theorem execAssemble_of_branch {branch : FrameBuffer → Except Stop FrameBuffer}
    (h : assembleFrame s.cfg rq = buildFrame branch >>= fun fb => pure (some fb)) :
    exec .assemble s = emitFrame s branch := by
  change execAssemble s = _
  rw [execAssemble, hrq, operand_some, bind_ok, h, emitFrame]
  cases buildFrame branch <;> rfl

/-- A query section decides alone (44_assembler.md R141). -/
theorem execAssemble_of_query {q : Query} (hq : rq.query = some q) :
    exec .assemble s = emitFrame s (queryBody (querySub q)) :=
  execAssemble_of_branch hrq (by rw [assembleFrame, hq])

theorem execAssemble_of_controlSection (hq : rq.query = none) (hc : rq.control.isSome) :
    exec .assemble s = emitFrame s (controlBody s.cfg rq) := by
  obtain ⟨d, hd⟩ := Option.isSome_iff_exists.mp hc
  exact execAssemble_of_branch hrq (by rw [assembleFrame, hq, hd])

theorem execAssemble_of_neither (hs : s.cfg.wellFormed = true) (hq : rq.query = none) (hc : rq.control = none) :
    exec .assemble s = .next s.completeNull := by
  change execAssemble s = _
  rw [execAssemble, hrq, operand_some, bind_ok, checkConfig_of_wellFormed hs, bind_ok, assembleFrame, hq, hc, bind_ok]
  rfl

end

/-- Settles O33: the frame buffer stays as it was. -/
theorem noFrameGivesNull : Obligations.NoFrameGivesNull := fun s _ hs hrq hq hc =>
  ⟨s.fb, execAssemble_of_neither hrq hs hq hc⟩

/-! ### The query frame -/

/-- The bytes of a query frame before the final step (44_assembler.md R142). -/
def queryBytes (sub : Byte) : List Byte := Config.hdr ++ [Config.cmdQuery, sub, Config.queryFlag]

theorem queryFrame_eq (sub : Byte) : buildFrame (queryBody sub) = .ok (.ofSeq (finished (queryBytes sub))) := by
  have hbody : queryBody sub (.ofSeq Config.hdr) = .ok (.ofSeq (queryBytes sub)) := rfl
  rw [buildFrame, startFrame_eq, bind_ok, hbody, bind_ok]
  exact finalizeFrame_eq (by simp [queryBytes, Config.hdr]) (by simp [queryBytes, Config.hdr])

theorem emitQuery_eq {s : State} (hs : s.cfg.wellFormed = true) (sub : Byte) :
    emitFrame s (queryBody sub) = .next (frameOf s (finished (queryBytes sub))) :=
  emitFrame_of_build hs (queryFrame_eq sub)

theorem queryStatus_bytes : finished (queryBytes Config.subQueryStatus)
    = [0xAA, 0x0C, 0xE2, 0x00, 0x00, 0x00, 0x00, 0x00, 0x00, 0x03, 0x01, 0x01, 0x0D] := by decide

theorem queryAppoint_bytes : finished (queryBytes Config.subQueryAppt)
    = [0xAA, 0x0C, 0xE2, 0x00, 0x00, 0x00, 0x00, 0x00, 0x00, 0x03, 0x02, 0x01, 0x0C] := by decide

/-- Settles O30: ASSEMBLE of a query is one of the two query shapes, whose thirteen bytes are computed. -/
theorem queryFrame : Obligations.QueryFrame := by
  intro s hs
  refine ⟨fun r q hrq hq => ?_, queryStatus_bytes ▸ emitQuery_eq hs _, queryAppoint_bytes ▸ emitQuery_eq hs _⟩
  rw [execAssemble_of_query hrq hq, emitQuery_eq hs, querySub, ← queryStatus_bytes, ← queryAppoint_bytes]
  split <;> rfl

/-! ### The shape of a control request -/

/-- The control branch is the body under no further slot: the underlying shape and all three overlays. -/
theorem controlBody_eq (cfg : Config) (rq : Request) : controlBody cfg rq = controlThen (bodyUnder cfg rq 3) := by
  have hbody : ∀ fb, bodyUnder cfg rq 3 fb = baseBody cfg rq fb >>= apptOverlays rq := fun fb => by
    simp only [bodyUnder, bind_assoc]
    rfl
  funext fb
  simp only [controlBody, controlThen, hbody]

section
variable {s : State} {rq : Request} (hrq : s.rq = some rq) (hq : rq.query = none) (hc : rq.control.isSome)
include hrq hq hc

/-- The last slot that is present is the row that ASSEMBLE runs (44_assembler.md R154). -/
theorem execAssemble_of_lastSlot {i : Fin 3} (hi : (rq.controlField (slotName i)).isSome)
    (hlast : ∀ j, i < j → rq.controlField (slotName j) = none) : exec .assemble s = exec (apptRow i) s := by
  have hbody : bodyUnder s.cfg rq 3 = apptBody i s.cfg rq := funext fun fb =>
    (bodyUnder_of_absent (m := i.val + 1) (by omega) (by omega) (fun k hk _ => hlast k hk) fb).trans
      (bodyUnder_succ_of_present hi fb)
  rw [execAssemble_of_controlSection hrq hq hc, controlBody_eq, hbody, exec_apptRow, emitControl_of_rq hrq]

/-- Without an appointment field the underlying shape is the row that ASSEMBLE runs (44_assembler.md R143). -/
theorem execAssemble_of_noSlot (habs : ∀ i, rq.controlField (slotName i) = none) {row : Instr}
    (hrow : selectsBase s.cfg rq row) : exec .assemble s = exec row s := by
  have hbody : bodyUnder s.cfg rq 3 = baseBody s.cfg rq :=
    funext (bodyUnder_of_absent (Nat.zero_le _) (by omega) fun k _ _ => habs k)
  rw [execAssemble_of_controlSection hrq hq hc, controlBody_eq, hbody, exec_of_selectsBase hrq hrow]

end

/-- A query runs the row of its type (44_assembler.md R142). -/
theorem execAssemble_of_queryType {s : State} {rq : Request} {q : Query} (hrq : s.rq = some rq) (hq : rq.query = some q) :
    exec .assemble s
      = exec (if q.queryType = some (.txt (ascii "appoint_query")) then .txQueryAppoint else .txQueryStatus) s := by
  rw [execAssemble_of_query hrq hq, querySub]
  split <;> rfl

/-- The power, part or full shape of a control request. -/
def baseRow (cfg : Config) (rq : Request) : Instr :=
  if isOn (rq.controlField (ascii "power")) then .txPowerOn
  else if isOff (rq.controlField (ascii "power")) then .txPowerOff
  else if takesPart cfg rq then .txPart
  else .txFull

theorem selectsBase_baseRow (cfg : Config) (rq : Request) : selectsBase cfg rq (baseRow cfg rq) := by
  rw [baseRow]
  split
  case isTrue hon => exact .inl ⟨rfl, hon⟩
  rename_i hon
  split
  case isTrue hoff => exact .inr (.inl ⟨rfl, hoff⟩)
  rename_i hoff
  refine .inr (.inr ⟨by simpa using hon, by simpa using hoff, ?_⟩)
  split
  case isTrue hpart => exact .inl ⟨rfl, takesPart_iff.mp hpart⟩
  case isFalse hfull => exact .inr ⟨rfl, mt takesPart_iff.mpr hfull⟩

/-- What `shapeSelected` answers for a control request: the last slot that is present, or the underlying shape where none
is. -/
theorem shapeSelected_cases {cfg : Config} {rq : Request} {row : Instr} (hq : rq.query = none)
    (hc : rq.control.isSome) (h : shapeSelected cfg rq = some row) :
    (∃ i, row = apptRow i ∧ (rq.controlField (slotName i)).isSome ∧ ∀ j, i < j → rq.controlField (slotName j) = none)
      ∨ ((∀ i, rq.controlField (slotName i) = none) ∧ selectsBase cfg rq row) := by
  obtain ⟨d, hd⟩ := Option.isSome_iff_exists.mp hc
  simp only [shapeSelected, hq, hd] at h
  split at h
  case isTrue h2 => exact .inl ⟨2, (Option.some.inj h).symm, h2, fun j hj => by omega⟩
  rename_i h2
  rw [Option.not_isSome_iff_eq_none] at h2
  split at h
  case isTrue h1 =>
    refine .inl ⟨1, (Option.some.inj h).symm, h1, fun j hj => ?_⟩
    obtain rfl : j = 2 := by omega
    exact h2
  rename_i h1
  rw [Option.not_isSome_iff_eq_none] at h1
  split at h
  case isTrue h0 =>
    refine .inl ⟨0, (Option.some.inj h).symm, h0, fun j hj => ?_⟩
    obtain rfl | rfl : j = 1 ∨ j = 2 := by omega
    · exact h1
    · exact h2
  rename_i h0
  rw [Option.not_isSome_iff_eq_none] at h0
  obtain rfl : baseRow cfg rq = row := by
    rw [← Option.some_inj, ← h, baseRow]
    simp only [apply_ite some]
  exact .inr ⟨Fin.forall_fin_succ.mpr ⟨h0, Fin.forall_fin_two.mpr ⟨h1, h2⟩⟩, selectsBase_baseRow cfg rq⟩

/-- Settles O5: ASSEMBLE runs the row of each shape in turn, and `shapeSelected` is one of these shapes. -/
theorem stepRunsTheRequestedFrameShape : Obligations.StepRunsTheRequestedFrameShape := by
  intro s r hop hrq
  have hstep : step s = exec .assemble s := step_of_op hop
  rw [hstep]
  refine ⟨fun i hi => ?selected, fun q hq => execAssemble_of_queryType hrq hq,
    fun hq hc => ⟨fun i => execAssemble_of_lastSlot hrq hq hc, fun habs _ => execAssemble_of_noSlot hrq hq hc habs⟩⟩
  case selected =>
    cases hq : r.query with
    | some q =>
      rw [shapeSelected, hq] at hi
      rw [execAssemble_of_queryType hrq hq, Option.some.inj hi]
    | none =>
      cases hc : r.control with
      | none => simp [shapeSelected, hq, hc] at hi
      | some d =>
        have hsome : r.control.isSome := Option.isSome_of_eq_some hc
        rcases shapeSelected_cases hq hsome hi with ⟨j, rfl, hj, hlast⟩ | ⟨habs, hbase⟩
        · exact execAssemble_of_lastSlot hrq hq hsome hj hlast
        · exact execAssemble_of_noSlot hrq hq hsome habs hbase

/-! ### Power on or off -/

section
variable {cfg : Config} {rq rq' : Request}

/-- Power on or off is an underlying shape of fixed bytes, whatever else the request holds (44_assembler.md R144). -/
theorem baseBody_congr_of_power
    (h : isOn (rq.controlField (ascii "power")) = true ∧ isOn (rq'.controlField (ascii "power")) = true
      ∨ isOff (rq.controlField (ascii "power")) = true ∧ isOff (rq'.controlField (ascii "power")) = true) :
    baseBody cfg rq = baseBody cfg rq' := by
  funext fb
  rcases h with ⟨hon, hon'⟩ | ⟨hoff, hoff'⟩
  · rw [baseBody_of_isOn hon, baseBody_of_isOn hon']
  · rw [baseBody_of_isOff hoff, baseBody_of_isOff hoff']

/-- The overlays read the appointment fields only. -/
theorem bodyUnder_congr (hbase : baseBody cfg rq = baseBody cfg rq')
    (h : ∀ i, rq'.controlField (slotName i) = rq.controlField (slotName i)) (n : Nat) :
    bodyUnder cfg rq n = bodyUnder cfg rq' n := by
  induction n with
  | zero => exact hbase
  | succ n ih =>
    funext fb
    have hslot : apptIfPresent rq (Fin.ofNat 3 n) = apptIfPresent rq' (Fin.ofNat 3 n) := by
      have hoverlay : apptOverlay rq (Fin.ofNat 3 n) = apptOverlay rq' (Fin.ofNat 3 n) := by
        funext fb₁
        rw [apptOverlay, apptOverlay, h]
      funext fb₁
      rw [apptIfPresent, apptIfPresent, h, hoverlay]
    rw [bodyUnder, bodyUnder, ih, hslot]

end

/-- Settles O32: both requests select the same control body. -/
theorem powerExcludesOtherFields : Obligations.PowerExcludesOtherFields := by
  intro s r r' hq hq' hc hc' hpower hslots
  have hbody : controlBody s.cfg r = controlBody s.cfg r' := by
    rw [controlBody_eq, controlBody_eq, bodyUnder_congr (baseBody_congr_of_power hpower) hslots]
  rw [execAssemble_of_controlSection (s := { s with rq := some r }) rfl hq hc,
    execAssemble_of_controlSection (s := { s with rq := some r' }) rfl hq' hc', hbody]
  exact emitFrame_with_rq r r'

end Sys2Proof.Machine
end

section
/-! PROOFS. The frames that ASSEMBLE completes with (44_assembler.md R152, R155, R160, R161): on which requests there is one, and
what every one of them satisfies. -/

namespace Sys2Proof.Machine

open Sys2Proof.Claims

/-! ### What a branch leaves before the final step -/

/-- The bytes of a frame before the final step: they leave room for the checksum, and they start with the header and one of the
two command bytes (44_assembler.md R140, R142, R143). -/
structure FrameBytes (F : List Byte) : Prop where
  long : 12 ≤ F.length
  short : F.length ≤ 255
  header : headerOf (finished F) F.length
  command : memReadOpt (finished F) 10 = some 0x02 ∨ memReadOpt (finished F) 10 = some 0x03

theorem frameBytes_query (sub : Byte) : FrameBytes (queryBytes sub) where
  long := by simp [queryBytes, Config.hdr]
  short := by simp [queryBytes, Config.hdr]
  header := ⟨finished_length _, rfl, rfl, rfl, fun a h4 h9 => by interval_cases a <;> rfl⟩
  command := .inr rfl

theorem frameBytes_control {F : List Byte} (h0 : 12 ≤ F.length) (h1 : F.length ≤ 255)
    (hF : ∀ a, a ≤ 10 → memReadOpt F a = memReadOpt controlStart a) : FrameBytes F where
  long := h0
  short := h1
  header := (headerOf_finished (by omega) hF).1
  command := .inl (headerOf_finished (by omega) hF).2

/-! ### The checksum of a finished frame -/

/-- Bytes beyond the upper end of a range do not matter to its sum. -/
theorem sumRange_append_left {F G : List Byte} {a b : Nat} (h1 : 1 ≤ a) (h : b ≤ F.length) :
    sumRange (F ++ G) a b = sumRange F a b := by
  rcases lt_or_ge b a with hempty | hle
  · rw [sumRange_of_lt hempty, sumRange_of_lt hempty]
  · rw [sumRange, sumRange, List.drop_append_of_le_length (by omega),
      List.take_append_of_le_length (by rw [List.length_drop]; omega)]

/-- The last byte of a finished frame is the checksum of the bytes from offset 2 to the one before it (44_assembler.md R160). -/
theorem finished_last (F : List Byte) :
    memReadOpt (finished F) (F.length + 1) = some (cksum (finished F) 2 F.length) := by
  set G := F.set 1 (BitVec.ofNat 8 F.length) with hG
  have hl : G.length = F.length := List.length_set
  have hfin : finished F = G ++ [cksum G 2 F.length] := rfl
  have hsum : cksum (finished F) 2 F.length = cksum G 2 F.length := by
    rw [cksum, cksum, hfin, sumRange_append_left (by omega) hl.ge]
  rw [hsum, hfin, memReadOpt, if_neg (by omega), Nat.add_sub_cancel, ← hl, List.getElem?_concat_length]

/-- The bytes of a finished frame from offset 2 on sum to 0 modulo 256 (44_assembler.md R161). -/
theorem finished_sum {F : List Byte} (h : 1 ≤ F.length) : byteSum (finished F) 2 (F.length + 1) % 256 = 0 := by
  obtain ⟨-, hverify⟩ := cksumVerificationIdentity
  have hiff := hverify (finished F) _ (by rw [finished_length]; omega) (by rw [finished_length]; exact finished_last F)
  rw [finished_length, Nat.add_sub_cancel] at hiff
  rw [byteSum_eq_sumRange (by omega), ← cksum_eq_zero_iff]
  exact hiff.mp rfl

/-! ### When there is a frame -/

section
variable {s : State} {rq : Request} (hs : s.cfg.wellFormed = true) (hrq : s.rq = some rq)
include hs hrq

/-- A control request whose values fit completes with a frame. -/
theorem execAssemble_of_controlFits (hq : rq.query = none) (hc : rq.control.isSome)
    (hf : (baseFits s.cfg rq && slotFits rq 0 && slotFits rq 1 && slotFits rq 2) = true) :
    ∃ F, FrameBytes F ∧ exec .assemble s = .next (frameOf s (finished F)) := by
  rcases controlFrame_cases hs rq with ⟨-, F, hF, h0, h1, hlow⟩ | ⟨hbad, -⟩
  · exact ⟨F, frameBytes_control h0 h1 hlow, execAssemble_of_control hs hrq hq hc hF⟩
  · cases hf.symm.trans hbad

/-- A control request of which the body is refused is refused. -/
theorem execAssemble_of_refuse {r : Refusal} (hq : rq.query = none) (hc : rq.control.isSome)
    (h : buildFrame (controlBody s.cfg rq) = refuse r) : exec .assemble s = .refused r := by
  rw [execAssemble_of_controlSection hrq hq hc, emitFrame, checkConfig_of_wellFormed hs, bind_ok, h, bind_refuse,
    runOp_refuse]

/-- A control request with a value that does not fit is refused for one of four reasons. -/
theorem execAssemble_of_controlMisfit (hq : rq.query = none) (hc : rq.control.isSome)
    (hf : (baseFits s.cfg rq && slotFits rq 0 && slotFits rq 1 && slotFits rq 2) = false) :
    ∃ e ∈ [Refusal.numRange, .apptValue, .apptField, .apptLong], exec .assemble s = .refused e := by
  rcases controlFrame_cases hs rq with ⟨hok, -⟩ | ⟨-, e, he, hF⟩
  · cases hok.symm.trans hf
  · exact ⟨e, by simpa using he, execAssemble_of_refuse hs hrq hq hc hF⟩

/-- A number that does not fit is found before the appointment fields are looked at (60_exceptions.md R208). -/
theorem execAssemble_of_baseMisfit (hq : rq.query = none) (hc : rq.control.isSome) (hb : baseFits s.cfg rq = false) :
    exec .assemble s = .refused .numRange := by
  refine execAssemble_of_refuse hs hrq hq hc ?_
  rcases baseBody_cases hs rq (F := Config.hdr ++ [Config.cmdControl]) rfl with ⟨hok, -⟩ | ⟨-, hbase⟩
  · cases hok.symm.trans hb
  · simp only [buildFrame, startFrame_eq, bind_ok, controlBody, controlStart_eq, hbase, bind_refuse]

/-- All that ASSEMBLE can do: no section, no frame; else a frame when every value fits, and one of four refusals when one does
not. -/
theorem execAssemble_cases :
    (rq.query = none ∧ rq.control = none ∧ exec .assemble s = .next s.completeNull)
      ∨ (encodable s.cfg rq = true ∧ ∃ F, FrameBytes F ∧ exec .assemble s = .next (frameOf s (finished F)))
      ∨ (encodable s.cfg rq = false
        ∧ ∃ e ∈ [Refusal.numRange, .apptValue, .apptField, .apptLong], exec .assemble s = .refused e) := by
  cases hq : rq.query with
  | some q =>
    refine .inr (.inl ⟨by simp [encodable, hq], queryBytes (querySub q), frameBytes_query _, ?_⟩)
    rw [execAssemble_of_query hrq hq, emitQuery_eq hs]
  | none =>
    cases hc : rq.control with
    | none => exact .inl ⟨rfl, rfl, execAssemble_of_neither hrq hs hq hc⟩
    | some d =>
      have hsome : rq.control.isSome := Option.isSome_of_eq_some hc
      have henc : encodable s.cfg rq = (baseFits s.cfg rq && slotFits rq 0 && slotFits rq 1 && slotFits rq 2) := by
        rw [encodable, hq, hc]
      rw [henc]
      cases hf : baseFits s.cfg rq && slotFits rq 0 && slotFits rq 1 && slotFits rq 2 with
      | true => exact .inr (.inl ⟨rfl, execAssemble_of_controlFits hs hrq hq hsome hf⟩)
      | false => exact .inr (.inr ⟨rfl, execAssemble_of_controlMisfit hs hrq hq hsome hf⟩)

end

/-- ASSEMBLE completes only with a request on a well-formed configuration. -/
theorem execAssemble_eq_next {s t : State} (h : exec .assemble s = .next t) :
    s.cfg.wellFormed = true ∧ ∃ rq, s.rq = some rq := by
  change execAssemble s = _ at h
  rw [execAssemble, runOp_eq_next] at h
  obtain ⟨rq, hrq, h⟩ := bind_eq_ok.mp h
  obtain ⟨u, hu, -⟩ := bind_eq_ok.mp h
  exact ⟨checkConfig_eq_ok.mp hu, rq, operand_eq_ok.mp hrq⟩

/-! ### The obligations -/

/-- Settles O44: a completion with `RES = OK` is a finished frame. -/
theorem assembledFramePostconditions : Obligations.AssembledFramePostconditions := by
  intro s t h hok
  obtain ⟨hs, rq, hrq⟩ := execAssemble_eq_next h
  rcases execAssemble_cases hs hrq with ⟨-, -, hnull⟩ | ⟨-, F, hF, hframe⟩ | ⟨-, e, -, hrefused⟩
  case inl =>
    cases hnull.symm.trans h
    cases hok
  case inr.inl =>
    have ⟨hlong, hshort, hheader, hcommand⟩ := hF
    cases hframe.symm.trans h
    have hl := finished_length F
    refine ⟨finished F, rfl, by omega, by omega, ?_, hcommand, ?_, ?_⟩
    · rwa [hl, Nat.add_sub_cancel]
    · rw [hl, Nat.add_sub_cancel, finished_last]
    · rw [hl, finished_sum (by omega)]
  case inr.inr => cases hrefused.symm.trans h

/-- Settles O45: the cases of ASSEMBLE exclude each other, and a number is looked at first. -/
theorem assembleCompletesExactlyWhenValuesFit : Obligations.AssembleCompletesExactlyWhenValuesFit := by
  intro s r hs hrq
  refine ⟨fun henc hsection => ?frame, fun henc => ?refused, execAssemble_of_baseMisfit hs hrq⟩
  case frame =>
    rcases execAssemble_cases hs hrq with ⟨hq, hc, -⟩ | ⟨-, F, -, hF⟩ | ⟨hbad, -⟩
    · simp [hq, hc] at hsection
    · exact ⟨finished F, hF⟩
    · cases henc.symm.trans hbad
  case refused =>
    rcases execAssemble_cases hs hrq with ⟨hq, hc, -⟩ | ⟨hfits, -⟩ | ⟨-, hrefused⟩
    · simp [encodable, hq, hc] at henc
    · cases henc.symm.trans hfits
    · exact hrefused

end Sys2Proof.Machine
end

section
/-! PROOFS. The appointment round trip (95_test_vectors.md V8): the frame of slot 0 is read as an appointment report, in which the
record of slot 0 stands at the offsets of the overlay. -/

namespace Sys2Proof.Machine

open Sys2Proof.Claims

/-! ### The schedule records of a report -/

theorem slotName_injective : ∀ i j : Fin 3, slotName i = slotName j → i = j := by decide

theorem slotName_ne_version : ∀ i : Fin 3, slotName i ≠ ascii "version" := by decide

/-- A record is written when its five bytes are there (45_parser.md R176). -/
theorem docGet_parseRecord_of_bytes {cfg : Config} {S : List Byte} {i : Fin 3} {e b1 b2 b3 b4 : Byte}
    (he : memReadOpt S (12 + 5 * i.val) = some e) (h1 : memReadOpt S (13 + 5 * i.val) = some b1)
    (h2 : memReadOpt S (14 + 5 * i.val) = some b2) (h3 : memReadOpt S (15 + 5 * i.val) = some b3)
    (h4 : memReadOpt S (16 + 5 * i.val) = some b4) (d : Doc) :
    docGet (parseRecord cfg S i d) (slotName i)
      = some (.txt (joined (enableText (cfg.freeEnable (readPart S) i) e) b1 b2 b3 b4)) := by
  simp only [parseRecord, Config.decApptEn, Config.decApptData, Nat.add_right_comm 13 (5 * i.val), Nat.reduceAdd, he, h1, h2,
    h3, h4, docGet_docSet, if_true]
  rfl

/-- A record of which the last byte lies beyond the input is omitted (45_parser.md R178). -/
theorem parseRecord_of_short {cfg : Config} {S : List Byte} {i : Fin 3} (h : S.length < 16 + 5 * i.val) (d : Doc) :
    parseRecord cfg S i d = d := by
  have hlast : memReadOpt S (Config.decApptData i + 3) = none := by
    rw [← Option.not_isSome_iff_eq_none, memReadOpt_isSome, Config.decApptData]
    omega
  unfold parseRecord
  dsimp only
  split
  · rename_i h4
    cases hlast.symm.trans h4
  · rfl

/-- In an appointment report, the field of a slot is the slot's own record. -/
theorem docGet_parseAppointments (cfg : Config) (S : List Byte) (i : Fin 3) :
    ∃ d, docGet d (slotName i) = none
      ∧ docGet (parseAppointments cfg S) (slotName i) = docGet (parseRecord cfg S i d) (slotName i) := by
  have hne : ∀ {j : Fin 3}, i ≠ j → slotName i ≠ slotName j := mt (slotName_injective i _)
  have hstart : docGet (startDoc cfg) (slotName i) = none := by
    rw [docGet_startDoc, if_neg (slotName_ne_version i)]
  match i with
  | 0 =>
    refine ⟨_, hstart, ?_⟩
    rw [parseAppointments, docGet_parseRecord_other _ _ _ _ (hne (by decide)),
      docGet_parseRecord_other _ _ _ _ (hne (by decide))]
  | 1 =>
    refine ⟨parseRecord cfg S 0 (startDoc cfg), ?_, ?_⟩
    · rw [docGet_parseRecord_other _ _ _ _ (hne (by decide)), hstart]
    · rw [parseAppointments, docGet_parseRecord_other _ _ _ _ (hne (by decide))]
  | 2 =>
    refine ⟨parseRecord cfg S 1 (parseRecord cfg S 0 (startDoc cfg)), ?_, rfl⟩
    rw [docGet_parseRecord_other _ _ _ _ (hne (by decide)), docGet_parseRecord_other _ _ _ _ (hne (by decide)), hstart]

theorem docGet_parseAppointments_of_bytes {cfg : Config} {S : List Byte} {i : Fin 3} {e b1 b2 b3 b4 : Byte}
    (he : memReadOpt S (12 + 5 * i.val) = some e) (h1 : memReadOpt S (13 + 5 * i.val) = some b1)
    (h2 : memReadOpt S (14 + 5 * i.val) = some b2) (h3 : memReadOpt S (15 + 5 * i.val) = some b3)
    (h4 : memReadOpt S (16 + 5 * i.val) = some b4) :
    docGet (parseAppointments cfg S) (slotName i)
      = some (.txt (joined (enableText (cfg.freeEnable (readPart S) i) e) b1 b2 b3 b4)) := by
  obtain ⟨d, -, hd⟩ := docGet_parseAppointments cfg S i
  rw [hd, docGet_parseRecord_of_bytes he h1 h2 h3 h4]

theorem docGet_parseAppointments_of_short {cfg : Config} {S : List Byte} {i : Fin 3} (h : S.length < 16 + 5 * i.val) :
    docGet (parseAppointments cfg S) (slotName i) = none := by
  obtain ⟨d, hnone, hd⟩ := docGet_parseAppointments cfg S i
  rw [hd, parseRecord_of_short h, hnone]

/-! ### The round trip -/

/-- The enable byte that is sent for "1" or "0" is read back as the same text, with no free choice (45_parser.md R177). -/
theorem enableText_of_sent {e : Str} (h : e = ascii "1" ∨ e = ascii "0") (free : Bool) :
    enableText free (if e = ascii "1" then 0xFF else 0x00) = e := by
  rcases h with rfl | rfl
  · rfl
  · rw [if_neg (by decide)]
    rfl

/-- A frame with the pair of slot 0 is read as an appointment report (45_parser.md R171). -/
theorem parseFrame_of_slot0 {cfg : Config} {F : List Byte} (h10 : memReadOpt F 10 = some 0x02)
    (h11 : memReadOpt F 11 = some 0x05) : parseFrame cfg F = parseAppointments cfg F := by
  have hshape : reportShape F = .appointment := by
    rw [reportShape_of_pair h10 h11]
    rfl
  rw [parseFrame, hshape]
  rfl

/-- A frame that ASSEMBLE completes with is an input that PARSE accepts. -/
theorem execParse_of_assembled {s : State} {F : List Byte} (h : exec .assemble s = .next (frameOf s F)) :
    exec .parse { frameOf s F with aSeq := some F }
      = .next (okWith { frameOf s F with aSeq := some F } none none none none (some (parseFrame s.cfg F))) := by
  obtain ⟨hs, -⟩ := execAssemble_eq_next h
  obtain ⟨F', hF', -, hlen, -⟩ := assembledFramePostconditions s (frameOf s F) h rfl
  obtain rfl : F = F' := Option.some.inj hF'
  exact extract_of_seq (s := { frameOf s F with aSeq := some F }) hs rfl hlen parseFrame

/-- Settles O55: ASSEMBLE runs TX_APPOINT0, whose frame holds the enable byte and the data bytes where the record of slot 0
is read. -/
theorem appointmentRoundTrip : Obligations.AppointmentRoundTrip := by
  intro s r e ds hs hrq hq hc hb he hds hval h1 h2
  have hbelow : ∀ j : Fin 3, ¬ j < 0 := fun j => Nat.not_lt_zero j
  have hunder : liesUnder s.cfg r 0 (baseRow s.cfg r) :=
    .inr ⟨fun j hj => absurd hj (hbelow j), selectsBase_baseRow s.cfg r⟩
  have hcomma : 0x2C ∉ e := by rcases he with rfl | rfl <;> decide
  obtain ⟨happt, -⟩ := appointmentFrame s r 0 hs hrq hb fun j hj => absurd hj (hbelow j)
  obtain ⟨G, F, -, hF, -, h10, h11, h12, hdata, -⟩ := happt _ e ds hval hcomma hds hunder
  have hassemble : exec .assemble s = .next (frameOf s F) := by
    rw [execAssemble_of_lastSlot hrq hq hc (i := 0) (Option.isSome_of_eq_some hval), hF]
    exact Fin.forall_fin_succ.mpr ⟨fun hj => absurd hj (hbelow 0), Fin.forall_fin_two.mpr ⟨fun _ => h1, fun _ => h2⟩⟩
  have hrecord : ∀ b1 b2 b3 b4, memReadOpt F 13 = some b1 → memReadOpt F 14 = some b2 → memReadOpt F 15 = some b3 →
      memReadOpt F 16 = some b4 →
      docGet (parseAppointments s.cfg F) (slotName 0) = some (.txt (joined e b1 b2 b3 b4)) :=
    fun b1 b2 b3 b4 r1 r2 r3 r4 => by
      rw [docGet_parseAppointments_of_bytes (i := 0) h12 r1 r2 r3 r4, enableText_of_sent he]
  refine ⟨F, parseAppointments s.cfg F, hassemble, ?parsed, ?sent, hrecord, hdata,
    docGet_parseAppointments_of_short (i := 0)⟩
  case parsed => rw [execParse_of_assembled hassemble, parseFrame_of_slot0 h10 h11]
  case sent =>
    rintro b1 b2 b3 b4 more rfl
    exact hrecord b1 b2 b3 b4 (hdata 0 b1 rfl) (hdata 1 b2 rfl) (hdata 2 b3 rfl) (hdata 3 b4 rfl)

end Sys2Proof.Machine
end

section
/-! PROOFS. PARSE and the accepted frame shapes (45_parser.md R170 to R184): every read completes, and what stands in the
document when a byte, the pair or a whole record is not there. -/

namespace Sys2Proof.Machine

open Sys2Proof.Claims

/-! ### The dispatch -/

/-- An offset beyond the input holds no byte. -/
theorem memReadOpt_of_lt {S : List Byte} {off : Nat} (h : S.length < off) : memReadOpt S off = none := by
  rw [← Option.not_isSome_iff_eq_none, memReadOpt_isSome]
  omega

theorem exec_statusRow {i : Instr} (h : i ∈ statusRows) (s : State) : exec i s = extract s (parseAs .status) := by
  simp only [statusRows, List.mem_cons, List.not_mem_nil, or_false] at h
  rcases h with rfl | rfl | rfl | rfl | rfl | rfl <;> rfl

theorem exec_appointmentRow {i : Instr} (h : i ∈ appointmentRows) (s : State) :
    exec i s = extract s (parseAs .appointment) := by
  simp only [appointmentRows, List.mem_cons, List.not_mem_nil, or_false] at h
  rcases h with rfl | rfl | rfl | rfl <;> rfl

theorem reportShape_of_short {S : List Byte} (h : S.length < 11) : reportShape S = .unknown := by
  rw [reportShape, memReadOpt_of_lt h]
  cases memReadOpt S 10 <;> rfl

/-- A pair outside the two lists is of no shape (45_parser.md R172). -/
theorem reportShape_of_unlisted {S : List Byte}
    (h : ∀ c d, memReadOpt S 10 = some c → memReadOpt S 11 = some d → (c, d) ∉ statusPairs ++ apptPairs) :
    reportShape S = .unknown := by
  cases hc : memReadOpt S 10 with
  | none => rw [reportShape, hc]
  | some c =>
    cases hd : memReadOpt S 11 with
    | none => rw [reportShape, hc, hd]
    | some d =>
      have hno := h c d hc hd
      rw [List.mem_append, not_or] at hno
      obtain ⟨hstatus, happt⟩ := hno
      rw [reportShape_of_pair hc hd, if_neg (by simpa using hstatus), if_neg (by simpa using happt)]

theorem parseFrame_of_unknown (cfg : Config) {S : List Byte} (h : reportShape S = .unknown) :
    parseFrame cfg S = startDoc cfg := by
  rw [parseFrame, h]
  rfl

/-! ### The document of each shape -/

/-- `version`, the first field of every document (45_parser.md R170), is no slot's name. -/
theorem docGet_version_parseAppointments (cfg : Config) (S : List Byte) :
    docGet (parseAppointments cfg S) (ascii "version") = some (.num cfg.version) := by
  have hother : ∀ i d, docGet (parseRecord cfg S i d) (ascii "version") = docGet d (ascii "version") :=
    fun i d => docGet_parseRecord_other cfg S i d (slotName_ne_version i).symm
  rw [parseAppointments, hother, hother, hother, docGet_startDoc, if_pos rfl]

theorem docGet_version_parseStatus {cfg : Config} (S : List Byte) (h : ascii "version" ∉ Config.decNames cfg.decStatus) :
    docGet (parseStatus cfg S) (ascii "version") = some (.num cfg.version) := by
  rw [parseStatus, docGet_execDecRows_of_no_name _ _ _ h (by decide) (by decide), withModeDefault_eq, docGet_startDoc,
    if_pos rfl]

/-- Settles O47: each row reads `A_SEQ` in its own shape, with no look at the pair, and no record writes `version`. -/
theorem receivedShapesComplete : Obligations.ReceivedShapesComplete := by
  intro s S hcfg hseq hlen
  refine ⟨fun i hi => ?status, fun i hi => ?appointment, docGet_version_parseAppointments s.cfg S,
    docGet_version_parseStatus S⟩
  case status => rw [exec_statusRow hi, extract_of_seq hcfg hseq hlen, parseAs]
  case appointment => rw [exec_appointmentRow hi, extract_of_seq hcfg hseq hlen, parseAs]

/-- Settles O48: without one of the ten pairs the document stays as it starts. -/
theorem unknownPairGivesVersionOnly : Obligations.UnknownPairGivesVersionOnly := by
  intro s S hcfg hseq hlen h
  have hshape : reportShape S = .unknown := by
    rcases h with hshort | hpair
    · exact reportShape_of_short hshort
    · exact reportShape_of_unlisted fun c d hc hd hmem =>
        hpair c d hc hd (List.mem_map_of_mem (f := fun p => (p.1.toNat, p.2.toNat)) hmem)
  change extract s parseFrame = _
  rw [extract_of_seq hcfg hseq hlen, parseFrame_of_unknown _ hshape]
  rfl

/-! ### Fields that are omitted -/

/-- A named row of which the byte lies beyond the input writes nothing (45_parser.md R175). -/
theorem execDecRow_of_absent (free : Bool) {S : List Byte} {row : DecRow} {name : Str} (hname : Config.decNames [row] = [name])
    (h : ∀ off ∈ Config.decOffsets row, S.length < off) (d : Doc) : execDecRow free S row d = d := by
  cases row with
  | flag _ off _ _ _ _ _ | enum _ off _ _ _ | num _ off =>
    simp only [execDecRow, memReadOpt_of_lt (h off (List.mem_singleton_self off))]
  | heatd => cases hname

/-- `DEC_STATUS` around a row: the name of the row is no other row's (43_fieldmap.md R131). -/
theorem decStatus_around_row {cfg : Config} (h : cfg.wellFormed = true) {row : DecRow} (hrow : row ∈ cfg.decStatus)
    {name : Str} (hname : Config.decNames [row] = [name]) :
    ∃ pre post, cfg.decStatus = pre ++ row :: post ∧ name ∉ Config.decNames pre ∧ name ∉ Config.decNames post := by
  obtain ⟨hnd, -, -⟩ := wellFormed_decNames h
  obtain ⟨pre, post, hrows⟩ := List.append_of_mem hrow
  rw [hrows, decNames_append, ← List.singleton_append (l := post), decNames_append, hname, List.singleton_append,
    List.nodup_middle, List.nodup_cons, List.mem_append, not_or] at hnd
  obtain ⟨⟨hpre, hpost⟩, -⟩ := hnd
  exact ⟨pre, post, hrows, hpre, hpost⟩

/-- Settles O51: neither the row itself nor another one writes the field, and the document starts without it. -/
theorem absentByteOmitsTheField : Obligations.AbsentByteOmitsTheField := by
  intro cfg S row name hcfg hrow hname habsent hversion
  obtain ⟨-, hmode, hheat⟩ := wellFormed_decNames hcfg
  obtain ⟨pre, post, hrows, hpre, hpost⟩ := decStatus_around_row hcfg hrow hname
  have hmem : name ∈ Config.decNames cfg.decStatus := decNames_subset hrow (by simp [hname])
  have hkeep : ∀ rows d, name ∉ Config.decNames rows →
      docGet (execDecRows (cfg.freeHeat (readPart S)) S rows d) name = docGet d name := fun rows d hno =>
    docGet_execDecRows_of_no_name _ S d hno (ne_of_mem_of_not_mem hmem hmode) (ne_of_mem_of_not_mem hmem hheat)
  rw [parseStatus, hrows, execDecRows_append, execDecRows, hkeep post _ hpost, execDecRow_of_absent _ hname habsent,
    hkeep pre _ hpre, withModeDefault_eq, docGet_startDoc, if_neg hversion]

/-! ### The schedule records -/

/-- `EN(e)`: "1" for `FF`, "0" for `00`, one of the two for any other byte (45_parser.md R177; log 11). -/
theorem enableText_cases (free : Bool) (e : Byte) :
    (e = 0xFF → enableText free e = ascii "1") ∧ (e = 0x00 → enableText free e = ascii "0")
      ∧ (enableText free e = ascii "1" ∨ enableText free e = ascii "0") := by
  refine ⟨fun he => ?on, fun he => ?off, ?either⟩
  case on => rw [enableText, if_pos he]
  case off =>
    subst he
    rfl
  case either =>
    unfold enableText
    split_ifs <;> simp

/-- Settles O53: a slot's field is its own record, which needs its last byte. -/
theorem scheduleRecords : Obligations.ScheduleRecords := fun cfg S i =>
  ⟨fun e _ _ _ _ he h1 h2 h3 h4 => ⟨enableText (cfg.freeEnable (readPart S) i) e,
    docGet_parseAppointments_of_bytes he h1 h2 h3 h4, enableText_cases _ e⟩, docGet_parseAppointments_of_short⟩

/-! ### PARSE has no other outcome -/

/-- Settles O46: the two checks before the document pass. -/
theorem parseAlwaysCompletes : Obligations.ParseAlwaysCompletes := fun s S hcfg hseq hlen =>
  ⟨parseFrame s.cfg S, extract_of_seq hcfg hseq hlen parseFrame⟩

end Sys2Proof.Machine
end

section
/-! PROOFS. ENCODE and DECODE (46_entry_points.md R195 to R200): ENCODE makes the frame that ASSEMBLE makes, and when each
of the two completes. -/

namespace Sys2Proof.Machine

open Sys2Proof.Claims

/-! ### A completion that follows one computation -/

section
variable {α : Type} {x : Except Stop α} {complete : α → State}

/-- An operation that only completes after `x` answers exactly when `x` does. -/
theorem runOp_bind_complete_eq_next {t : State} :
    runOp (x >>= fun a => .ok (complete a)) = .next t ↔ ∃ a, x = .ok a ∧ t = complete a := by
  rw [runOp_eq_next, bind_eq_ok]
  exact exists_congr fun a => and_congr_right fun _ =>
    ⟨fun h => (Except.ok.inj h).symm, fun h => congrArg Except.ok h.symm⟩

/-- An operation that only completes after `x` is refused exactly when `x` is. -/
theorem runOp_bind_complete_eq_refused {r : Refusal} :
    runOp (x >>= fun a => .ok (complete a)) = .refused r ↔ x = refuse r := by
  rw [runOp_eq_refused, refuse, refuse, bind_eq_error]
  simp

end

/-! ### The frame that ASSEMBLE and ENCODE share -/

/-- The frame made of the request, if it asks for one: all that ASSEMBLE and ENCODE do before they complete
(44_assembler.md R141, 46_entry_points.md R195). -/
def requestFrame (s : State) : Except Stop (Option FrameBuffer) := do
  let rq ← operand s.rq
  checkConfig s.cfg
  assembleFrame s.cfg rq

section
variable {s : State}

/-- A computation on the frame of the request continues the three steps that make it. -/
theorem requestFrame_bind (complete : Option FrameBuffer → Except Stop State) :
    requestFrame s >>= complete = (do
      let rq ← operand s.rq
      checkConfig s.cfg
      let frame ← assembleFrame s.cfg rq
      complete frame) := by
  simp only [requestFrame, bind_assoc]

theorem exec_assemble_eq :
    exec .assemble s = runOp (requestFrame s >>= fun frame => .ok (frame.elim s.completeNull s.completeFrame)) := by
  change execAssemble s = _
  rw [execAssemble, requestFrame_bind]
  refine congrArg runOp (bind_congr fun rq => bind_congr fun _ => bind_congr fun frame => ?_)
  cases frame <;> rfl

theorem exec_encode_eq (hok : s.aOk = some true) :
    exec .encode s = runOp (requestFrame s >>= fun frame => .ok (frame.elim s.completeNull s.completeEncoded)) := by
  change execEncode s = _
  rw [execEncode, hok, operand_some, bind_ok, if_pos rfl, encodeRequest, requestFrame_bind]
  refine congrArg runOp (bind_congr fun rq => bind_congr fun _ => bind_congr fun frame => ?_)
  cases frame <;> rfl

/-- The staging string changes nothing, so `R_STR` is the hex string of the frame (30_encoding.md R71). -/
theorem completeEncoded_ofSeq (s : State) (F : List Byte) : s.completeEncoded (.ofSeq F)
    = { okWith s none none none (some (bytesToHexString F)) none with fb := FrameBuffer.ofSeq F } := by
  rw [State.completeEncoded, ofSeq_seq]
  rfl

/-- ASSEMBLE completes with the frame of the request only. -/
theorem requestFrame_of_exec_frame {F : List Byte} (h : exec .assemble s = .next (frameOf s F)) :
    requestFrame s = .ok (some (.ofSeq F)) := by
  obtain ⟨frame, hframe, ht⟩ := runOp_bind_complete_eq_next.mp (exec_assemble_eq.symm.trans h)
  cases frame with
  | none => cases congrArg State.res ht
  | some fb =>
    obtain rfl : FrameBuffer.ofSeq F = fb := congrArg State.fb ht
    exact hframe

/-- ASSEMBLE gives `NULL` only on a request that asks for no frame. -/
theorem requestFrame_of_exec_null {t : State} (h : exec .assemble s = .next t) (hnull : t.res = some .null) :
    requestFrame s = .ok none ∧ t = s.completeNull := by
  obtain ⟨frame, hframe, rfl⟩ := runOp_bind_complete_eq_next.mp (exec_assemble_eq.symm.trans h)
  cases frame with
  | none => exact ⟨hframe, rfl⟩
  | some fb => cases hnull

theorem exec_assemble_eq_refused {r : Refusal} : exec .assemble s = .refused r ↔ requestFrame s = refuse r := by
  rw [exec_assemble_eq, runOp_bind_complete_eq_refused]

/-! ### An input that is not there -/

/-- `A_OK = 0` decides before `RQ` is looked at (46_entry_points.md R196). -/
theorem exec_encode_of_notOk (hok : s.aOk = some false) : exec .encode s = .next (nullOf s) := by
  change execEncode s = _
  rw [execEncode, hok, operand_some, bind_ok, if_neg Bool.false_ne_true]
  rfl

/-- `A_OK = 0` decides before `A_STR` is looked at (46_entry_points.md R199). -/
theorem exec_decode_of_notOk (hok : s.aOk = some false) : exec .decode s = .next (nullOf s) := by
  change execDecode s = _
  rw [execDecode, hok, operand_some, bind_ok, if_neg Bool.false_ne_true]
  rfl

/-- A report without `msg.data` (46_entry_points.md R199). -/
theorem exec_decode_of_absent (hok : s.aOk = some true) (hstr : s.aStr = some none) :
    exec .decode s = .next (nullOf s) := by
  change execDecode s = _
  rw [execDecode, hok, operand_some, bind_ok, if_pos rfl, decodeReport, hstr, operand_some, bind_ok]
  rfl

theorem exec_hex2bytes_of_absent (hstr : s.aStr = some none) :
    exec .hex2bytes s = .next (okWith s none none (some s.cfg.freeHexBytes) none none) := by
  change execHex2bytes s = _
  rw [execHex2bytes, hstr, operand_some, bind_ok]
  rfl

theorem exec_raw2bytes_of_absent (hstr : s.aStr = some none) :
    exec .raw2bytes s = .next (okWith s none none (some s.cfg.freeRawBytes) none none) := by
  change execRaw2bytes s = _
  rw [execRaw2bytes, hstr, operand_some, bind_ok]
  rfl

end

/-! ### The obligations -/

/-- Settles O58: HEX2BYTES and RAW2BYTES complete with the free values of log 13. -/
theorem absentInputCompletes : Obligations.AbsentInputCompletes := fun _ =>
  ⟨fun hok => ⟨exec_encode_of_notOk hok, exec_decode_of_notOk hok⟩, exec_decode_of_absent,
    fun hstr => ⟨⟨_, exec_hex2bytes_of_absent hstr⟩, ⟨_, exec_raw2bytes_of_absent hstr⟩⟩⟩

/-- Settles O56: each outcome of ASSEMBLE says what frame the request has, which ENCODE then completes with. -/
theorem encodeIsAssembleThenHex : Obligations.EncodeIsAssembleThenHex := by
  refine ⟨rfl, fun s hok => ⟨fun F h => ?frame, fun t h hres => ?null, fun e h => ?refused⟩⟩
  case frame =>
    rw [exec_encode_eq hok, requestFrame_of_exec_frame h, bind_ok, runOp_ok, Option.elim_some, completeEncoded_ofSeq]
  case null =>
    obtain ⟨hnone, rfl⟩ := requestFrame_of_exec_null h hres
    rw [exec_encode_eq hok, hnone, bind_ok, runOp_ok, Option.elim_none]
  case refused => rw [exec_encode_eq hok, exec_assemble_eq_refused.mp h, bind_refuse, runOp_refuse]

/-- Settles O57: ASSEMBLE completes with a frame (O45), and ENCODE with its hex string (O56). -/
theorem encodeCompletes : Obligations.EncodeCompletes := by
  intro s r hs hok hrq henc hsection
  obtain ⟨hcompletes, -⟩ := assembleCompletesExactlyWhenValuesFit s r hs hrq
  obtain ⟨F, hF⟩ := hcompletes henc hsection
  obtain ⟨-, hencode⟩ := encodeIsAssembleThenHex
  obtain ⟨hhex, -⟩ := hencode s hok
  exact ⟨F, hF, hhex F hF⟩

/-- Settles O60: 513 characters give 256 bytes. -/
theorem decodeCompletes : Obligations.DecodeCompletes := by
  intro s T hs hok hstr hlen hhex
  obtain ⟨S, hS⟩ := hexToBytes_of_hex hhex
  have hshort : S.length ≤ 256 := by
    rw [hexToBytes_length hS]
    omega
  exact ⟨_, exec_decode_of_ok hok hstr hS hshort hs⟩

end Sys2Proof.Machine
end

section
/-! PROOFS. The abnormal completion (60_exceptions.md R205, R209): of the eight completions one leaves `RES = NULL`, and it
writes no frame. -/

namespace Sys2Proof.Machine

open Sys2Proof.Claims

/-- `RES = NULL` tells the abnormal completion from the seven that leave a value (60_exceptions.md R205). -/
theorem complete_res_eq_null_iff {s : State} {c : Completion} : (s.complete c).res = some .null ↔ c = .null := by
  constructor
  · intro hres
    cases c with
    | null => rfl
    | _ => cases hres
  · rintro rfl
    rfl

/-- Whatever the instruction, one that ends in `RES = NULL` is the abnormal completion. -/
theorem exec_eq_completeNull {i : Instr} {s t : State} (h : exec i s = .next t) (hnull : t.res = some .null) :
    t = s.completeNull := by
  obtain ⟨c, -, rfl⟩ := exec_eq_complete h
  obtain rfl := complete_res_eq_null_iff.mp hnull
  rfl

/-- The abnormal completion clears the other result latches and keeps all else, the frame buffer too (log 7). -/
theorem completeNull_eq_nullOf (s : State) : s.completeNull = nullOf s := rfl

/-! ### The obligations -/

/-- Settles O34: the frame buffer is written by the completions with a frame only, and those end in `RES = OK`. -/
theorem nullChangesNothingElse : Obligations.NullChangesNothingElse := by
  intro s t i _ h hnull
  rw [exec_eq_completeNull h hnull, completeNull_eq_nullOf]

end Sys2Proof.Machine
end

section
/-! PROOFS. Placing a word of the opcode table (70_reset_and_hazards.md R232; logs 2, 3): an OP code stands in OP whatever operands
are supplied with it, and a frame word is the pair of the frame that PARSE is given. -/

namespace Sys2Proof.Machine

/-! ### What stands where the step fetches -/

/-- The host supplies operands; the latch OP is not one of them. -/
@[simp] theorem supplyOperands_op (i : Instr) (s : State) : (supplyOperands i s).op = s.op := by cases i <;> rfl

@[simp] theorem placeCommand_op (s : State) (c : BitVec 4) : (placeCommand s c).op = some c := by simp [placeCommand]

/-- The pair follows the nine header bytes (30_encoding.md R51). -/
theorem memReadOpt_frameWithPair (c d : Byte) :
    memReadOpt (frameWithPair c d) 10 = some c ∧ memReadOpt (frameWithPair c d) 11 = some d := ⟨rfl, rfl⟩

theorem withFetchWord_of_le {nbits : Nat} (h : nbits ≤ 8) (s : State) (w : Nat) :
    s.withFetchWord nbits w = placeCommand s (BitVec.ofNat 4 w) := if_pos h

theorem withFetchWord_of_lt {nbits : Nat} (h : 8 < nbits) (s : State) (w : Nat) :
    s.withFetchWord nbits w = placeFrame s w := if_neg (Nat.not_le.mpr h)

/-! ### What the decoder reads there -/

/-- The decoder reads a word in the same two ways as it is placed: up to a byte an OP code, else the pair of a frame received. -/
theorem decodeTableWord_eq_some {nbits w : Nat} {i : Instr} (h : decodeTableWord nbits w = some i) :
    (nbits ≤ 8 ∧ decodeOp (BitVec.ofNat 4 w) = i) ∨ (8 < nbits ∧ decodeRx (wordCmd w) (wordSub w) = .ok i) := by
  unfold decodeTableWord at h
  split at h
  case h_2 => cases h
  case h_1 j hdec =>
    obtain rfl : j = i := Option.some.inj h
    split at hdec
    case isTrue hle => exact .inl ⟨hle, Except.ok.inj hdec⟩
    case isFalse hgt => exact .inr ⟨Nat.lt_of_not_le hgt, hdec⟩

/-! ### The step that runs it -/

theorem step_placeCommand (s : State) (c : BitVec 4) : step (placeCommand s c) = exec (decodeOp c) (placeCommand s c) :=
  step_of_op (placeCommand_op s c)

/-- PARSE is selected, and runs the row of the pair in the frame placed (O4). -/
theorem step_placeFrame {w : Nat} {i : Instr} (h : decodeRx (wordCmd w) (wordSub w) = .ok i) (s : State) :
    step (placeFrame s w) = exec i (placeFrame s w) := by
  obtain ⟨hcmd, hsub⟩ := memReadOpt_frameWithPair (wordCmd w) (wordSub w)
  exact stepRunsTheReceivedFrameShape _ _ _ _ _ rfl rfl hcmd hsub ((decode_f0rx_pair _ _).trans h)

/-- Settles O6: placing and decoding take a word for an OP code, or for a frame word, together. -/
theorem placedWordRuns : Obligations.PlacedWordRuns := by
  intro s nbits w i h
  rcases decodeTableWord_eq_some h with ⟨hop, rfl⟩ | ⟨hframe, hdec⟩
  · rw [withFetchWord_of_le hop, step_placeCommand]
  · rw [withFetchWord_of_lt hframe, step_placeFrame hdec]

end Sys2Proof.Machine
end
